-- ==== Sys2Proof/Word.lean ====
section
/-! DEFINITION. The word types of the ECurve ECC block: the 32-bit bus word, the 256-bit register value, the byte of
the wire buffer and the byte offset inside the register window (spec/00_scope.md R4, R6; spec/20_memory.md R70). -/

namespace Sys2Proof

/-- One byte: a wire-buffer byte, an opcode, an immediate (R35, R101). -/
abbrev Byte := BitVec 8

/-- The host's 32-bit bus word, and the command word (R4, R71, R100). -/
abbrev Word := BitVec 32

/-- A 256-bit unsigned register value (R4: "value width W, 256 bits, unsigned"). -/
abbrev Value := BitVec 256

/-- A byte offset from `ECB_BASE` inside the 32 KiB register window, 0x0000 to 0x7FFF (R70). -/
abbrev Offset := BitVec 15

end Sys2Proof
end

