-- ==== Sys2Proof/Config.lean ====
section
/-! DEFINITION. What is fixed for the machine: the identity constant, the domain ROM, the platform's window base and the
free values (spec/00_scope.md R4; spec/10_state.md R32, R36, R45; spec/20_memory.md R70, R81). -/

namespace Sys2Proof.Config

/-- The `ID` register's constant (R36; R4's parameter row, D40). -/
def idValue : Word := 0xECC00001

/-- A named curve domain: the constant set of R32 `{p, a, b, compressed-G encoding, Gx, Gy, n, h}`. -/
structure Domain where
  p : Value
  a : Value
  b : Value
  gx : Value
  gy : Value
  n : Value
  h : Value
  /-- 33 bytes; held, and read by no command and no bus address (R32, D51). -/
  compressedG : BitVec 264
  deriving DecidableEq, Repr

/-- The one entry of the domain ROM, id 1, secp256k1 (R32). Gx, Gy, n and the compressed encoding are the spec's own
general-knowledge passages G1 to G4 (spec/93_implementation_defined.md). -/
def secp256k1 : Domain where
  p := 0xFFFFFFFFFFFFFFFFFFFFFFFFFFFFFFFFFFFFFFFFFFFFFFFFFFFFFFFEFFFFFC2F
  a := 0
  b := 7
  gx := 0x79BE667EF9DCBBAC55A06295CE870B07029BFCDB2DCE28D959F2815B16F81798
  gy := 0x483ADA7726A3C4655DA4FBFC0E1108A8FD17B448A68554199C47D08FFB10D4B8
  n := 0xFFFFFFFFFFFFFFFFFFFFFFFFFFFFFFFEBAAEDCE6AF48A03BBFD25E8CD0364141
  h := 1
  compressedG := 0x0279BE667EF9DCBBAC55A06295CE870B07029BFCDB2DCE28D959F2815B16F81798

/-- The domain id under which `CTXLD` finds secp256k1, and the only one there is (R32, R251). -/
def secp256k1Id : Byte := 1

/-- FREE VALUE (spec/93_implementation_defined.md U1 to U4). What a draw of the spec yields: the value of a register,
of a table entry or of a wire byte after a reset, or the word a data read returns while the block is busy. It is
uninterpreted: nothing can be proved of it. It is applied to the whole state at the draw (which holds the draw counter,
so that no two draws of a run share their argument, and the operands, so that no draw is known to be independent of
them) and to the site it is drawn for, named by its window offset. Log entry 2. -/
opaque freeValue {σ : Type} (s : σ) (site : Nat) : Value

/-- OPEN PARAMETER of the platform (R70, U6): which multiple of 0x8000 the window base is. -/
opaque ecbBaseIndex : Nat

/-- `ECB_BASE`, a multiple of 0x8000 (R70). -/
def ecbBase : Nat := 0x8000 * ecbBaseIndex

/-- The platform bus address of a window offset (R70: "All offsets below are from `ECB_BASE`"). -/
def busAddress (off : Offset) : Nat := ecbBase + off.toNat

end Sys2Proof.Config
end

