-- ==== Sys2Proof/Syntax.lean ====
section
/-! DEFINITION. The commands of the block: one constructor of `Instr` per row of spec/opcode_table.json, the register
names they use, the opcodes, the raw fields of a command word, the pseudo-commands and the assembler text
(spec/30_encoding.md R101 to R110). -/

namespace Sys2Proof

/-- `F[0..15]` (R22, R102). -/
abbrev FReg := Fin 16
/-- `PT[0..7]` (R24, R102). -/
abbrev PReg := Fin 8
/-- `K[0..3]` (R27, R102). -/
abbrev KReg := Fin 4
/-- `CTX[0..1]`, and the 1-bit tag that names a context (R22, R24, R28). -/
abbrev CReg := Fin 2

/-- The 22 commands (R106). Operands stand in the assembler's order of R109: destination, sources, context, immediate. -/
inductive Instr
  | nop
  | fadd (d a b : FReg)
  | fsub (d a b : FReg)
  | fmul (d a b : FReg)
  | fneg (d a : FReg)
  | finv (d a : FReg)
  | fdiv (d a b : FReg)
  /-- The exponent is the raw immediate; `sext_8` of it may be negative (R103, R146). -/
  | fpow (d a : FReg) (imm : Byte)
  | fred (d : FReg) (hi lo : KReg) (c : CReg)
  | pinf (d : PReg) (c : CReg)
  | pmake (d : PReg) (x y : FReg) (c : CReg)
  | pneg (d a : PReg)
  | peq (a b : PReg)
  | padd (d a b : PReg)
  | pdbl (d a : PReg)
  | ptoj (d a : PReg)
  | ptoa (d a : PReg)
  | smul (d : PReg) (k : KReg) (a : PReg)
  | smulg (d : PReg) (k : KReg) (a : PReg)
  | ctxld (c : CReg) (dom : Byte)
  | pdec (d : PReg) (c : CReg)
  | penc (a : PReg)
  deriving DecidableEq, Repr

/-- The assigned opcodes of R106. -/
inductive Opcode
  | nop | fadd | fsub | fmul | fneg | finv | fdiv | fpow | fred
  | pinf | pmake | pneg | peq | padd | pdbl | ptoj | ptoa
  | smul | smulg | ctxld | pdec | penc
  deriving DecidableEq, Repr

/-- The fields of a command word, before strict decode (R101). -/
structure Fields where
  op : Byte
  d : BitVec 4
  s1 : BitVec 4
  s2 : BitVec 4
  c : BitVec 1
  rsv : BitVec 3
  imm : Byte
  deriving DecidableEq, Repr

/-- The class of a register operand field (R102). -/
inductive OperandClass
  | unused | f | p | k
  deriving DecidableEq, Repr

/-- Which fields a command uses, and how (the rows of R106). -/
structure Shape where
  d : OperandClass
  s1 : OperandClass
  s2 : OperandClass
  usesC : Bool
  usesImm : Bool
  deriving DecidableEq, Repr

/-- Why strict decode refuses a word (R104, R107). Every reason completes with the one code IllegalCommand (R301). -/
inductive Illegal
  /-- `OP` is not assigned (R107). -/
  | unassignedOpcode
  /-- `RSV != 0` (R104). -/
  | reservedField
  /-- A field the command leaves unused is not 0 (R104). -/
  | unusedField
  /-- A register field breaks its class's must-be-0 condition (R102). -/
  | registerClass
  deriving DecidableEq, Repr

/-- The opcode of a command. -/
def Instr.opcode : Instr → Opcode
  | .nop => .nop
  | .fadd _ _ _ => .fadd
  | .fsub _ _ _ => .fsub
  | .fmul _ _ _ => .fmul
  | .fneg _ _ => .fneg
  | .finv _ _ => .finv
  | .fdiv _ _ _ => .fdiv
  | .fpow _ _ _ => .fpow
  | .fred _ _ _ _ => .fred
  | .pinf _ _ => .pinf
  | .pmake _ _ _ _ => .pmake
  | .pneg _ _ => .pneg
  | .peq _ _ => .peq
  | .padd _ _ _ => .padd
  | .pdbl _ _ => .pdbl
  | .ptoj _ _ => .ptoj
  | .ptoa _ _ => .ptoa
  | .smul _ _ _ => .smul
  | .smulg _ _ _ => .smulg
  | .ctxld _ _ => .ctxld
  | .pdec _ _ => .pdec
  | .penc _ => .penc

/-- Pseudo-command `FMOV Fd, Fa` = `FPOW Fd, Fa, #1` (R110). -/
def Instr.fmov (d a : FReg) : Instr := .fpow d a 1
/-- Pseudo-command `FONE Fd, Fa` = `FPOW Fd, Fa, #0` (R110). -/
def Instr.fone (d a : FReg) : Instr := .fpow d a 0
/-- Pseudo-command `FZERO Fd, Fa` = `FSUB Fd, Fa, Fa` (R110). -/
def Instr.fzero (d a : FReg) : Instr := .fsub d a a
/-- Pseudo-command `FSQR Fd, Fa` = `FMUL Fd, Fa, Fa` (R110). -/
def Instr.fsqr (d a : FReg) : Instr := .fmul d a a

/-- The mnemonic of an opcode, as spec/opcode_table.json spells it. -/
def Opcode.mnemonic : Opcode → String
  | .nop => "NOP"
  | .fadd => "FADD"
  | .fsub => "FSUB"
  | .fmul => "FMUL"
  | .fneg => "FNEG"
  | .finv => "FINV"
  | .fdiv => "FDIV"
  | .fpow => "FPOW"
  | .fred => "FRED"
  | .pinf => "PINF"
  | .pmake => "PMAKE"
  | .pneg => "PNEG"
  | .peq => "PEQ"
  | .padd => "PADD"
  | .pdbl => "PDBL"
  | .ptoj => "PTOJ"
  | .ptoa => "PTOA"
  | .smul => "SMUL"
  | .smulg => "SMULG"
  | .ctxld => "CTXLD"
  | .pdec => "PDEC"
  | .penc => "PENC"

/-- The operand texts of a command, in the order of R109. A register is written with its file's letter (a point
register `P`), an immediate `#n` in decimal: FPOW's is the signed exponent, CTXLD's the unsigned domain id (R103). -/
def Instr.operandTexts : Instr → List String
  | .nop => []
  | .fadd d a b | .fsub d a b | .fmul d a b | .fdiv d a b => [fText d, fText a, fText b]
  | .fneg d a | .finv d a => [fText d, fText a]
  | .fpow d a imm => [fText d, fText a, "#" ++ toString imm.toInt]
  | .fred d hi lo c => [fText d, kText hi, kText lo, cText c]
  | .pinf d c | .pdec d c => [pText d, cText c]
  | .pmake d x y c => [pText d, fText x, fText y, cText c]
  | .pneg d a | .pdbl d a | .ptoj d a | .ptoa d a => [pText d, pText a]
  | .peq a b => [pText a, pText b]
  | .padd d a b => [pText d, pText a, pText b]
  | .smul d k a | .smulg d k a => [pText d, kText k, pText a]
  | .ctxld c dom => [cText c, "#" ++ toString dom.toNat]
  | .penc a => [pText a]
where
  fText (r : FReg) : String := "F" ++ toString r.val
  pText (r : PReg) : String := "P" ++ toString r.val
  kText (r : KReg) : String := "K" ++ toString r.val
  cText (r : CReg) : String := "C" ++ toString r.val

/-- The assembler text of a command: `MNEMONIC operands`, separated by commas (R109). -/
def Instr.assembly (i : Instr) : String :=
  match i.operandTexts with
  | [] => i.opcode.mnemonic
  | ops => i.opcode.mnemonic ++ " " ++ String.intercalate ", " ops

end Sys2Proof
end

