-- ==== Sys2Proof/WellFormed.lean ====
section
/-! DEFINITION. Which command words are well formed, by the masks of spec/opcode_table.json (spec/30_encoding.md R104).
An `Instr` needs no check of its own: its register names are bounded by their types (`FReg`, `PReg`, `KReg`, `CReg`) and
its immediates by their width, so every term of `Instr` is well formed. What can be ill formed is a command WORD. This
file transcribes the mask and match of every opcode-table row; Decode.lean transcribes R101, R102 and R106
independently, and an obligation says that the two agree. -/

namespace Sys2Proof

/-- Mask and match of an opcode-table row: "a word `w` is that command iff `w & mask == match`" (R104). -/
structure Row where
  mask : Word
  pattern : Word
  deriving DecidableEq, Repr

/-- The rows of spec/opcode_table.json. -/
def Opcode.row : Opcode → Row
  | .nop => ⟨0xFFFFFFFF, 0x00000000⟩
  | .fadd => ⟨0xFFF000FF, 0x00000010⟩
  | .fsub => ⟨0xFFF000FF, 0x00000011⟩
  | .fmul => ⟨0xFFF000FF, 0x00000012⟩
  | .fneg => ⟨0xFFFF00FF, 0x00000013⟩
  | .finv => ⟨0xFFFF00FF, 0x00000014⟩
  | .fdiv => ⟨0xFFF000FF, 0x00000015⟩
  | .fpow => ⟨0x00FF00FF, 0x00000016⟩
  | .fred => ⟨0xFFECC0FF, 0x00000017⟩
  | .pinf => ⟨0xFFEFF8FF, 0x00000020⟩
  | .pmake => ⟨0xFFE008FF, 0x00000021⟩
  | .pneg => ⟨0xFFFF88FF, 0x00000022⟩
  | .peq => ⟨0xFFF88FFF, 0x00000023⟩
  | .padd => ⟨0xFFF888FF, 0x00000024⟩
  | .pdbl => ⟨0xFFFF88FF, 0x00000025⟩
  | .ptoj => ⟨0xFFFF88FF, 0x00000026⟩
  | .ptoa => ⟨0xFFFF88FF, 0x00000027⟩
  | .smul => ⟨0xFFF8C8FF, 0x00000030⟩
  | .smulg => ⟨0xFFF8C8FF, 0x00000031⟩
  | .ctxld => ⟨0x00EFFFFF, 0x00000040⟩
  | .pdec => ⟨0xFFEFF8FF, 0x00000041⟩
  | .penc => ⟨0xFFFF8FFF, 0x00000042⟩

/-- Every assigned opcode, in the table's order. -/
def Opcode.all : List Opcode :=
  [.nop, .fadd, .fsub, .fmul, .fneg, .finv, .fdiv, .fpow, .fred, .pinf, .pmake, .pneg, .peq, .padd, .pdbl, .ptoj, .ptoa,
    .smul, .smulg, .ctxld, .pdec, .penc]

/-- The word is the command of this row (R104). -/
def Row.admits (r : Row) (w : Word) : Bool := w &&& r.mask == r.pattern

/-- The word is a command at all: some row admits it (R104). -/
def wordWellFormed (w : Word) : Bool := Opcode.all.any fun o => o.row.admits w

end Sys2Proof
end

