-- ==== Sys2Proof/Decode.lean ====
section
/-! DEFINITION. The strict decoder, total on every 32-bit word, and the encoder written from the same tables
(spec/30_encoding.md R100 to R107). -/

namespace Sys2Proof

/-- The opcode numbers of R106. -/
def Opcode.toByte : Opcode → Byte
  | .nop => 0x00
  | .fadd => 0x10
  | .fsub => 0x11
  | .fmul => 0x12
  | .fneg => 0x13
  | .finv => 0x14
  | .fdiv => 0x15
  | .fpow => 0x16
  | .fred => 0x17
  | .pinf => 0x20
  | .pmake => 0x21
  | .pneg => 0x22
  | .peq => 0x23
  | .padd => 0x24
  | .pdbl => 0x25
  | .ptoj => 0x26
  | .ptoa => 0x27
  | .smul => 0x30
  | .smulg => 0x31
  | .ctxld => 0x40
  | .pdec => 0x41
  | .penc => 0x42

/-- The command an `OP` byte is assigned to, if any (R106, R107). -/
def opcodeOfByte (b : Byte) : Option Opcode := Opcode.all.find? fun o => o.toByte == b

/-- The operand columns D, S1, S2, C, IMM of R106. -/
def Opcode.shape : Opcode → Shape
  | .nop => ⟨.unused, .unused, .unused, false, false⟩
  | .fadd | .fsub | .fmul | .fdiv => ⟨.f, .f, .f, false, false⟩
  | .fneg | .finv => ⟨.f, .f, .unused, false, false⟩
  | .fpow => ⟨.f, .f, .unused, false, true⟩
  | .fred => ⟨.f, .k, .k, true, false⟩
  | .pinf => ⟨.p, .unused, .unused, true, false⟩
  | .pmake => ⟨.p, .f, .f, true, false⟩
  | .pneg | .pdbl | .ptoj | .ptoa => ⟨.p, .p, .unused, false, false⟩
  | .peq => ⟨.unused, .p, .p, false, false⟩
  | .padd => ⟨.p, .p, .p, false, false⟩
  | .smul | .smulg => ⟨.p, .k, .p, false, false⟩
  | .ctxld => ⟨.unused, .unused, .unused, true, true⟩
  | .pdec => ⟨.p, .unused, .unused, true, false⟩
  | .penc => ⟨.unused, .p, .unused, false, false⟩

/-- The fields of a command word at their bit positions (R101). -/
def fieldsOfWord (w : Word) : Fields where
  op := w.extractLsb' 0 8
  d := w.extractLsb' 8 4
  s1 := w.extractLsb' 12 4
  s2 := w.extractLsb' 16 4
  c := w.extractLsb' 20 1
  rsv := w.extractLsb' 21 3
  imm := w.extractLsb' 24 8

/-- The command word with these fields, `{IMM, RSV, C, S2, S1, D, OP}` (R6, R101). -/
def wordOfFields (f : Fields) : Word := f.imm ++ f.rsv ++ f.c ++ f.s2 ++ f.s1 ++ f.d ++ f.op

/-- A field left unused is 0; a used field passes here (R102: "unused: the field must be 0"). -/
def zeroIfUnused (cls : OperandClass) (x : BitVec 4) : Bool :=
  match cls with
  | .unused => x == 0
  | .f | .p | .k => true

/-- The must-be-0 bits of a register field of this class are 0 (R102). -/
def inClass (cls : OperandClass) (x : BitVec 4) : Bool :=
  match cls with
  | .unused | .f => true
  | .p => x.extractLsb' 3 1 == 0#1
  | .k => x.extractLsb' 2 2 == 0#2

/-- Strict decode's checks of a word's fields against the shape of its opcode, by name (R104). -/
def shapeCheck (sh : Shape) (f : Fields) : Option Illegal :=
  if f.rsv ≠ 0 then some .reservedField
  else if !(zeroIfUnused sh.d f.d && zeroIfUnused sh.s1 f.s1 && zeroIfUnused sh.s2 f.s2
      && (sh.usesC || f.c == 0) && (sh.usesImm || f.imm == 0)) then some .unusedField
  else if !(inClass sh.d f.d && inClass sh.s1 f.s1 && inClass sh.s2 f.s2) then some .registerClass
  else none

/-- `F[0..15]` by the 4-bit field (R102). -/
def fOperand (x : BitVec 4) : FReg := Fin.ofNat 16 x.toNat
/-- `PT[0..7]` by bits 2:0 (R102). -/
def pOperand (x : BitVec 4) : PReg := Fin.ofNat 8 x.toNat
/-- `K[0..3]` by bits 1:0 (R102). -/
def kOperand (x : BitVec 4) : KReg := Fin.ofNat 4 x.toNat
/-- `CTX[0..1]` by the C bit (R101). -/
def cOperand (x : BitVec 1) : CReg := Fin.ofNat 2 x.toNat

/-- The command of an opcode with the operands a word's fields name (R106). -/
def instrOf (o : Opcode) (f : Fields) : Instr :=
  match o with
  | .nop => .nop
  | .fadd => .fadd (fOperand f.d) (fOperand f.s1) (fOperand f.s2)
  | .fsub => .fsub (fOperand f.d) (fOperand f.s1) (fOperand f.s2)
  | .fmul => .fmul (fOperand f.d) (fOperand f.s1) (fOperand f.s2)
  | .fneg => .fneg (fOperand f.d) (fOperand f.s1)
  | .finv => .finv (fOperand f.d) (fOperand f.s1)
  | .fdiv => .fdiv (fOperand f.d) (fOperand f.s1) (fOperand f.s2)
  | .fpow => .fpow (fOperand f.d) (fOperand f.s1) f.imm
  | .fred => .fred (fOperand f.d) (kOperand f.s1) (kOperand f.s2) (cOperand f.c)
  | .pinf => .pinf (pOperand f.d) (cOperand f.c)
  | .pmake => .pmake (pOperand f.d) (fOperand f.s1) (fOperand f.s2) (cOperand f.c)
  | .pneg => .pneg (pOperand f.d) (pOperand f.s1)
  | .peq => .peq (pOperand f.s1) (pOperand f.s2)
  | .padd => .padd (pOperand f.d) (pOperand f.s1) (pOperand f.s2)
  | .pdbl => .pdbl (pOperand f.d) (pOperand f.s1)
  | .ptoj => .ptoj (pOperand f.d) (pOperand f.s1)
  | .ptoa => .ptoa (pOperand f.d) (pOperand f.s1)
  | .smul => .smul (pOperand f.d) (kOperand f.s1) (pOperand f.s2)
  | .smulg => .smulg (pOperand f.d) (kOperand f.s1) (pOperand f.s2)
  | .ctxld => .ctxld (cOperand f.c) f.imm
  | .pdec => .pdec (pOperand f.d) (cOperand f.c)
  | .penc => .penc (pOperand f.s1)

/-- The strict decoder (R104): a word is a command iff its opcode is assigned and its fields fit the opcode's shape. -/
def decode (w : Word) : Except Illegal Instr :=
  match opcodeOfByte (fieldsOfWord w).op with
  | none => .error .unassignedOpcode
  | some o =>
    match shapeCheck o.shape (fieldsOfWord w) with
    | some why => .error why
    | none => .ok (instrOf o (fieldsOfWord w))

/-- A register name as a 4-bit field. -/
def operandField {n : Nat} (r : Fin n) : BitVec 4 := BitVec.ofNat 4 r.val
/-- A context name as the C bit. -/
def contextField (c : CReg) : BitVec 1 := BitVec.ofNat 1 c.val

/-- The fields of a command: its opcode, its operands in the columns of R106, and 0 in every other field. -/
def fieldsOf (i : Instr) : Fields :=
  match i with
  | .nop => base i
  | .fadd d a b | .fsub d a b | .fmul d a b | .fdiv d a b =>
    { base i with d := operandField d, s1 := operandField a, s2 := operandField b }
  | .fneg d a | .finv d a => { base i with d := operandField d, s1 := operandField a }
  | .fpow d a imm => { base i with d := operandField d, s1 := operandField a, imm := imm }
  | .fred d hi lo c =>
    { base i with d := operandField d, s1 := operandField hi, s2 := operandField lo, c := contextField c }
  | .pinf d c | .pdec d c => { base i with d := operandField d, c := contextField c }
  | .pmake d x y c =>
    { base i with d := operandField d, s1 := operandField x, s2 := operandField y, c := contextField c }
  | .pneg d a | .pdbl d a | .ptoj d a | .ptoa d a => { base i with d := operandField d, s1 := operandField a }
  | .peq a b => { base i with s1 := operandField a, s2 := operandField b }
  | .padd d a b => { base i with d := operandField d, s1 := operandField a, s2 := operandField b }
  | .smul d k a | .smulg d k a => { base i with d := operandField d, s1 := operandField k, s2 := operandField a }
  | .ctxld c dom => { base i with c := contextField c, imm := dom }
  | .penc a => { base i with s1 := operandField a }
where
  base (i : Instr) : Fields := ⟨i.opcode.toByte, 0, 0, 0, 0, 0, 0⟩

/-- The command word of a command (R101, R106). -/
def encode (i : Instr) : Word := wordOfFields (fieldsOf i)

/-- The instruction the decoder reads from a word given as a number with its bits counted from the least significant.
Every row of spec/opcode_table.json is one 32-bit word (R100), so a number's bits above bit 31 are dropped. -/
def decodeTableWord (nbits w : Nat) : Option Instr :=
  match decode (BitVec.ofNat 32 (w % 2 ^ nbits)) with
  | .ok i => some i
  | .error _ => none

end Sys2Proof
end

