-- ==== Sys2Proof/Machine/State.lean ====
section
/-! DEFINITION. The state of the block as plain data, the reasons a step can stop, the error kinds a command can complete
with, and the state after a hard reset (spec/10_state.md R20 to R45; spec/60_exceptions.md R281). -/

namespace Sys2Proof.Machine

/-- No step faults: the type has no constructor. "No host access raises an error, a fault or a bus-error response"
(R304), and the block "has no traps" (R308): a command's error is a completion code, a next state. -/
inductive Fault
  deriving DecidableEq, Repr

/-- The reasons a step can be refused. -/
inductive Refusal
  /-- Raised by `exec`'s arm of a command that has no meaning yet. Safe: nothing is claimed of it. -/
  | notModelled (mnemonic : String)
  /-- Raised by the host agent for an access that is not one 32-bit access at an offset that is a multiple of 4: such an
  access "has unspecified effect and result; a model refuses it" (R71). Safe. -/
  | undefinedAccess
  deriving DecidableEq, Repr

/-- The error kinds of R281, in the order of their codes 1 to 18. -/
inductive Err
  | fieldMismatch
  | curveMismatch
  | invalidFieldElement
  | noInverse
  | negativeExponentUnsupported
  | incompatibleRepresentations
  | alreadyInRepresentation
  | selfNegationDouble
  /-- Code 9 is reserved: no command raises it (R294). -/
  | negativeScalarUnsupported
  | tableDomainMismatch
  | unsupportedPointFormat
  | notImplemented
  | tableUnavailable
  | degenerateAdd
  | mixedAddPrecondition
  | illegalCommand
  | uninitializedOperand
  | invalidContext
  deriving DecidableEq, Repr

/-- A point's representation, its `REP` bit: 0 is affine, 1 is Jacobian (R24). -/
inductive Rep
  | affine | jacobian
  deriving DecidableEq, Repr

/-- A field-element register (R22). -/
structure FieldReg where
  val : Value
  tag : CReg
  v : Bool
  deriving DecidableEq, Repr

/-- A point register (R24). `inf` is meaningful only where `rep` is affine (R25). -/
structure PointReg where
  x : Value
  y : Value
  z : Value
  tag : CReg
  rep : Rep
  inf : Bool
  v : Bool
  deriving DecidableEq, Repr

/-- A scalar register (R27). -/
structure ScalarReg where
  val : Value
  v : Bool
  deriving DecidableEq, Repr

/-- A curve context (R28). -/
structure Context where
  p : Value
  a : Value
  b : Value
  gx : Value
  gy : Value
  n : Value
  h : Value
  dom : Byte
  valid : Bool
  deriving DecidableEq, Repr

/-- An entry of the generator table (R33). -/
structure TableEntry where
  x : Value
  y : Value
  deriving DecidableEq, Repr

/-- What the world outside the sequencer does next. The list of these in `State` is both the host's pending accesses
and the order in which the host and the sequencer step (R20, R307, R340). Log entry 1. -/
inductive Input
  /-- `MemRead(off, 4)` (R72). -/
  | read (off : Offset)
  /-- `MemWrite(off, 4, w)` (R72). -/
  | write (off : Offset) (w : Word)
  /-- Any other access: 8, 16 or 64 bits, or a burst, of so many bytes (R71). -/
  | irregular (off : Offset) (bytes : Nat)
  /-- R109's `wait`: read STATUS until `BUSY = 0`. -/
  | wait
  /-- The command in flight completes now, without the host polling for it (R340). -/
  | complete
  /-- The platform asserts and releases the reset input (R320). -/
  | hardReset
  deriving DecidableEq, Repr

/-- The whole state of the block and of what drives it. The last three fields are the model's own. -/
structure State where
  /-- `F[0..15]` (R22). -/
  f : Vector FieldReg 16
  /-- `PT[0..7]` (R24). -/
  pt : Vector PointReg 8
  /-- `K[0..3]` (R27). -/
  k : Vector ScalarReg 4
  /-- `CTX[0..1]` (R28). -/
  ctx : Vector Context 2
  /-- `TABLE[0..255]` (R33). -/
  table : Vector TableEntry 256
  /-- `WIRE[0..64]` (R35). -/
  wire : Vector Byte 65
  /-- `CTRL.IE` (R37). -/
  ie : Bool
  /-- `CTRL.TVALID` (R34, R37). -/
  tvalid : Bool
  /-- `STATUS.BUSY`: a command is in flight (R38, R43). -/
  busy : Bool
  /-- `STATUS.DONE` (R38). -/
  done : Bool
  /-- `STATUS.ERR` (R38). -/
  err : Bool
  /-- `STATUS.EQ` (R38, R42). -/
  eq : Bool
  /-- `STATUS.OVF` (R38). -/
  ovf : Bool
  /-- `STATUS.CODE` (R38, R281). -/
  code : BitVec 5
  /-- `CMD`: the most recently accepted command word; while `busy`, the word the sequencer holds (R39, R43). -/
  cmd : Word
  /-- `ERRCMD` (R40). -/
  errcmd : Word
  /-- MODEL'S OWN: what the host, the platform and the schedule do next. -/
  inputs : List Input
  /-- MODEL'S OWN: the word the latest host read returned (the read data of the bus). -/
  rdata : Word
  /-- MODEL'S OWN: how many draws of free values were made. -/
  draws : Nat
  deriving DecidableEq, Repr

/-- The interrupt output: a level, `IRQ = CTRL.IE AND STATUS.DONE` (R44, R305). -/
def State.irq (s : State) : Bool := s.ie && s.done

/-- The machine right after a hard reset, with nothing yet asked of it (R45, R320). Where R45 says "unspecified" the
value here is the model's, 0 or affine or false (log entry 3, DESIGN CHOICE). -/
def State.reset : State where
  f := Vector.replicate 16 { val := 0, tag := 0, v := false }
  pt := Vector.replicate 8 { x := 0, y := 0, z := 0, tag := 0, rep := .affine, inf := false, v := false }
  k := Vector.replicate 4 { val := 0, v := false }
  ctx := Vector.replicate 2 { p := 0, a := 0, b := 0, gx := 0, gy := 0, n := 0, h := 0, dom := 0, valid := false }
  table := Vector.replicate 256 { x := 0, y := 0 }
  wire := Vector.replicate 65 0
  ie := false
  tvalid := false
  busy := false
  done := false
  err := false
  eq := false
  ovf := false
  code := 0
  cmd := 0
  errcmd := 0
  inputs := []
  rdata := 0
  draws := 0

end Sys2Proof.Machine
end

