-- ==== Sys2Proof/Machine/FieldArith.lean ====
section
/-! DEFINITION. The arithmetic primitives of the field units, on exact natural numbers: the modular adder and
subtractor, the Montgomery multiplier's and the Barrett reducer's results, the modular inverter
(spec/41_field.md R133 to R137, R146, R147; spec/00_scope.md R5). -/

namespace Sys2Proof.Machine

/-- The modular adder, in the branches the spec gives: no intermediate value exceeds `p` (R133). -/
def fadd (p a b : Nat) : Nat :=
  let rhsMod := p - b
  if a ≥ rhsMod then a - rhsMod else p - rhsMod + a

/-- The modular subtractor (R134). -/
def fsub (p a b : Nat) : Nat := if a ≥ b then a - b else p - b + a

/-- The Montgomery modular multiplier: the exact double-width product, reduced (R135). -/
def fmul (p a b : Nat) : Nat := a * b % p

/-- A small constant times a field value: the numeral is taken modulo `p` (R137). -/
def fmulSmall (p c v : Nat) : Nat := fmul p (c % p) v

/-- `b ^ e mod p` for `e < 2 ^ fuel`, by squaring; `powMod_eq` in Laws/Arith.lean says that it is that value. -/
def powMod (p : Nat) : (fuel b e : Nat) → Nat
  | 0, _, _ => 1 % p
  | fuel + 1, b, e =>
    if e % 2 = 1 then b * powMod p fuel (b * b % p) (e / 2) % p else powMod p fuel (b * b % p) (e / 2)

/-- The modular inverter: `NoInverse` of 0, and otherwise the Fermat value `b ^ (p - 2) mod p`, an inverse for prime `p`
(R136). A modulus has 256 bits, so 256 is fuel enough. -/
def finv (p b : Nat) : Except Err Nat := if b = 0 then .error .noInverse else .ok (powMod p 256 b (p - 2))

/-- FPOW's loop: `e` multiplications by `a` (R146). -/
def fpowLoop (p a : Nat) : (e r : Nat) → Nat
  | 0, r => r
  | e + 1, r => fpowLoop p a e (fmul p r a)

/-- The power by a small exponent, "repeated multiplication" from `1 mod p` (R146). -/
def fpow (p a e : Nat) : Nat := fpowLoop p a e (1 % p)

/-- The Barrett reducer: the 512-bit value `{hi, lo}` modulo `p` (R147). -/
def fred (p hi lo : Nat) : Nat := (hi * 2 ^ 256 + lo) % p

end Sys2Proof.Machine
end

