-- ==== Sys2Proof/Machine/GroupLaw.lean ====
section
/-! DEFINITION. The group-law primitives on point values: affine and mixed affine-Jacobian adders, affine and Jacobian
doublers, conversions, equality (spec/42_point.md R173 to R181, R193; spec/00_scope.md R8). -/

namespace Sys2Proof.Machine

/-- An affine point value: the point at infinity or a pair (R8). -/
inductive AffPoint
  | inf
  | pt (x y : Nat)
  deriving DecidableEq, Repr

/-- A Jacobian point value: a triple (R8). -/
structure JacPoint where
  x : Nat
  y : Nat
  z : Nat
  deriving DecidableEq, Repr

/-- The Jacobian point at infinity, the triple `(1, 1, 0)` (R8, R25). -/
def jacInf : JacPoint := ⟨1, 1, 0⟩

/-- The affine point doubler (R178). -/
def affDbl (p a : Nat) : AffPoint → Except Err AffPoint
  | .inf => .ok .inf
  | .pt x y => do
    let num := fadd p (fmulSmall p 3 (fmul p x x)) a
    let den := fadd p y y
    let slope := fmul p num (← finv p den)
    let xR := fsub p (fmul p slope slope) (fadd p x x)
    let yR := fsub p (fmul p slope (fsub p x xR)) y
    return .pt xR yR

/-- The affine point adder, in the source's case order (R175). -/
def affAdd (p a : Nat) : (P Q : AffPoint) → Except Err AffPoint
  | .inf, Q => .ok Q
  | .pt xP yP, .inf => .ok (.pt xP yP)
  | .pt xP yP, .pt xQ yQ =>
    if xP = xQ ∧ yP = yQ then affDbl p a (.pt xP yP)
    else if xP = xQ ∧ fadd p yP yQ = 0 then .ok .inf
    else do
      let slope := fmul p (fsub p yQ yP) (← finv p (fsub p xQ xP))
      let xR := fsub p (fsub p (fmul p slope slope) xP) xQ
      let yR := fsub p (fmul p slope (fsub p xP xR)) yP
      return .pt xR yR

/-- The mixed affine-Jacobian point adder: preconditions, then the formula, whose `E = 0` is rejected (R176, R177). -/
def jacMAdd (p : Nat) (P Q : JacPoint) : Except Err JacPoint :=
  if P.z = 0 ∨ Q.z ≠ 1 then .error .mixedAddPrecondition
  else
    let A := fmul p P.z P.z
    let B := fmul p P.z A
    let C := fmul p Q.x A
    let D := fmul p Q.y B
    let E := fsub p C P.x
    let F := fsub p D P.y
    if E = 0 then .error .degenerateAdd
    else
      let G := fmul p E E
      let H := fmul p G E
      let I := fmul p P.x G
      let xR := fsub p (fsub p (fmul p F F) H) (fadd p I I)
      let yR := fsub p (fmul p F (fsub p I xR)) (fmul p P.y H)
      let zR := fmul p P.z E
      .ok ⟨xR, yR, zR⟩

/-- The Jacobian point doubler (R179). -/
def jacDbl (p a : Nat) (P : JacPoint) : Except Err JacPoint :=
  if P.y = 0 then .error .selfNegationDouble
  else
    let X2 := fmul p P.x P.x
    let Y2 := fmul p P.y P.y
    let Z2 := fmul p P.z P.z
    let D := fadd p (fmulSmall p 3 X2) (fmul p a (fmul p Z2 Z2))
    let S := fmul p P.x Y2
    let xR := fsub p (fmul p D D) (fmulSmall p 8 S)
    let yR := fsub p (fmul p D (fsub p (fmulSmall p 4 S) xR)) (fmulSmall p 8 (fmul p Y2 Y2))
    let zR := fmul p (fmulSmall p 2 P.y) P.z
    .ok ⟨xR, yR, zR⟩

/-- Conversion to Jacobian form (R180). -/
def toJac : AffPoint → JacPoint
  | .inf => jacInf
  | .pt x y => ⟨x, y, 1⟩

/-- Conversion to affine form (R181). -/
def toAff (p : Nat) (P : JacPoint) : Except Err AffPoint :=
  if P = jacInf then .ok .inf
  else if P.z = 1 then .ok (.pt P.x P.y)
  else do
    let zi ← finv p P.z
    let zi2 := fmul p zi zi
    let zi3 := fmul p zi2 zi
    return .pt (fmul p P.x zi2) (fmul p P.y zi3)

/-- Equality of two affine point values (R193). -/
def affEq (P Q : AffPoint) : Bool := P == Q

/-- Equality of two Jacobian point values: the raw triples (R193). -/
def jacEq (P Q : JacPoint) : Bool := P == Q

end Sys2Proof.Machine
end

