-- ==== Sys2Proof/Machine/Flags.lean ====
section
/-! DEFINITION. The error codes, and the control, status and META words as the bus sees them: which bit is which, which
bits a host write changes (spec/10_state.md R37, R38; spec/20_memory.md R76; spec/60_exceptions.md R281). -/

namespace Sys2Proof.Machine

/-- The 5-bit `STATUS.CODE` of an error kind (R281). -/
def Err.code : Err → BitVec 5
  | .fieldMismatch => 1
  | .curveMismatch => 2
  | .invalidFieldElement => 3
  | .noInverse => 4
  | .negativeExponentUnsupported => 5
  | .incompatibleRepresentations => 6
  | .alreadyInRepresentation => 7
  | .selfNegationDouble => 8
  | .negativeScalarUnsupported => 9
  | .tableDomainMismatch => 10
  | .unsupportedPointFormat => 11
  | .notImplemented => 12
  | .tableUnavailable => 13
  | .degenerateAdd => 14
  | .mixedAddPrecondition => 15
  | .illegalCommand => 16
  | .uninitializedOperand => 17
  | .invalidContext => 18

/-- `CODE` of a successful completion (R281, R285). -/
def codeOk : BitVec 5 := 0

/-- The word with one flag at bit `n` and 0 elsewhere. -/
def flagAt (n : Nat) (b : Bool) : Word := (BitVec.ofBool b).setWidth 32 <<< n

/-- The `CTRL` word as it reads; SRST and the reserved bits read 0 (R37). -/
def State.ctrlWord (s : State) : Word := flagAt 0 s.ie ||| flagAt 2 s.tvalid

/-- The `STATUS` word as it reads (R38). -/
def State.statusWord (s : State) : Word :=
  flagAt 0 s.busy ||| flagAt 1 s.done ||| flagAt 2 s.err ||| flagAt 3 s.eq ||| flagAt 4 s.ovf ||| s.code.setWidth 32 <<< 8

/-- A host write of `STATUS`: bits 1, 2 and 4 written 1 clear DONE, ERR and OVF; every other bit is ignored (R38, R79). -/
def State.writeStatus (s : State) (w : Word) : State :=
  { s with
    done := s.done && !w.getLsbD 1
    err := s.err && !w.getLsbD 2
    ovf := s.ovf && !w.getLsbD 4 }

/-- META bit 0: `V`, or a context's `VALID` (R76). -/
def metaV (w : Word) : Bool := w.getLsbD 0
/-- META bit 8 of an F or PT register: its tag (R76). -/
def metaTag (w : Word) : CReg := if w.getLsbD 8 then 1 else 0
/-- META bit 16 of a PT register: `REP` (R24, R76). -/
def metaRep (w : Word) : Rep := if w.getLsbD 16 then .jacobian else .affine
/-- META bit 17 of a PT register: `INF` (R76). -/
def metaInf (w : Word) : Bool := w.getLsbD 17

/-- A tag as its META bit. -/
def tagBit (t : CReg) : Bool := t == 1
/-- A representation as its META bit: 0 is affine, 1 is Jacobian (R24). -/
def repBit (r : Rep) : Bool := r == .jacobian

/-- The META word of an F register as it reads (R76). -/
def FieldReg.metaWord (r : FieldReg) : Word := flagAt 0 r.v ||| flagAt 8 (tagBit r.tag)
/-- The META word of a PT register as it reads (R76). -/
def PointReg.metaWord (r : PointReg) : Word :=
  flagAt 0 r.v ||| flagAt 8 (tagBit r.tag) ||| flagAt 16 (repBit r.rep) ||| flagAt 17 r.inf
/-- The META word of a K register as it reads (R76). -/
def ScalarReg.metaWord (r : ScalarReg) : Word := flagAt 0 r.v
/-- The META word of a context as it reads: `VALID` and the read-only `DOM` in bits 15:8 (R76). -/
def Context.metaWord (c : Context) : Word := flagAt 0 c.valid ||| c.dom.setWidth 32 <<< 8

end Sys2Proof.Machine
end

