-- ==== Sys2Proof/Machine/Ops.lean ====
section
/-! DEFINITION. The named operations over the registers: reading and writing each register file, the accepting and the
completing of a command (success and error: the block's one "exception" mechanism), and the two resets
(spec/00_scope.md R7; spec/10_state.md R39, R45; spec/60_exceptions.md R283, R285; spec/70_reset_and_hazards.md R320, R321). -/

namespace Sys2Proof.Machine

/-- The register file whose entry `i` is `g i`. -/
def fileOf {α : Type} (n : Nat) (g : Nat → α) : Vector α n := ⟨((List.range n).map g).toArray, by simp⟩

/-! ### Register access (R7) -/

/-- `F[i]`. -/
def State.readF (s : State) (i : FReg) : FieldReg := s.f.get i
/-- `F[i] <- r`. -/
def State.writeF (s : State) (i : FReg) (r : FieldReg) : State := { s with f := s.f.set i.val r i.isLt }
/-- `PT[i]`. -/
def State.readPt (s : State) (i : PReg) : PointReg := s.pt.get i
/-- `PT[i] <- r`. -/
def State.writePt (s : State) (i : PReg) (r : PointReg) : State := { s with pt := s.pt.set i.val r i.isLt }
/-- `K[i]`. -/
def State.readK (s : State) (i : KReg) : ScalarReg := s.k.get i
/-- `K[i] <- r`: by the host only (R27). -/
def State.writeK (s : State) (i : KReg) (r : ScalarReg) : State := { s with k := s.k.set i.val r i.isLt }
/-- `CTX[c]`. -/
def State.readCtx (s : State) (c : CReg) : Context := s.ctx.get c
/-- `CTX[c] <- r`. -/
def State.writeCtx (s : State) (c : CReg) (r : Context) : State := { s with ctx := s.ctx.set c.val r c.isLt }
/-- `TABLE[i]`. -/
def State.readTable (s : State) (i : Fin 256) : TableEntry := s.table.get i
/-- `TABLE[i] <- r`: by the host only (R33). -/
def State.writeTable (s : State) (i : Fin 256) (r : TableEntry) : State :=
  { s with table := s.table.set i.val r i.isLt }
/-- `WIRE[j]`. -/
def State.readWire (s : State) (j : Fin 65) : Byte := s.wire.get j
/-- `WIRE[j] <- b`. -/
def State.writeWire (s : State) (j : Fin 65) (b : Byte) : State := { s with wire := s.wire.set j.val b j.isLt }

/-- The modulus `CTX[c].P` as a number. -/
def State.modulus (s : State) (c : CReg) : Nat := (s.readCtx c).p.toNat
/-- The coefficient `CTX[c].A` as a number. -/
def State.coeffA (s : State) (c : CReg) : Nat := (s.readCtx c).a.toNat

/-- A command's write of `F[d]`: value and tag, and `V <- 1` (R7, R22). -/
def State.setField (s : State) (d : FReg) (val : Nat) (tag : CReg) : State :=
  s.writeF d { val := BitVec.ofNat 256 val, tag := tag, v := true }

/-! ### Words of a 256-bit value (R74) -/

/-- Word `j` of a value, bits `32j+31 : 32j`. -/
def valueWord (v : Value) (j : Fin 8) : Word := v.extractLsb' (32 * j.val) 32

/-- The value with word `j` replaced; "a write of one word changes only those 32 bits". -/
def setValueWord (v : Value) (j : Fin 8) (w : Word) : Value :=
  (v &&& ~~~((0xFFFFFFFF : Value) <<< (32 * j.val))) ||| (w.setWidth 256 <<< (32 * j.val))

/-! ### Acceptance and completion -/

/-- A host write of `CMD` while idle: "the word becomes the command in flight, `BUSY <- 1` and `DONE <- 0` in the same
access" (R39). -/
def State.accept (s : State) (w : Word) : State := { s with cmd := w, busy := true, done := false }

/-- Completion with success: CODE, BUSY and DONE; ERR and ERRCMD keep their values (R285). -/
def State.completeOk (s : State) : State := { s with code := codeOk, busy := false, done := true }

/-- Completion with an error, the block's one way to signal an exception: CODE, ERR, ERRCMD, BUSY and DONE, and nothing
else (R283, R308). -/
def State.completeErr (s : State) (e : Err) : State :=
  { s with code := e.code, err := true, errcmd := s.cmd, busy := false, done := true }

/-- One command's completion step: `r` is the state with the destination written, or the error the command raised. An
error discards every write (R280, R283, R284). -/
def State.finish (s : State) (r : Except Err State) : Host.Outcome State Fault Refusal :=
  match r with
  | .ok s' => .next s'.completeOk
  | .error e => .next (s.completeErr e)

/-! ### Resets -/

/-- The META word a draw yields for the register whose META word stands at this window offset. -/
def State.drawnMeta (s : State) (off : Nat) : Word := (Config.freeValue s off).setWidth 32

/-- Every F, PT, K, CTX and WIRE value unspecified and every valid bit and domain id 0: each value is a fresh free value,
drawn for the register's own window offset (R45, R321, U1, U2). -/
def State.drawRegisters (s : State) : State :=
  { s with
    f := fileOf 16 fun i =>
      { val := Config.freeValue s (0x400 + 0x40 * i)
        tag := metaTag (s.drawnMeta (0x420 + 0x40 * i))
        v := false }
    pt := fileOf 8 fun i =>
      { x := Config.freeValue s (0x800 + 0x80 * i)
        y := Config.freeValue s (0x820 + 0x80 * i)
        z := Config.freeValue s (0x840 + 0x80 * i)
        tag := metaTag (s.drawnMeta (0x860 + 0x80 * i))
        rep := metaRep (s.drawnMeta (0x860 + 0x80 * i))
        inf := metaInf (s.drawnMeta (0x860 + 0x80 * i))
        v := false }
    k := fileOf 4 fun i => { val := Config.freeValue s (0xC00 + 0x40 * i), v := false }
    ctx := fileOf 2 fun c =>
      { p := Config.freeValue s (0x100 + 0x100 * c)
        a := Config.freeValue s (0x120 + 0x100 * c)
        b := Config.freeValue s (0x140 + 0x100 * c)
        gx := Config.freeValue s (0x160 + 0x100 * c)
        gy := Config.freeValue s (0x180 + 0x100 * c)
        n := Config.freeValue s (0x1A0 + 0x100 * c)
        h := Config.freeValue s (0x1C0 + 0x100 * c)
        dom := 0
        valid := false }
    wire := fileOf 65 fun j => (Config.freeValue s (0xD00 + j)).setWidth 8
    draws := s.draws + 1 }

/-- `CTRL <- 0`, `STATUS <- 0`, `ERRCMD <- 0` and the CMD read value 0; no command is in flight (R45, R321). -/
def State.clearControl (s : State) : State :=
  { s with
    ie := false, tvalid := false
    busy := false, done := false, err := false, eq := false, ovf := false, code := 0
    cmd := 0, errcmd := 0 }

/-- The soft reset of `CTRL.SRST`: the command in flight is discarded, TABLE keeps its contents (R321). -/
def State.softReset (s : State) : State := s.drawRegisters.clearControl

/-- The hard reset: as the soft reset, and TABLE is unspecified as well (R45, R320). -/
def State.hardReset (s : State) : State :=
  { s.softReset with
    table := fileOf 256 fun i =>
      { x := Config.freeValue s (0x4000 + 0x40 * i), y := Config.freeValue s (0x4020 + 0x40 * i) } }

end Sys2Proof.Machine
end

