-- ==== Sys2Proof/Machine/Operands.lean ====
section
/-! DEFINITION. The operand forms of the commands: the checks by class, in the spec's order, and what each kind of
operand reads as (spec/41_field.md R130 to R132; spec/42_point.md R170 to R174, R183; spec/43_scalar.md R224, R226, R227;
spec/60_exceptions.md R282). -/

namespace Sys2Proof.Machine

/-- A check: go on, or end the command with this error (R7: `raise Err(<code name>)`). -/
def ensure (holds : Bool) (e : Err) : Except Err Unit := if holds then .ok () else .error e

/-- `CheckV` (R130, R170). -/
def checkV (v : Bool) : Except Err Unit := ensure v .uninitializedOperand

/-- A usable context: `VALID = 1`, `P >= 2` and `A < P` (R30). -/
def Context.usable (c : Context) : Bool := c.valid && decide (2 ≤ c.p.toNat) && decide (c.a.toNat < c.p.toNat)

/-- `CheckCtx` (R30, R130). -/
def State.checkCtx (s : State) (c : CReg) : Except Err Unit := ensure (s.readCtx c).usable .invalidContext

/-- `CheckVal`: a field value is below its modulus (R131). -/
def checkVal (x p : Nat) : Except Err Unit := ensure (decide (x < p)) .invalidFieldElement

/-! ### Field operands -/

/-- The operands of a field command: the modulus, two values and the tag of the result. -/
structure FieldOperands where
  p : Nat
  a : Nat
  b : Nat
  tag : CReg
  deriving DecidableEq, Repr

/-- The checks and the read of a binary field command's operands (R140, R132). -/
def State.fieldPair (s : State) (a b : FReg) : Except Err FieldOperands := do
  checkV (s.readF a).v
  checkV (s.readF b).v
  s.checkCtx (s.readF a).tag
  s.checkCtx (s.readF b).tag
  let p := s.modulus (s.readF a).tag
  ensure (s.modulus (s.readF b).tag == p) .fieldMismatch
  checkVal (s.readF a).val.toNat p
  checkVal (s.readF b).val.toNat p
  return { p := p, a := (s.readF a).val.toNat, b := (s.readF b).val.toNat, tag := (s.readF a).tag }

/-- The checks and the read of a unary field command's operand; `b` is unused, 0 (R143). -/
def State.fieldSingle (s : State) (a : FReg) : Except Err FieldOperands := do
  checkV (s.readF a).v
  s.checkCtx (s.readF a).tag
  let p := s.modulus (s.readF a).tag
  checkVal (s.readF a).val.toNat p
  return { p := p, a := (s.readF a).val.toNat, b := 0, tag := (s.readF a).tag }

/-! ### Point operands -/

/-- `PtVal` of an affine register (R25, R183). -/
def PointReg.affVal (r : PointReg) : AffPoint := if r.inf then .inf else .pt r.x.toNat r.y.toNat

/-- `PtVal` of a Jacobian register (R25, R183). -/
def PointReg.jacVal (r : PointReg) : JacPoint := ⟨r.x.toNat, r.y.toNat, r.z.toNat⟩

/-- `IsInf` of a register: the INF bit of an affine one, the raw triple `(1, 1, 0)` of a Jacobian one (R173). -/
def PointReg.isInf (r : PointReg) : Bool :=
  match r.rep with
  | .affine => r.inf
  | .jacobian => r.jacVal == jacInf

/-- `CheckPt`: every coordinate the register's value has is below its modulus (R171). -/
def State.checkPt (s : State) (r : PointReg) : Except Err Unit :=
  let p := s.modulus r.tag
  match r.rep with
  | .affine => if r.inf then .ok () else do checkVal r.x.toNat p; checkVal r.y.toNat p
  | .jacobian => do checkVal r.x.toNat p; checkVal r.y.toNat p; checkVal r.z.toNat p

/-- `CurveEq`: the same slot, the same non-zero domain, or equal parameters (R172). -/
def State.curveEq (s : State) (c1 c2 : CReg) : Bool :=
  let k1 := s.readCtx c1
  let k2 := s.readCtx c2
  c1 == c2
  || (k1.dom != 0 && k1.dom == k2.dom)
  || (k1.p == k2.p && k1.a == k2.a && k1.b == k2.b && k1.gx == k2.gx && k1.gy == k2.gy && k1.n == k2.n && k1.h == k2.h)

/-- The checks of one point operand before its representation is looked at (R170). -/
def State.checkPoint (s : State) (r : PointReg) : Except Err Unit := do
  checkV r.v
  s.checkCtx r.tag

/-- All the checks of a two-operand point command (R194, R195). -/
def State.checkPointPair (s : State) (r q : PointReg) : Except Err Unit := do
  checkV r.v
  checkV q.v
  s.checkCtx r.tag
  s.checkCtx q.tag
  ensure (s.curveEq r.tag q.tag) .curveMismatch
  ensure (r.rep == q.rep) .incompatibleRepresentations
  s.checkPt r
  s.checkPt q

/-- `WriteAff`: an affine value into `PT[d]`, unused coordinates 0, `V <- 1` (R183). -/
def State.writeAff (s : State) (d : PReg) (P : AffPoint) (tag : CReg) : State :=
  match P with
  | .inf => s.writePt d { x := 0, y := 0, z := 0, tag := tag, rep := .affine, inf := true, v := true }
  | .pt x y =>
    s.writePt d
      { x := BitVec.ofNat 256 x, y := BitVec.ofNat 256 y, z := 0, tag := tag, rep := .affine, inf := false, v := true }

/-- `WriteJac`: a Jacobian value into `PT[d]`, `V <- 1` (R183). -/
def State.writeJac (s : State) (d : PReg) (P : JacPoint) (tag : CReg) : State :=
  s.writePt d
    { x := BitVec.ofNat 256 P.x, y := BitVec.ofNat 256 P.y, z := BitVec.ofNat 256 P.z, tag := tag, rep := .jacobian
      inf := false, v := true }

/-! ### Scalar multiplication operands -/

/-- The operands of SMUL and SMULG: the scalar, the affine point and its context. -/
structure ScalarOperands where
  k : Nat
  P : AffPoint
  c : CReg
  deriving DecidableEq, Repr

/-- The checks and the read of SMUL's and SMULG's operands (R226, R227). -/
def State.scalarOperands (s : State) (k : KReg) (a : PReg) : Except Err ScalarOperands := do
  checkV (s.readK k).v
  checkV (s.readPt a).v
  s.checkCtx (s.readPt a).tag
  ensure ((s.readPt a).rep == .affine) .incompatibleRepresentations
  s.checkPt (s.readPt a)
  return { k := (s.readK k).val.toNat, P := (s.readPt a).affVal, c := (s.readPt a).tag }

/-- `IsG`: the context was loaded from the secp256k1 domain, and the point is its generator (R224). -/
def State.isG (s : State) (P : AffPoint) (c : CReg) : Bool :=
  (s.readCtx c).dom == Config.secp256k1Id && P == .pt (s.readCtx c).gx.toNat (s.readCtx c).gy.toNat

end Sys2Proof.Machine
end

