-- ==== Sys2Proof/Machine/Window.lean ====
section
/-! DEFINITION. The register window, the block's only address space: what stands at each offset, what a read returns and
what a write does (spec/20_memory.md R70 to R81, R85). -/

namespace Sys2Proof.Machine

/-- The 256-bit values of a context, in the order of their offsets (R73). -/
inductive CtxField
  | p | a | b | gx | gy | n | h
  deriving DecidableEq, Repr

/-- The coordinates of a point register, in the order of their offsets (R73). -/
inductive Coord
  | x | y | z
  deriving DecidableEq, Repr

/-- The word that stands at an offset (R73). `j` is the word of a 256-bit value (R74). -/
inductive Loc
  | id
  | ctrl
  | status
  | cmd
  | errcmd
  | ctxVal (c : CReg) (fld : CtxField) (j : Fin 8)
  | ctxMeta (c : CReg)
  | fVal (i : FReg) (j : Fin 8)
  | fMeta (i : FReg)
  | ptVal (i : PReg) (co : Coord) (j : Fin 8)
  | ptMeta (i : PReg)
  | kVal (i : KReg) (j : Fin 8)
  | kMeta (i : KReg)
  | wire (m : Fin 17)
  | tableX (i : Fin 256) (j : Fin 8)
  | tableY (i : Fin 256) (j : Fin 8)
  | reserved
  deriving DecidableEq, Repr

/-- The value of a context by its place in the block: `P` +0x00, `A` +0x20, ..., `H` +0xC0 (R73). -/
def ctxFieldAt (n : Nat) : CtxField :=
  match n with
  | 0 => .p
  | 1 => .a
  | 2 => .b
  | 3 => .gx
  | 4 => .gy
  | 5 => .n
  | _ => .h

/-- The coordinate of a point register by its place in the block: `X` +0x00, `Y` +0x20, `Z` +0x40 (R73). -/
def coordAt (n : Nat) : Coord :=
  match n with
  | 0 => .x
  | 1 => .y
  | _ => .z

/-- Word `r / 4` of a 256-bit value, for a byte offset `r` inside it (R74). -/
def wordIndex (r : Nat) : Fin 8 := Fin.ofNat 8 (r % 0x20 / 4)

/-- The address map (R73), for an offset that is a multiple of 4. -/
def locate (off : Offset) : Loc :=
  let o := off.toNat
  if o < 0x14 then
    match o / 4 with
    | 0 => .id
    | 1 => .ctrl
    | 2 => .status
    | 3 => .cmd
    | _ => .errcmd
  else if o < 0x100 then .reserved
  else if o < 0x300 then
    let c := Fin.ofNat 2 ((o - 0x100) / 0x100)
    let r := (o - 0x100) % 0x100
    if r < 0xE0 then .ctxVal c (ctxFieldAt (r / 0x20)) (wordIndex r)
    else if r = 0xE0 then .ctxMeta c
    else .reserved
  else if o < 0x400 then .reserved
  else if o < 0x800 then
    let i := Fin.ofNat 16 ((o - 0x400) / 0x40)
    let r := (o - 0x400) % 0x40
    if r < 0x20 then .fVal i (wordIndex r) else if r = 0x20 then .fMeta i else .reserved
  else if o < 0xC00 then
    let i := Fin.ofNat 8 ((o - 0x800) / 0x80)
    let r := (o - 0x800) % 0x80
    if r < 0x60 then .ptVal i (coordAt (r / 0x20)) (wordIndex r) else if r = 0x60 then .ptMeta i else .reserved
  else if o < 0xD00 then
    let i := Fin.ofNat 4 ((o - 0xC00) / 0x40)
    let r := (o - 0xC00) % 0x40
    if r < 0x20 then .kVal i (wordIndex r) else if r = 0x20 then .kMeta i else .reserved
  else if o < 0xD44 then .wire (Fin.ofNat 17 ((o - 0xD00) / 4))
  else if o < 0x4000 then .reserved
  else
    let i := Fin.ofNat 256 ((o - 0x4000) / 0x40)
    let r := (o - 0x4000) % 0x40
    if r < 0x20 then .tableX i (wordIndex r) else .tableY i (wordIndex r)

/-- A data location: CTX, F, PT, K, WIRE, TABLE and META words (R79, R80). A reserved offset is none. -/
def Loc.isData : Loc → Bool
  | .id | .ctrl | .status | .cmd | .errcmd | .reserved => false
  | .ctxVal _ _ _ | .ctxMeta _ | .fVal _ _ | .fMeta _ | .ptVal _ _ _ | .ptMeta _ | .kVal _ _ | .kMeta _ | .wire _
  | .tableX _ _ | .tableY _ _ => true

/-- A context's value by name. -/
def Context.field (c : Context) : CtxField → Value
  | .p => c.p
  | .a => c.a
  | .b => c.b
  | .gx => c.gx
  | .gy => c.gy
  | .n => c.n
  | .h => c.h

/-- The context with one value replaced. -/
def Context.withField (c : Context) (fld : CtxField) (v : Value) : Context :=
  match fld with
  | .p => { c with p := v }
  | .a => { c with a := v }
  | .b => { c with b := v }
  | .gx => { c with gx := v }
  | .gy => { c with gy := v }
  | .n => { c with n := v }
  | .h => { c with h := v }

/-- A point register's coordinate by name. -/
def PointReg.coord (r : PointReg) : Coord → Value
  | .x => r.x
  | .y => r.y
  | .z => r.z

/-- The point register with one coordinate replaced. -/
def PointReg.withCoord (r : PointReg) (co : Coord) (v : Value) : PointReg :=
  match co with
  | .x => { r with x := v }
  | .y => { r with y := v }
  | .z => { r with z := v }

/-- `WIRE[j]`, or 0 for the bytes of the last word that do not exist (R75). -/
def State.wireByte (s : State) (j : Nat) : Byte := if h : j < 65 then s.readWire ⟨j, h⟩ else 0

/-- `WIRE[j] <- b`; the bytes that do not exist ignore writes (R75). -/
def State.setWireByte (s : State) (j : Nat) (b : Byte) : State := if h : j < 65 then s.writeWire ⟨j, h⟩ b else s

/-- WIRE word `m`: byte `4m` in bits 7:0 up to byte `4m+3` in bits 31:24 (R75, R85). -/
def State.wireWord (s : State) (m : Fin 17) : Word :=
  s.wireByte (4 * m.val + 3) ++ s.wireByte (4 * m.val + 2) ++ s.wireByte (4 * m.val + 1) ++ s.wireByte (4 * m.val)

/-- A host write of WIRE word `m` (R75). -/
def State.writeWireWord (s : State) (m : Fin 17) (w : Word) : State :=
  (((s.setWireByte (4 * m.val) (w.extractLsb' 0 8)).setWireByte (4 * m.val + 1) (w.extractLsb' 8 8)).setWireByte
    (4 * m.val + 2) (w.extractLsb' 16 8)).setWireByte (4 * m.val + 3) (w.extractLsb' 24 8)

/-- The word a location holds, as a read of an idle block returns it (R73 to R77). -/
def State.readLoc (s : State) : Loc → Word
  | .id => Config.idValue
  | .ctrl => s.ctrlWord
  | .status => s.statusWord
  | .cmd => s.cmd
  | .errcmd => s.errcmd
  | .ctxVal c fld j => valueWord ((s.readCtx c).field fld) j
  | .ctxMeta c => (s.readCtx c).metaWord
  | .fVal i j => valueWord (s.readF i).val j
  | .fMeta i => (s.readF i).metaWord
  | .ptVal i co j => valueWord ((s.readPt i).coord co) j
  | .ptMeta i => (s.readPt i).metaWord
  | .kVal i j => valueWord (s.readK i).val j
  | .kMeta i => (s.readK i).metaWord
  | .wire m => s.wireWord m
  | .tableX i j => valueWord (s.readTable i).x j
  | .tableY i j => valueWord (s.readTable i).y j
  | .reserved => 0

/-- A host write to a context value word: the word, and `DOM <- 0` (R29, R79). -/
def State.writeCtxWord (s : State) (c : CReg) (fld : CtxField) (j : Fin 8) (w : Word) : State :=
  let old := s.readCtx c
  s.writeCtx c { old.withField fld (setValueWord (old.field fld) j w) with dom := 0 }

/-- A host write to a data location of an idle block. A value word changes its 32 bits and no valid bit; a META word
changes only its RW bits (R74 to R77). What is no data location is not written here. -/
def State.writeData (s : State) (loc : Loc) (w : Word) : State :=
  match loc with
  | .ctxVal c fld j => s.writeCtxWord c fld j w
  | .ctxMeta c => s.writeCtx c { s.readCtx c with valid := metaV w }
  | .fVal i j => s.writeF i { s.readF i with val := setValueWord (s.readF i).val j w }
  | .fMeta i => s.writeF i { s.readF i with v := metaV w, tag := metaTag w }
  | .ptVal i co j => s.writePt i ((s.readPt i).withCoord co (setValueWord ((s.readPt i).coord co) j w))
  | .ptMeta i => s.writePt i { s.readPt i with v := metaV w, tag := metaTag w, rep := metaRep w, inf := metaInf w }
  | .kVal i j => s.writeK i { s.readK i with val := setValueWord (s.readK i).val j w }
  | .kMeta i => s.writeK i { s.readK i with v := metaV w }
  | .wire m => s.writeWireWord m w
  | .tableX i j => s.writeTable i { s.readTable i with x := setValueWord (s.readTable i).x j w }
  | .tableY i j => s.writeTable i { s.readTable i with y := setValueWord (s.readTable i).y j w }
  | .id | .ctrl | .status | .cmd | .errcmd | .reserved => s

/-- A host write of `CTRL`: SRST acts first and alone; else IE is written, and TVALID only while idle (R37, R321, R334). -/
def State.writeCtrl (s : State) (w : Word) : State :=
  if w.getLsbD 1 then s.softReset
  else { s with ie := w.getLsbD 0, tvalid := if s.busy then s.tvalid else w.getLsbD 2 }

/-- A host write of `CMD`: accepted while idle, dropped with `OVF` while busy (R39, R80). -/
def State.writeCmd (s : State) (w : Word) : State := if s.busy then { s with ovf := true } else s.accept w

/-- The state after a host write of one word (R72, R77, R79, R80). -/
def State.writeLoc (s : State) (loc : Loc) (w : Word) : State :=
  match loc with
  | .ctrl => s.writeCtrl w
  | .status => s.writeStatus w
  | .cmd => s.writeCmd w
  | .id | .errcmd | .reserved => s
  | .ctxVal _ _ _ | .ctxMeta _ | .fVal _ _ | .fMeta _ | .ptVal _ _ _ | .ptMeta _ | .kVal _ _ | .kMeta _ | .wire _
  | .tableX _ _ | .tableY _ _ => if s.busy then { s with ovf := true } else s.writeData loc w

/-- The offset is a multiple of 4, the only alignment defined (R71). -/
def aligned (off : Offset) : Bool := off.toNat % 4 == 0

/-- `MemRead(off, 4)` with its result on the bus: a data location of a busy block returns an unspecified word, a fresh
free value; every other read returns the word that stands there. Nothing of the block changes (R72, R78, R81).
DESIGN CHOICE (log entry 21): the reserved bits of a META word and of the WIRE word at 0x0D40 are free too in a busy read.
R77 says that a reserved bit reads 0, R81 that a busy read of a data location is unspecified; the spec does not say which
of the two holds there. -/
def hostRead (off : Offset) (s : State) : Host.Outcome State Fault Refusal :=
  if !aligned off then .refused .undefinedAccess
  else if s.busy && (locate off).isData then
    .next { s with rdata := (Config.freeValue s off.toNat).setWidth 32, draws := s.draws + 1 }
  else .next { s with rdata := s.readLoc (locate off) }

/-- `MemWrite(off, 4, w)` (R72, R79, R80). -/
def hostWrite (off : Offset) (w : Word) (s : State) : Host.Outcome State Fault Refusal :=
  if !aligned off then .refused .undefinedAccess else .next (s.writeLoc (locate off) w)

/-- The byte of the window at an offset, as the word around it reads when idle: byte `4m + k` is bits `8k+7 : 8k` of the
word at `4m` (R85). -/
def State.byteAt (s : State) (off : Offset) : Byte :=
  (s.readLoc (locate (BitVec.ofNat 15 (off.toNat / 4 * 4)))).extractLsb' (8 * (off.toNat % 4)) 8

end Sys2Proof.Machine
end

