-- ==== Sys2Proof/Machine/ContextIo.lean ====
section
/-! DEFINITION. NOP, the context loader and the uncompressed-point codec (spec/44_context_io.md R250 to R253). -/

namespace Sys2Proof.Machine

/-- NOP: completes with CODE 0 (R250). -/
def execNop (s : State) : Host.Outcome State Fault Refusal := s.finish (.ok s)

/-- The context a domain loads: every value, its id, and `VALID` (R251). -/
def contextOf (dom : Config.Domain) (domId : Byte) : Context where
  p := dom.p
  a := dom.a
  b := dom.b
  gx := dom.gx
  gy := dom.gy
  n := dom.n
  h := dom.h
  dom := domId
  valid := true

/-- CTXLD: the context is written without being read; the only domain id is 1 (R251). -/
def execCtxld (c : CReg) (dom : Byte) (s : State) : Host.Outcome State Fault Refusal :=
  s.finish do
    ensure (dom == Config.secp256k1Id) .invalidContext
    return s.writeCtx c (contextOf Config.secp256k1 Config.secp256k1Id)

/-- The wire tag byte of an uncompressed point (R35, R252). -/
def uncompressedTag : Byte := 0x04

/-- The big-endian 256-bit value of the 32 wire bytes from `start` (R252). -/
def State.wireValue (s : State) (start : Nat) : Nat :=
  ((List.range 32).map fun j => (s.wireByte (start + j)).toNat * 2 ^ (8 * (31 - j))).sum

/-- PDEC (R252). -/
def execPdec (d : PReg) (c : CReg) (s : State) : Host.Outcome State Fault Refusal :=
  s.finish do
    s.checkCtx c
    let p := s.modulus c
    ensure (s.wireByte 0 == uncompressedTag) .unsupportedPointFormat
    checkVal (s.wireValue 1) p
    checkVal (s.wireValue 33) p
    return s.writeAff d (.pt (s.wireValue 1) (s.wireValue 33)) c

/-- Byte `j` of a coordinate in wire order, most significant first: bits `8(31-j)+7 : 8(31-j)` (R253). -/
def coordByte (v : Value) (j : Nat) : Byte := v.extractLsb' (8 * (31 - j)) 8

/-- The 65 wire bytes of a finite affine point: the tag, X, Y (R35, R253). -/
def wireOf (x y : Value) : Vector Byte 65 :=
  fileOf 65 fun j =>
    if j = 0 then uncompressedTag else if j < 33 then coordByte x (j - 1) else coordByte y (j - 33)

/-- PENC: the Jacobian point and the point at infinity have no encoding (R253). -/
def execPenc (a : PReg) (s : State) : Host.Outcome State Fault Refusal :=
  s.finish do
    let r := s.readPt a
    s.checkPoint r
    ensure (r.rep == .affine) .incompatibleRepresentations
    ensure (!r.inf) .unsupportedPointFormat
    s.checkPt r
    return { s with wire := wireOf r.x r.y }

end Sys2Proof.Machine
end

