-- ==== Sys2Proof/Machine/Field.lean ====
section
/-! DEFINITION. The field commands FADD, FSUB, FMUL, FNEG, FINV, FDIV, FPOW, FRED (spec/41_field.md R140 to R147). -/

namespace Sys2Proof.Machine

/-- FADD (R140). -/
def execFadd (d a b : FReg) (s : State) : Host.Outcome State Fault Refusal :=
  s.finish do
    let o ← s.fieldPair a b
    return s.setField d (fadd o.p o.a o.b) o.tag

/-- FSUB (R141). -/
def execFsub (d a b : FReg) (s : State) : Host.Outcome State Fault Refusal :=
  s.finish do
    let o ← s.fieldPair a b
    return s.setField d (fsub o.p o.a o.b) o.tag

/-- FMUL (R142). -/
def execFmul (d a b : FReg) (s : State) : Host.Outcome State Fault Refusal :=
  s.finish do
    let o ← s.fieldPair a b
    return s.setField d (fmul o.p o.a o.b) o.tag

/-- FNEG (R143). -/
def execFneg (d a : FReg) (s : State) : Host.Outcome State Fault Refusal :=
  s.finish do
    let o ← s.fieldSingle a
    return s.setField d (fsub o.p 0 o.a) o.tag

/-- FINV (R144). -/
def execFinv (d a : FReg) (s : State) : Host.Outcome State Fault Refusal :=
  s.finish do
    let o ← s.fieldSingle a
    return s.setField d (← finv o.p o.a) o.tag

/-- FDIV (R145). -/
def execFdiv (d a b : FReg) (s : State) : Host.Outcome State Fault Refusal :=
  s.finish do
    let o ← s.fieldPair a b
    return s.setField d (fmul o.p o.a (← finv o.p o.b)) o.tag

/-- FPOW: the exponent `sext_8(IMM)` is checked before the operand is read (R146, R282). -/
def execFpow (d a : FReg) (imm : Byte) (s : State) : Host.Outcome State Fault Refusal :=
  s.finish do
    ensure (decide (0 ≤ imm.toInt)) .negativeExponentUnsupported
    let o ← s.fieldSingle a
    return s.setField d (fpow o.p o.a imm.toInt.toNat) o.tag

/-- FRED (R147). -/
def execFred (d : FReg) (hi lo : KReg) (c : CReg) (s : State) : Host.Outcome State Fault Refusal :=
  s.finish do
    checkV (s.readK hi).v
    checkV (s.readK lo).v
    s.checkCtx c
    return s.setField d (fred (s.modulus c) (s.readK hi).val.toNat (s.readK lo).val.toNat) c

end Sys2Proof.Machine
end

