-- ==== Sys2Proof/Machine/Point.lean ====
section
/-! DEFINITION. The point commands PINF, PMAKE, PNEG, PEQ, PADD, PDBL, PTOJ, PTOA (spec/42_point.md R190 to R198). -/

namespace Sys2Proof.Machine

/-- PINF (R190). -/
def execPinf (d : PReg) (c : CReg) (s : State) : Host.Outcome State Fault Refusal :=
  s.finish do
    s.checkCtx c
    return s.writeAff d .inf c

/-- PMAKE (R191). -/
def execPmake (d : PReg) (x y : FReg) (c : CReg) (s : State) : Host.Outcome State Fault Refusal :=
  s.finish do
    checkV (s.readF x).v
    checkV (s.readF y).v
    s.checkCtx (s.readF x).tag
    s.checkCtx (s.readF y).tag
    s.checkCtx c
    let p := s.modulus c
    ensure (s.modulus (s.readF x).tag == p && s.modulus (s.readF y).tag == p) .fieldMismatch
    checkVal (s.readF x).val.toNat p
    checkVal (s.readF y).val.toNat p
    return s.writeAff d (.pt (s.readF x).val.toNat (s.readF y).val.toNat) c

/-- The negative of an affine point value (R192). -/
def affNeg (p : Nat) : AffPoint → AffPoint
  | .inf => .inf
  | .pt x y => .pt x (fsub p 0 y)

/-- PNEG; of a Jacobian point it is NotImplemented (R192). -/
def execPneg (d a : PReg) (s : State) : Host.Outcome State Fault Refusal :=
  s.finish do
    let r := s.readPt a
    s.checkPoint r
    ensure (r.rep == .affine) .notImplemented
    s.checkPt r
    return s.writeAff d (affNeg (s.modulus r.tag) r.affVal) r.tag

/-- `PtEq` of two registers of the same representation (R193). -/
def ptEq (r q : PointReg) : Bool :=
  match r.rep with
  | .affine => affEq r.affVal q.affVal
  | .jacobian => jacEq r.jacVal q.jacVal

/-- PEQ: the only command that writes `STATUS.EQ` (R42, R194). -/
def execPeq (a b : PReg) (s : State) : Host.Outcome State Fault Refusal :=
  s.finish do
    s.checkPointPair (s.readPt a) (s.readPt b)
    return { s with eq := ptEq (s.readPt a) (s.readPt b) }

/-- PADD, dispatched on the representation of its operands (R108, R195). -/
def execPadd (d a b : PReg) (s : State) : Host.Outcome State Fault Refusal :=
  s.finish do
    let r := s.readPt a
    let q := s.readPt b
    s.checkPointPair r q
    match r.rep with
    | .affine => return s.writeAff d (← affAdd (s.modulus r.tag) (s.coeffA r.tag) r.affVal q.affVal) r.tag
    | .jacobian => return s.writeJac d (← jacMAdd (s.modulus r.tag) r.jacVal q.jacVal) r.tag

/-- PDBL, dispatched on the representation of its operand (R108, R196). -/
def execPdbl (d a : PReg) (s : State) : Host.Outcome State Fault Refusal :=
  s.finish do
    let r := s.readPt a
    s.checkPoint r
    s.checkPt r
    match r.rep with
    | .affine => return s.writeAff d (← affDbl (s.modulus r.tag) (s.coeffA r.tag) r.affVal) r.tag
    | .jacobian => return s.writeJac d (← jacDbl (s.modulus r.tag) (s.coeffA r.tag) r.jacVal) r.tag

/-- PTOJ (R197). -/
def execPtoj (d a : PReg) (s : State) : Host.Outcome State Fault Refusal :=
  s.finish do
    let r := s.readPt a
    s.checkPoint r
    ensure (r.rep == .affine) .alreadyInRepresentation
    s.checkPt r
    return s.writeJac d (toJac r.affVal) r.tag

/-- PTOA (R198). -/
def execPtoa (d a : PReg) (s : State) : Host.Outcome State Fault Refusal :=
  s.finish do
    let r := s.readPt a
    s.checkPoint r
    ensure (r.rep == .jacobian) .alreadyInRepresentation
    s.checkPt r
    return s.writeAff d (← toAff (s.modulus r.tag) r.jacVal) r.tag

end Sys2Proof.Machine
end

