-- ==== Sys2Proof/Machine/Scalar.lean ====
section
/-! DEFINITION. Scalar multiplication: the routed operations, the general double-and-add path, the generator-table path,
and the commands SMUL and SMULG (spec/43_scalar.md R220 to R228). The bit order is the spec's, which 90_conflicts.md C2
and C3 settle: least significant bit first, `TABLE[i]` with the bit of weight `2^i`. -/

namespace Sys2Proof.Machine

/-- The routed affine doubling: a point of order 2 doubles to infinity (R220). -/
def routedDbl (p a : Nat) : AffPoint → Except Err AffPoint
  | .inf => .ok .inf
  | .pt x y => if fadd p y y = 0 then .ok .inf else affDbl p a (.pt x y)

/-- The routed mixed addition of an affine point into the Jacobian tally (R221). -/
def routedAdd (p a : Nat) (T : JacPoint) (P : AffPoint) : Except Err JacPoint :=
  match P with
  | .inf => .ok T
  | .pt x2 y2 =>
    if T = jacInf then .ok (toJac (.pt x2 y2))
    else if T.z = 0 then .error .mixedAddPrecondition
    else
      let A := fmul p T.z T.z
      let B := fmul p T.z A
      let E := fsub p (fmul p x2 A) T.x
      let F := fsub p (fmul p y2 B) T.y
      if E = 0 ∧ F = 0 then do return toJac (← routedDbl p a (.pt x2 y2))
      else if E = 0 then .ok jacInf
      else jacMAdd p T (toJac (.pt x2 y2))

/-- The number of bits of `k` up to its highest set bit; `bitlen(0) = 0` (R6). -/
def bitlen (k : Nat) : Nat := if k = 0 then 0 else Nat.log2 k + 1

/-- The addition of one iteration of the general path: "if that bit is set, tally = … mixed-add(tally, increment)"
(R222). -/
def tallyStep (p a k i : Nat) (T : JacPoint) (I : AffPoint) : Except Err JacPoint :=
  if k.testBit i then routedAdd p a T I else .ok T

/-- The doubling of one iteration of the general path. The increment is not doubled after the top bit, the one after
which no bit is `left` (R222). -/
def incrementStep (p a left : Nat) (I : AffPoint) : Except Err AffPoint := if left = 0 then .ok I else routedDbl p a I

/-- The general path's loop over the bits `i, i + 1, ...` of `k`, of which `left` remain (R222). -/
def smulLoop (p a k : Nat) : (left i : Nat) → (T : JacPoint) → (I : AffPoint) → Except Err JacPoint
  | 0, _, T, _ => .ok T
  | left + 1, i, T, I => do
    let T' ← tallyStep p a k i T I
    let I' ← incrementStep p a left I
    smulLoop p a k left (i + 1) T' I'

/-- The general path, binary double-and-add from the least significant bit (R222). -/
def smulGeneral (p a k : Nat) (P : AffPoint) : Except Err AffPoint := do
  let T ← smulLoop p a k (bitlen k) 0 jacInf P
  toAff p T

/-- One iteration of the fast path: an entry whose bit of `k` is set is checked and added (R223). -/
def tableStep (p a k i : Nat) (e : TableEntry) (T : JacPoint) : Except Err JacPoint :=
  if k.testBit i then do
    checkVal e.x.toNat p
    checkVal e.y.toNat p
    routedAdd p a T (.pt e.x.toNat e.y.toNat)
  else .ok T

/-- The fast path's loop over the table entries `i, i + 1, ...`, of which `left` remain (R223). -/
def smulTableLoop (p a k : Nat) (entry : Nat → TableEntry) : (left i : Nat) → (T : JacPoint) → Except Err JacPoint
  | 0, _, T => .ok T
  | left + 1, i, T => do
    let T' ← tableStep p a k i (entry i) T
    smulTableLoop p a k entry left (i + 1) T'

/-- The generator-table path over the 256 entries of the machine's table (R223). -/
def State.smulTable (s : State) (k : Nat) (c : CReg) : Except Err AffPoint := do
  let T ← smulTableLoop (s.modulus c) (s.coeffA c) k (fun i => s.readTable (Fin.ofNat 256 i)) 256 0 jacInf
  toAff (s.modulus c) T

/-- SMUL's choice of path (R226). -/
def State.smulResult (s : State) (o : ScalarOperands) : Except Err AffPoint :=
  if o.k = 0 then .ok .inf
  else if o.P = .inf then .ok .inf
  else if o.k = 2 then routedDbl (s.modulus o.c) (s.coeffA o.c) o.P
  else if s.isG o.P o.c then do
    ensure s.tvalid .tableUnavailable
    s.smulTable o.k o.c
  else smulGeneral (s.modulus o.c) (s.coeffA o.c) o.k o.P

/-- SMUL (R226). -/
def execSmul (d : PReg) (k : KReg) (a : PReg) (s : State) : Host.Outcome State Fault Refusal :=
  s.finish do
    let o ← s.scalarOperands k a
    return s.writeAff d (← s.smulResult o) o.c

/-- SMULG's result: infinity for `k = 0`, the table path otherwise (R227). -/
def State.smulgResult (s : State) (o : ScalarOperands) : Except Err AffPoint :=
  if o.k = 0 then .ok .inf else s.smulTable o.k o.c

/-- SMULG: the point must be the generator of a context loaded by CTXLD (R227). -/
def execSmulg (d : PReg) (k : KReg) (a : PReg) (s : State) : Host.Outcome State Fault Refusal :=
  s.finish do
    let o ← s.scalarOperands k a
    ensure (s.isG o.P o.c) .tableDomainMismatch
    ensure s.tvalid .tableUnavailable
    return s.writeAff d (← s.smulgResult o) o.c

end Sys2Proof.Machine
end

