-- ==== Sys2Proof/Machine/Dispatch.lean ====
section
/-! DEFINITION. One arm per command: its completion step (spec/30_encoding.md R106). -/

namespace Sys2Proof.Machine

def exec (i : Instr) (s : State) : Host.Outcome State Fault Refusal :=
  match i with
  | .nop => Sys2Proof.Machine.execNop s
  | .fadd d a b => Sys2Proof.Machine.execFadd d a b s
  | .fsub d a b => Sys2Proof.Machine.execFsub d a b s
  | .fmul d a b => Sys2Proof.Machine.execFmul d a b s
  | .fneg d a => Sys2Proof.Machine.execFneg d a s
  | .finv d a => Sys2Proof.Machine.execFinv d a s
  | .fdiv d a b => Sys2Proof.Machine.execFdiv d a b s
  | .fpow d a imm => Sys2Proof.Machine.execFpow d a imm s
  | .fred d hi lo c => Sys2Proof.Machine.execFred d hi lo c s
  | .pinf d c => Sys2Proof.Machine.execPinf d c s
  | .pmake d x y c => Sys2Proof.Machine.execPmake d x y c s
  | .pneg d a => Sys2Proof.Machine.execPneg d a s
  | .peq a b => Sys2Proof.Machine.execPeq a b s
  | .padd d a b => Sys2Proof.Machine.execPadd d a b s
  | .pdbl d a => Sys2Proof.Machine.execPdbl d a s
  | .ptoj d a => Sys2Proof.Machine.execPtoj d a s
  | .ptoa d a => Sys2Proof.Machine.execPtoa d a s
  | .smul d k a => Sys2Proof.Machine.execSmul d k a s
  | .smulg d k a => Sys2Proof.Machine.execSmulg d k a s
  | .ctxld c dom => Sys2Proof.Machine.execCtxld c dom s
  | .pdec d c => Sys2Proof.Machine.execPdec d c s
  | .penc a => Sys2Proof.Machine.execPenc a s

end Sys2Proof.Machine
end

