-- ==== Sys2Proof/Machine/Agents.lean ====
section
/-! DEFINITION. The two agents, the host and the sequencer, which of them steps next, and the host programs of R109
(spec/10_state.md R20, R43; spec/20_memory.md R88; spec/30_encoding.md R109; spec/60_exceptions.md R280, R301, R307;
spec/70_reset_and_hazards.md R340). -/

namespace Sys2Proof.Machine

/-- The sequencer completes the command in flight: the meaning of the word if strict decode accepts it, and
IllegalCommand if not (R104, R280, R301). -/
def completeInFlight (s : State) : Host.Outcome State Fault Refusal :=
  match decode s.cmd with
  | .ok i => exec i s
  | .error _ => .next (s.completeErr .illegalCommand)

/-- One step of the block: one host access, or one completion, or one reset (R307). The list of inputs says which comes
next (log entry 1). With no input left a command in flight completes, and an idle block holds its state (R315). A `wait`
stands until the block is idle, and ends with the read of STATUS that finds `BUSY = 0` (R109). -/
def nextStep (s : State) : Host.Outcome State Fault Refusal :=
  match s.inputs with
  | [] => if s.busy then completeInFlight s else .next s
  | .read off :: rest => hostRead off { s with inputs := rest }
  | .write off w :: rest => hostWrite off w { s with inputs := rest }
  | .irregular _ _ :: _ => .refused .undefinedAccess
  | .wait :: rest => if s.busy then completeInFlight s else .next { s with inputs := rest, rdata := s.statusWord }
  | .complete :: rest =>
    if s.busy then completeInFlight { s with inputs := rest } else .next { s with inputs := rest }
  | .hardReset :: rest => .next ({ s with inputs := rest } : State).hardReset

/-- The offset of `CMD` (R73). -/
def cmdOffset : Offset := 0x00C

/-- The state in which the host has written `w` to CMD and waits for it: the sequencer's completion of `w` is the next
step. -/
def State.issue (s : State) (w : Word) : State := { s.accept w with inputs := .wait :: s.inputs }

/-- R109's `write256 <offset>, <value>`: eight writes, least significant word first. -/
def write256 (off : Offset) (v : Value) : List Input :=
  (List.finRange 8).map fun j => .write (off + BitVec.ofNat 15 (4 * j.val)) (valueWord v j)

/-- R109's `read256 <offset>`: the eight matching reads. -/
def read256 (off : Offset) : List Input :=
  (List.finRange 8).map fun j => .read (off + BitVec.ofNat 15 (4 * j.val))

/-- R109's command line: `write 0x00C, <its encoding>` followed by `wait`. -/
def commandLine (i : Instr) : List Input := [.write cmdOffset (encode i), .wait]

end Sys2Proof.Machine
end

