-- ==== Sys2Proof/Machine/Step.lean ====
section
/-! DEFINITION. One step of the machine, and the state in which a given command word is the next the machine runs. The
block fetches nothing (spec/10_state.md R41): a command comes to run because the host writes it to CMD (log entry 4). -/

namespace Sys2Proof.Machine

/-- One step (R307). -/
def step (s : State) : Host.Outcome State Fault Refusal := nextStep s

/-- `s` with the host having written the command word to CMD and waiting: the next step runs exactly it. A command word
has 32 bits (R100); bits at and above `nbits` are 0. -/
def State.withFetchWord (s : State) (nbits w : Nat) : State := s.issue (BitVec.ofNat 32 (w % 2 ^ nbits))

end Sys2Proof.Machine
end

