-- ==== Sys2Proof/Safety.lean ====
section
/-! DEFINITION. What claims are stated in: the completion of a command, the conditions under which operands are usable,
the address ranges of the window, the regular steps, and the invariants of the machine. Each is written from the rules'
own words and calls none of the machine's meanings. -/

namespace Sys2Proof.Machine

/-! ### Completion -/

/-- The effects of success beside the destination (R285). -/
def State.succeeded (s : State) : State := { s with code := 0, busy := false, done := true }

/-- The effects of an error with this code, and nothing else (R283). -/
def State.failed (s : State) (code : BitVec 5) : State :=
  { s with code := code, err := true, errcmd := s.cmd, busy := false, done := true }

/-- The outcome of a command by its checks in the order they are made, each with the code it raises when it does not
hold (R282), and the state with the destination written when they all hold. -/
def State.outcome (s : State) : List (Bool × BitVec 5) → State → Host.Outcome State Fault Refusal
  | [], t => .next t.succeeded
  | (holds, code) :: rest, t => if holds then s.outcome rest t else .next (s.failed code)

/-! ### Usable operands -/

/-- A usable context: `VALID = 1`, `P >= 2`, `A < P` (R30). -/
abbrev State.ctxReady (s : State) (c : CReg) : Prop :=
  (s.readCtx c).valid = true ∧ 2 ≤ (s.readCtx c).p.toNat ∧ (s.readCtx c).a.toNat < (s.readCtx c).p.toNat

/-- The value of a field register as a number. -/
abbrev State.fVal (s : State) (i : FReg) : Nat := (s.readF i).val.toNat
/-- The modulus a field register's tag names. -/
abbrev State.fMod (s : State) (i : FReg) : Nat := (s.readCtx (s.readF i).tag).p.toNat
/-- The modulus a point register's tag names. -/
abbrev State.ptMod (s : State) (i : PReg) : Nat := (s.readCtx (s.readPt i).tag).p.toNat
/-- The coefficient `a` of the curve a point register's tag names. -/
abbrev State.ptCoeffA (s : State) (i : PReg) : Nat := (s.readCtx (s.readPt i).tag).a.toNat

/-- An F operand a command accepts: written, in a usable field, below its modulus (R30, R131, R302). -/
abbrev State.fieldReady (s : State) (i : FReg) : Prop :=
  (s.readF i).v = true ∧ s.ctxReady (s.readF i).tag ∧ s.fVal i < s.fMod i

/-- Every coordinate a point register's value has is below its modulus: none of the affine infinity, X and Y of an
affine point, X, Y and Z of a Jacobian one (R171). -/
abbrev State.coordsInField (s : State) (i : PReg) : Prop :=
  ((s.readPt i).rep = .affine ∧ (s.readPt i).inf = true)
  ∨ ((s.readPt i).x.toNat < s.ptMod i ∧ (s.readPt i).y.toNat < s.ptMod i
    ∧ ((s.readPt i).rep = .affine ∨ (s.readPt i).z.toNat < s.ptMod i))

/-- `CurveEq` (R172). -/
abbrev State.sameCurve (s : State) (c1 c2 : CReg) : Prop :=
  c1 = c2 ∨ ((s.readCtx c1).dom ≠ 0 ∧ (s.readCtx c1).dom = (s.readCtx c2).dom)
  ∨ ((s.readCtx c1).p = (s.readCtx c2).p ∧ (s.readCtx c1).a = (s.readCtx c2).a ∧ (s.readCtx c1).b = (s.readCtx c2).b
    ∧ (s.readCtx c1).gx = (s.readCtx c2).gx ∧ (s.readCtx c1).gy = (s.readCtx c2).gy
    ∧ (s.readCtx c1).n = (s.readCtx c2).n ∧ (s.readCtx c1).h = (s.readCtx c2).h)

/-- A point register holds the generator of a context loaded by CTXLD (R224). -/
abbrev State.holdsGenerator (s : State) (i : PReg) : Prop :=
  (s.readCtx (s.readPt i).tag).dom = 1 ∧ (s.readPt i).inf = false
  ∧ (s.readPt i).x = (s.readCtx (s.readPt i).tag).gx ∧ (s.readPt i).y = (s.readCtx (s.readPt i).tag).gy

/-- A P operand a command accepts: written, in a usable context, every coordinate in range (R30, R170, R171, R302). -/
abbrev State.pointReady (s : State) (i : PReg) : Prop :=
  (s.readPt i).v = true ∧ s.ctxReady (s.readPt i).tag ∧ s.coordsInField i

/-- Two P operands a command accepts together: of one curve and of one representation (R172, R194, R195). -/
abbrev State.pointsReady (s : State) (a b : PReg) : Prop :=
  s.pointReady a ∧ s.pointReady b ∧ s.sameCurve (s.readPt a).tag (s.readPt b).tag
  ∧ (s.readPt a).rep = (s.readPt b).rep

/-! ### The checks of the commands, in their order, each with its code (R282) -/

/-- A binary field command's operand checks (R140). -/
def State.fieldPairChecks (s : State) (a b : FReg) : List (Bool × BitVec 5) :=
  [((s.readF a).v && (s.readF b).v, 17),
   (decide (s.ctxReady (s.readF a).tag) && decide (s.ctxReady (s.readF b).tag), 18),
   (decide (s.fMod b = s.fMod a), 1),
   (decide (s.fVal a < s.fMod a) && decide (s.fVal b < s.fMod a), 3)]

/-- A unary field command's operand checks (R143). -/
def State.fieldChecks (s : State) (a : FReg) : List (Bool × BitVec 5) :=
  [((s.readF a).v, 17), (decide (s.ctxReady (s.readF a).tag), 18), (decide (s.fVal a < s.fMod a), 3)]

/-- A one-operand point command's operand checks, with its representation check between (R192, R196, R197, R198, R253). -/
def State.pointChecks (s : State) (a : PReg) (repChecks : List (Bool × BitVec 5)) : List (Bool × BitVec 5) :=
  [((s.readPt a).v, 17), (decide (s.ctxReady (s.readPt a).tag), 18)] ++ repChecks ++ [(decide (s.coordsInField a), 3)]

/-- A two-operand point command's operand checks (R194, R195). -/
def State.pointPairChecks (s : State) (a b : PReg) : List (Bool × BitVec 5) :=
  [((s.readPt a).v && (s.readPt b).v, 17),
   (decide (s.ctxReady (s.readPt a).tag) && decide (s.ctxReady (s.readPt b).tag), 18),
   (decide (s.sameCurve (s.readPt a).tag (s.readPt b).tag), 2),
   (decide ((s.readPt a).rep = (s.readPt b).rep), 6),
   (decide (s.coordsInField a) && decide (s.coordsInField b), 3)]

/-- The operand checks of SMUL and SMULG (R226, R227). -/
def State.scalarChecks (s : State) (k : KReg) (a : PReg) : List (Bool × BitVec 5) :=
  [((s.readK k).v && (s.readPt a).v, 17),
   (decide (s.ctxReady (s.readPt a).tag), 18),
   (decide ((s.readPt a).rep = .affine), 6),
   (decide (s.coordsInField a), 3)]

/-- Operands SMUL and SMULG accept: every check of `scalarChecks` holds. -/
abbrev State.scalarReady (s : State) (k : KReg) (a : PReg) : Prop :=
  (s.readK k).v = true ∧ (s.readPt a).v = true ∧ s.ctxReady (s.readPt a).tag ∧ (s.readPt a).rep = .affine
  ∧ s.coordsInField a

/-- The number whose big-endian bytes are the 32 wire bytes from `start` (R252). -/
def State.wireNumber (s : State) (start : Nat) : Nat :=
  ((s.wire.toList.drop start).take 32).foldl (fun acc b => 256 * acc + b.toNat) 0

/-- Two point registers PADD can add: affine ones unless they divide by 0, Jacobian ones that meet the mixed adder's
preconditions (R175 to R178). -/
def State.addable (s : State) (a b : PReg) : Prop :=
  let r := s.readPt a
  let q := s.readPt b
  let p := s.ptMod a
  match r.rep with
  | .affine =>
    r.inf = true ∨ q.inf = true ∨ r.x ≠ q.x ∨ (r.y = q.y ∧ 2 * r.y.toNat % p ≠ 0)
    ∨ (r.y ≠ q.y ∧ (r.y.toNat + q.y.toNat) % p = 0)
  | .jacobian => r.z ≠ 0 ∧ q.z = 1 ∧ ((q.x.toNat : Int) * (r.z.toNat : Int) ^ 2 - r.x.toNat) % p ≠ 0

/-- A point register PDBL can double (R178, R179). -/
def State.doublable (s : State) (a : PReg) : Prop :=
  match (s.readPt a).rep with
  | .affine => (s.readPt a).inf = true ∨ 2 * (s.readPt a).y.toNat % s.ptMod a ≠ 0
  | .jacobian => (s.readPt a).y ≠ 0

/-- The command has operands it completes on without an error, by the rules of the command alone: for SMUL and SMULG the
scalars that use neither path's loop, which is in the statements of the group multiple. -/
def State.accepts (s : State) : Instr → Prop
  | .nop => True
  | .fadd _ a b | .fsub _ a b | .fmul _ a b => s.fieldReady a ∧ s.fieldReady b ∧ s.fMod b = s.fMod a
  | .fdiv _ a b => s.fieldReady a ∧ s.fieldReady b ∧ s.fMod b = s.fMod a ∧ s.fVal b ≠ 0
  | .fneg _ a => s.fieldReady a
  | .finv _ a => s.fieldReady a ∧ s.fVal a ≠ 0
  | .fpow _ a imm => s.fieldReady a ∧ imm.toNat < 128
  | .fred _ hi lo c => (s.readK hi).v = true ∧ (s.readK lo).v = true ∧ s.ctxReady c
  | .pinf _ c => s.ctxReady c
  | .pmake _ x y c =>
    s.fieldReady x ∧ s.fieldReady y ∧ s.ctxReady c ∧ s.fMod x = (s.readCtx c).p.toNat
    ∧ s.fMod y = (s.readCtx c).p.toNat
  | .pneg _ a | .ptoj _ a => s.pointReady a ∧ (s.readPt a).rep = .affine
  | .peq a b => s.pointsReady a b
  | .padd _ a b => s.pointsReady a b ∧ s.addable a b
  | .pdbl _ a => s.pointReady a ∧ s.doublable a
  | .ptoa _ a =>
    s.pointReady a ∧ (s.readPt a).rep = .jacobian
    ∧ (((s.readPt a).x = 1 ∧ (s.readPt a).y = 1) ∨ (s.readPt a).z ≠ 0)
  | .smul _ k a =>
    s.scalarReady k a
    ∧ ((s.readK k).val = 0 ∨ (s.readK k).val = 2 ∨ (s.readPt a).inf = true
      ∨ ((s.readK k).val = 1 ∧ ¬ s.holdsGenerator a))
  | .smulg _ k a => s.scalarReady k a ∧ s.holdsGenerator a ∧ s.tvalid = true ∧ (s.readK k).val = 0
  | .ctxld _ dom => dom = 1
  | .pdec _ c =>
    s.ctxReady c ∧ s.wire.get 0 = 0x04 ∧ s.wireNumber 1 < (s.readCtx c).p.toNat
    ∧ s.wireNumber 33 < (s.readCtx c).p.toNat
  | .penc a => s.pointReady a ∧ (s.readPt a).rep = .affine ∧ (s.readPt a).inf = false

/-! ### The group law in closed form, over the integers modulo `p` (R175, R177 to R179, R181) -/

/-- The slope of the chord through two points, `(yQ - yP) / (xQ - xP)`, the division by the Fermat power (R136, R175). -/
def chordSlope (p : Nat) (x1 y1 x2 y2 : Int) : Int := (y2 - y1) * ((x2 - x1) % p) ^ (p - 2)

/-- The slope of the tangent at a point, `(3x² + a) / 2y`, the division by the Fermat power (R136, R178). -/
def tangentSlope (p : Nat) (a x y : Int) : Int := (3 * x ^ 2 + a) * (2 * y % p) ^ (p - 2)

/-- `PT[d]` holding the affine sum on the line of this slope through `(x1, y1)` and a point of abscissa `x2`. -/
def State.withLineSum (s : State) (d : PReg) (p : Nat) (slope x1 y1 x2 : Int) (tag : CReg) : State :=
  let x3 := (slope ^ 2 - x1 - x2) % p
  { s with
    pt := s.pt.set d.val
      { x := BitVec.ofInt 256 x3, y := BitVec.ofInt 256 ((slope * (x1 - x3) - y1) % p), z := 0, tag := tag
        rep := .affine, inf := false, v := true }
      d.isLt }

/-- `PT[d]` holding the Jacobian triple of these residues modulo `p`. -/
def State.withResidues (s : State) (d : PReg) (p : Nat) (x y z : Int) (tag : CReg) : State :=
  { s with
    pt := s.pt.set d.val
      { x := BitVec.ofInt 256 (x % p), y := BitVec.ofInt 256 (y % p), z := BitVec.ofInt 256 (z % p), tag := tag
        rep := .jacobian, inf := false, v := true }
      d.isLt }

/-! ### The group of points, by the library's own group law (R225) -/

/-- The curve `y² = x³ + ax + b` of a context, over the integers modulo `p`. -/
def curveOf (p : Nat) (c : Context) : WeierstrassCurve.Affine (ZMod p) where
  a₁ := 0
  a₂ := 0
  a₃ := 0
  a₄ := (c.a.toNat : ZMod p)
  a₆ := (c.b.toNat : ZMod p)

/-- The affine point register holds this point of the curve, each coordinate below `p`. -/
def holdsPoint {p : Nat} {W : WeierstrassCurve.Affine (ZMod p)} (r : PointReg) (Q : W.Point) : Prop :=
  r.rep = .affine ∧
  ((r.inf = true ∧ Q = .zero)
    ∨ (r.inf = false ∧ r.x.toNat < p ∧ r.y.toNat < p
      ∧ ∃ h : W.Nonsingular (r.x.toNat : ZMod p) (r.y.toNat : ZMod p), Q = .some _ _ h))

/-- The table entry holds this point of the curve, each coordinate below `p` (R33). -/
def entryHoldsPoint {p : Nat} {W : WeierstrassCurve.Affine (ZMod p)} (e : TableEntry) (Q : W.Point) : Prop :=
  e.x.toNat < p ∧ e.y.toNat < p ∧ ∃ h : W.Nonsingular (e.x.toNat : ZMod p) (e.y.toNat : ZMod p), Q = .some _ _ h

/-! ### Destination writes (R22, R24, R183) -/

/-- `s` with `F[d]` holding the number and the tag, and valid. -/
def State.withField (s : State) (d : FReg) (val : Nat) (tag : CReg) : State :=
  { s with f := s.f.set d.val { val := BitVec.ofNat 256 val, tag := tag, v := true } d.isLt }

/-- `s` with `PT[d]` holding a finite affine point, and valid. -/
def State.withAffine (s : State) (d : PReg) (x y : Nat) (tag : CReg) : State :=
  { s with
    pt := s.pt.set d.val
      { x := BitVec.ofNat 256 x, y := BitVec.ofNat 256 y, z := 0, tag := tag, rep := .affine, inf := false, v := true }
      d.isLt }

/-- `s` with `PT[d]` holding the affine point at infinity, and valid. -/
def State.withInfinity (s : State) (d : PReg) (tag : CReg) : State :=
  { s with
    pt := s.pt.set d.val { x := 0, y := 0, z := 0, tag := tag, rep := .affine, inf := true, v := true } d.isLt }

/-- `s` with `PT[d]` holding a Jacobian triple, and valid. -/
def State.withJacobian (s : State) (d : PReg) (x y z : Nat) (tag : CReg) : State :=
  { s with
    pt := s.pt.set d.val
      { x := BitVec.ofNat 256 x, y := BitVec.ofNat 256 y, z := BitVec.ofNat 256 z, tag := tag, rep := .jacobian
        inf := false, v := true }
      d.isLt }

/-! ### Address ranges (R73) -/

/-- The number lies in `[base, base + len)`. -/
abbrev inRange (o base len : Nat) : Prop := base ≤ o ∧ o < base + len

/-- The offset of a word of a 256-bit value of CTX, F, PT, K or TABLE (R73). -/
abbrev valueOffset (o : Nat) : Prop :=
  (inRange o 0x100 0x200 ∧ o % 0x100 < 0xE0) ∨ (inRange o 0x400 0x400 ∧ o % 0x40 < 0x20)
  ∨ (inRange o 0x800 0x400 ∧ o % 0x80 < 0x60) ∨ (inRange o 0xC00 0x100 ∧ o % 0x40 < 0x20) ∨ inRange o 0x4000 0x4000

/-- The offset of a META word (R73). -/
abbrev metaOffset (o : Nat) : Prop :=
  (inRange o 0x100 0x200 ∧ o % 0x100 = 0xE0) ∨ (inRange o 0x400 0x400 ∧ o % 0x40 = 0x20)
  ∨ (inRange o 0x800 0x400 ∧ o % 0x80 = 0x60) ∨ (inRange o 0xC00 0x100 ∧ o % 0x40 = 0x20)

/-- The offset of a WIRE word (R73). -/
abbrev wireOffset (o : Nat) : Prop := inRange o 0xD00 0x44

/-- The offset of a data location: CTX, F, PT, K, WIRE, TABLE, META (R80). -/
abbrev dataOffset (o : Nat) : Prop := valueOffset o ∨ metaOffset o ∨ wireOffset o

/-- A reserved offset: no register of R73 stands there. -/
abbrev reservedOffset (o : Nat) : Prop := 0x14 ≤ o ∧ ¬ dataOffset o

/-- The window bytes of a command's destination: first offset and length (R284, R73). NOP writes none, and PEQ's
destination is STATUS.EQ. -/
def destination : Instr → Nat × Nat
  | .nop | .peq _ _ => (0, 0)
  | .fadd d _ _ | .fsub d _ _ | .fmul d _ _ | .fneg d _ | .finv d _ | .fdiv d _ _ | .fpow d _ _ | .fred d _ _ _ =>
    (0x400 + 0x40 * d.val, 0x40)
  | .pinf d _ | .pmake d _ _ _ | .pneg d _ | .padd d _ _ | .pdbl d _ | .ptoj d _ | .ptoa d _ | .smul d _ _
  | .smulg d _ _ | .pdec d _ => (0x800 + 0x80 * d.val, 0x80)
  | .ctxld c _ => (0x100 + 0x100 * c.val, 0x100)
  | .penc _ => (0xD00, 0x44)

/-! ### Regular steps and invariants -/

/-- A 32-bit access at a multiple of 4, or an input that is no access: what R71 defines. -/
def Input.regular : Input → Bool
  | .read off | .write off _ => off.toNat % 4 == 0
  | .irregular _ _ => false
  | .wait | .complete | .hardReset => true

/-- A run from here stops at no undefined access: every pending input is regular. -/
def State.safe (s : State) : Prop := ∀ i ∈ s.inputs, i.regular = true

/-- `CODE` holds a code some completion writes: 0 to 18, and not the reserved 9 (R281, R294). -/
def State.codeLegal (s : State) : Prop := s.code.toNat ≤ 18 ∧ s.code ≠ 9

/-- A context that says it was loaded from a domain holds exactly that domain's values (R28, R29, R251). -/
def State.domainsHoldRom (s : State) : Prop :=
  ∀ c : CReg, (s.readCtx c).dom ≠ 0 →
    (s.readCtx c).dom = 1 ∧ (s.readCtx c).p = Config.secp256k1.p ∧ (s.readCtx c).a = Config.secp256k1.a
    ∧ (s.readCtx c).b = Config.secp256k1.b ∧ (s.readCtx c).gx = Config.secp256k1.gx
    ∧ (s.readCtx c).gy = Config.secp256k1.gy ∧ (s.readCtx c).n = Config.secp256k1.n
    ∧ (s.readCtx c).h = Config.secp256k1.h

/-- A command in flight has not completed: BUSY and DONE are never both 1 (R38, R39). -/
def State.busyNotDone (s : State) : Prop := s.busy = true → s.done = false

end Sys2Proof.Machine
end

