-- ==== Sys2Proof/Certificates/Slice0/Obligations.lean ====
section
/-! DEFINITION. The statements for the provers. Each docstring cites the rules of spec/ the statement formalises. A check
list is read as R282's priority order: the first check that does not hold names the completion code. An equation
`exec i s = s.outcome checks t` therefore says two things: where every check holds, `exec i s = .next t.succeeded` (the
command's own effect, for hypotheses on the state and the operands alone), and where one does not, the error's next
state. -/

open Sys2Proof Sys2Proof.Machine

/-! ## Encoding -/

/-- Every command, with every operand at every value its type admits, decodes from its own word (R101 to R106). -/
def Obligations.EncodedCommandDecodesToItself : Prop := ∀ i : Instr, decode (encode i) = .ok i

/-- A word that decodes is the encoding of what it decodes to: no bit is dropped and no two words are one command
(R101, R104). -/
def Obligations.DecodedWordIsTheEncoding : Prop := ∀ (w : Word) (i : Instr), decode w = .ok i → encode i = w

/-- R104, R301: strict decode is the opcode table's mask and match, row by row. Every word at all is accepted as a
command; one that no row admits completes with IllegalCommand (16), with nothing but STATUS and ERRCMD changed, under each
of the three schedules in which the sequencer is next (the schedules are the model's choice, log entry 1). -/
def Obligations.StrictDecodeIsTheOpcodeTable : Prop :=
  ∀ (w : Word),
    (∀ o : Opcode, (∃ i, decode w = .ok i ∧ i.opcode = o) ↔ w &&& o.row.mask = o.row.pattern)
    ∧ ∀ (s : State) (rest : List Input),
        step { s with busy := false, inputs := .write 0x00C w :: rest }
          = .next { s with busy := true, done := false, cmd := w, inputs := rest }
        ∧ ((∀ o : Opcode, w &&& o.row.mask ≠ o.row.pattern) → s.busy = true → s.cmd = w →
          ((s.inputs = [] ∨ s.inputs = .wait :: rest) → step s = .next (s.failed 16))
          ∧ (s.inputs = .complete :: rest → step s = .next (State.failed { s with inputs := rest } 16)))

/-- Five words written out in spec/95_test_vectors.md section 2, and one it lists as illegal (a sanity statement). -/
def Obligations.SpecExampleWordsDecode : Prop :=
  decode 0x05001316 = .ok (.fpow 3 1 5) ∧ decode 0x00110317 = .ok (.fred 3 0 1 1)
  ∧ decode 0x000FE421 = .ok (.pmake 4 14 15 0) ∧ decode 0x00000130 = .ok (.smul 1 0 0)
  ∧ decode 0x01100040 = .ok (.ctxld 1 1) ∧ decode 0x00004130 = .error .registerClass

/-! ## Steps, the host's accesses and the window -/

/-- A step runs the decoded command: while a word is in flight and the sequencer is next (the host waits, or has nothing
pending, or the schedule says so), the step is the command's completion step (R280, R307, R340; the schedule's form is
the model's, log entry 1). -/
def Obligations.StepRunsTheCommandInFlight : Prop :=
  ∀ (s : State) (i : Instr), s.busy = true → decode s.cmd = .ok i →
    ((s.inputs = [] ∨ ∃ rest, s.inputs = .wait :: rest) → step s = exec i s)
    ∧ (∀ rest, s.inputs = .complete :: rest → step s = exec i { s with inputs := rest })

/-- R39: a CMD write is accepted while idle, with BUSY set and DONE cleared in the same access, and dropped with OVF while
busy; a STATUS read that follows an acceptance sees BUSY; a read of CMD returns the most recently accepted word, 0 after
reset. -/
def Obligations.CommandWriteIsAcceptedOrDropped : Prop :=
  ∀ (s : State) (w : Word) (rest : List Input),
    (s.busy = false →
      step { s with inputs := .write 0x00C w :: rest }
        = .next { s with inputs := rest, cmd := w, busy := true, done := false }
      ∧ ∃ v : Word, step { s with inputs := .read 0x008 :: rest, cmd := w, busy := true, done := false }
          = .next { s with inputs := rest, cmd := w, busy := true, done := false, rdata := v } ∧ v.getLsbD 0 = true)
    ∧ (s.busy = true →
      step { s with inputs := .write 0x00C w :: rest } = .next { s with inputs := rest, ovf := true })
    ∧ step { s with inputs := .read 0x00C :: rest } = .next { s with inputs := rest, rdata := s.cmd }
    ∧ State.reset.cmd = 0

/-- R80: while busy, a host write to CMD or to any data location is dropped and sets OVF; writes to CTRL (of IE, and of
SRST, which ends the command) and STATUS take effect. -/
def Obligations.BusyWritesAreDropped : Prop :=
  ∀ (s : State) (off : Offset) (w : Word) (rest : List Input), s.busy = true →
    (off.toNat % 4 = 0 → (dataOffset off.toNat ∨ off = 0x00C) →
      step { s with inputs := .write off w :: rest } = .next { s with inputs := rest, ovf := true })
    ∧ (w.getLsbD 1 = false →
      step { s with inputs := .write 0x004 w :: rest } = .next { s with inputs := rest, ie := w.getLsbD 0 })
    ∧ (w.getLsbD 1 = true →
      ∃ t, step { s with inputs := .write 0x004 w :: rest } = .next t ∧ t.busy = false ∧ t.ovf = false ∧ t.cmd = 0)
    ∧ step { s with inputs := .write 0x008 w :: rest }
        = .next { s with
            inputs := rest, done := s.done && !w.getLsbD 1, err := s.err && !w.getLsbD 2, ovf := s.ovf && !w.getLsbD 4 }

/-- R78: no read of any offset changes any state of the block. Only the model's own fields move: the pending input is
consumed, the read data is on the bus, and a draw may be counted. -/
def Obligations.ReadsChangeNothing : Prop :=
  ∀ (s : State) (off : Offset) (rest : List Input), off.toNat % 4 = 0 →
    ∃ (v : Word) (n : Nat),
      step { s with inputs := .read off :: rest } = .next { s with inputs := rest, rdata := v, draws := n }

/-- R36 to R40, R81: ID, CTRL, STATUS, CMD and ERRCMD always read as defined, busy or not, and their unlisted bits read 0.
STATUS holds BUSY, DONE, ERR, EQ, OVF in bits 0 to 4 and CODE in bits 12:8; CTRL holds IE in bit 0 and TVALID in bit 2. -/
def Obligations.ControlRegistersReadBack : Prop :=
  ∀ (s : State) (rest : List Input),
    step { s with inputs := .read 0x000 :: rest } = .next { s with inputs := rest, rdata := 0xECC00001 }
    ∧ step { s with inputs := .read 0x004 :: rest }
        = .next { s with inputs := rest, rdata := BitVec.ofNat 32 (s.ie.toNat + 4 * s.tvalid.toNat) }
    ∧ step { s with inputs := .read 0x008 :: rest }
        = .next { s with
            inputs := rest
            rdata := BitVec.ofNat 32 (s.busy.toNat + 2 * s.done.toNat + 4 * s.err.toNat + 8 * s.eq.toNat
              + 16 * s.ovf.toNat + 256 * s.code.toNat) }
    ∧ step { s with inputs := .read 0x00C :: rest } = .next { s with inputs := rest, rdata := s.cmd }
    ∧ step { s with inputs := .read 0x010 :: rest } = .next { s with inputs := rest, rdata := s.errcmd }

/-- R334, and R37, R79 of the idle block: a CTRL write without SRST sets IE, and TVALID only while idle; a STATUS write
clears exactly DONE, ERR and OVF where it holds a 1. -/
def Obligations.ControlWritesTakeEffect : Prop :=
  ∀ (s : State) (w : Word) (rest : List Input),
    (w.getLsbD 1 = false →
      step { s with inputs := .write 0x004 w :: rest }
        = .next { s with
            inputs := rest, ie := w.getLsbD 0, tvalid := if s.busy = true then s.tvalid else w.getLsbD 2 })
    ∧ step { s with inputs := .write 0x008 w :: rest }
        = .next { s with
            inputs := rest, done := s.done && !w.getLsbD 1, err := s.err && !w.getLsbD 2, ovf := s.ovf && !w.getLsbD 4 }

/-- R321: a CTRL write with SRST set, busy or not, discards the command in flight, clears every valid bit, every domain
id, CTRL, STATUS, ERRCMD and CMD, and keeps TABLE. Nothing is claimed of the register, context and WIRE values, which
become unspecified. -/
def Obligations.SoftResetClearsAllButTheTable : Prop :=
  ∀ (s : State) (w : Word) (rest : List Input), w.getLsbD 1 = true →
    ∃ t, step { s with inputs := .write 0x004 w :: rest } = .next t
      ∧ (∀ i, (t.readF i).v = false) ∧ (∀ i, (t.readPt i).v = false) ∧ (∀ i, (t.readK i).v = false)
      ∧ (∀ c, (t.readCtx c).valid = false ∧ (t.readCtx c).dom = 0)
      ∧ t.ie = false ∧ t.tvalid = false
      ∧ t.busy = false ∧ t.done = false ∧ t.err = false ∧ t.eq = false ∧ t.ovf = false ∧ t.code = 0
      ∧ t.errcmd = 0 ∧ t.cmd = 0 ∧ t.table = s.table ∧ t.inputs = rest

/-- R320: a hard reset (the model's input, log entry 13), and the state the model starts in, have every valid bit, VALID and DOM 0, CTRL, STATUS, ERRCMD and
CMD 0, IRQ 0 and no command in flight. Nothing is claimed of the values R45 leaves unspecified. -/
def Obligations.HardResetClearsAllControl : Prop :=
  ∀ (s : State) (rest : List Input),
    ∃ t, step { s with inputs := .hardReset :: rest } = .next t ∧ t.inputs = rest
      ∧ ∀ u, u = t ∨ u = State.reset →
        (∀ i, (u.readF i).v = false) ∧ (∀ i, (u.readPt i).v = false) ∧ (∀ i, (u.readK i).v = false)
        ∧ (∀ c, (u.readCtx c).valid = false ∧ (u.readCtx c).dom = 0)
        ∧ u.ie = false ∧ u.tvalid = false
        ∧ u.busy = false ∧ u.done = false ∧ u.err = false ∧ u.eq = false ∧ u.ovf = false ∧ u.code = 0
        ∧ u.errcmd = 0 ∧ u.cmd = 0 ∧ u.irq = false

/-- R72, R73, R74: the host's read of an idle block returns the word that stands at its offset, `readLoc (locate off)`; and
that is, for word `o + 4j` of a 256-bit value of the map at `o`, the value's bits `32j+31 : 32j`. -/
def Obligations.ValueWordsAreLeastSignificantFirst : Prop :=
  (∀ (s : State) (off : Offset) (rest : List Input), s.busy = false → off.toNat % 4 = 0 →
    step { s with inputs := .read off :: rest } = .next { s with inputs := rest, rdata := s.readLoc (locate off) })
  ∧ ∀ (s : State) (j : Fin 8),
    (∀ i : FReg, s.readLoc (locate (BitVec.ofNat 15 (0x400 + 0x40 * i.val + 4 * j.val)))
      = (s.readF i).val.extractLsb' (32 * j.val) 32)
    ∧ (∀ i : KReg, s.readLoc (locate (BitVec.ofNat 15 (0xC00 + 0x40 * i.val + 4 * j.val)))
      = (s.readK i).val.extractLsb' (32 * j.val) 32)
    ∧ (∀ i : PReg, s.readLoc (locate (BitVec.ofNat 15 (0x800 + 0x80 * i.val + 4 * j.val)))
        = (s.readPt i).x.extractLsb' (32 * j.val) 32
      ∧ s.readLoc (locate (BitVec.ofNat 15 (0x820 + 0x80 * i.val + 4 * j.val)))
        = (s.readPt i).y.extractLsb' (32 * j.val) 32
      ∧ s.readLoc (locate (BitVec.ofNat 15 (0x840 + 0x80 * i.val + 4 * j.val)))
        = (s.readPt i).z.extractLsb' (32 * j.val) 32)
    ∧ (∀ i : Fin 256, s.readLoc (locate (BitVec.ofNat 15 (0x4000 + 0x40 * i.val + 4 * j.val)))
        = (s.readTable i).x.extractLsb' (32 * j.val) 32
      ∧ s.readLoc (locate (BitVec.ofNat 15 (0x4020 + 0x40 * i.val + 4 * j.val)))
        = (s.readTable i).y.extractLsb' (32 * j.val) 32)
    ∧ (∀ c : CReg, s.readLoc (locate (BitVec.ofNat 15 (0x100 + 0x100 * c.val + 4 * j.val)))
        = (s.readCtx c).p.extractLsb' (32 * j.val) 32
      ∧ s.readLoc (locate (BitVec.ofNat 15 (0x120 + 0x100 * c.val + 4 * j.val)))
        = (s.readCtx c).a.extractLsb' (32 * j.val) 32
      ∧ s.readLoc (locate (BitVec.ofNat 15 (0x140 + 0x100 * c.val + 4 * j.val)))
        = (s.readCtx c).b.extractLsb' (32 * j.val) 32
      ∧ s.readLoc (locate (BitVec.ofNat 15 (0x160 + 0x100 * c.val + 4 * j.val)))
        = (s.readCtx c).gx.extractLsb' (32 * j.val) 32
      ∧ s.readLoc (locate (BitVec.ofNat 15 (0x180 + 0x100 * c.val + 4 * j.val)))
        = (s.readCtx c).gy.extractLsb' (32 * j.val) 32
      ∧ s.readLoc (locate (BitVec.ofNat 15 (0x1A0 + 0x100 * c.val + 4 * j.val)))
        = (s.readCtx c).n.extractLsb' (32 * j.val) 32
      ∧ s.readLoc (locate (BitVec.ofNat 15 (0x1C0 + 0x100 * c.val + 4 * j.val)))
        = (s.readCtx c).h.extractLsb' (32 * j.val) 32)

/-- R72, R74, R76: an idle host write of a value word is what a read of that offset returns next, and every other word of
the window reads as before, but for the DOM bits of the META word of a context whose value is written (R29). -/
def Obligations.ValueWordWriteChangesOnlyThatWord : Prop :=
  ∀ (s : State) (off : Offset) (w : Word) (rest : List Input),
    s.busy = false → off.toNat % 4 = 0 → valueOffset off.toNat →
    ∃ t, step { s with inputs := .write off w :: rest } = .next t ∧ t.inputs = rest
      ∧ t.readLoc (locate off) = w
      ∧ ∀ off' : Offset, off'.toNat % 4 = 0 → off' ≠ off →
          ¬ (inRange off.toNat 0x100 0x200 ∧ off'.toNat = off.toNat / 0x100 * 0x100 + 0xE0) →
          t.readLoc (locate off') = s.readLoc (locate off')

/-- R29, with R74: an idle host write to word `j` of the `m`-th value of a context (P, A, B, GX, GY, N, H) puts the word
there and sets its DOM to 0, and leaves the context's other values and VALID, the other context and all other state as
they were. -/
def Obligations.ContextValueWriteClearsDomain : Prop :=
  ∀ (s : State) (c : CReg) (m : Fin 7) (j : Fin 8) (w : Word) (rest : List Input), s.busy = false →
    let k := s.readCtx c
    let fld := ctxFieldAt m.val
    step { s with
        inputs := .write (BitVec.ofNat 15 (0x100 + 0x100 * c.val + 0x20 * m.val + 4 * j.val)) w :: rest }
      = .next { s with
          inputs := rest
          ctx := s.ctx.set c.val { k.withField fld (setValueWord (k.field fld) j w) with dom := 0 } c.isLt }

/-- R76: what each META word reads as, and that an idle host write of it changes exactly its RW bits. -/
def Obligations.MetaWordsHoldTheirListedBits : Prop :=
  ∀ (s : State) (w : Word) (rest : List Input),
    (∀ c : CReg,
      s.readLoc (locate (BitVec.ofNat 15 (0x1E0 + 0x100 * c.val)))
        = BitVec.ofNat 32 ((s.readCtx c).valid.toNat + 256 * (s.readCtx c).dom.toNat)
      ∧ (s.busy = false →
        step { s with inputs := .write (BitVec.ofNat 15 (0x1E0 + 0x100 * c.val)) w :: rest }
          = .next { s with
              inputs := rest, ctx := s.ctx.set c.val { s.readCtx c with valid := w.getLsbD 0 } c.isLt }))
    ∧ (∀ i : FReg,
      s.readLoc (locate (BitVec.ofNat 15 (0x420 + 0x40 * i.val)))
        = BitVec.ofNat 32 ((s.readF i).v.toNat + 256 * (s.readF i).tag.val)
      ∧ (s.busy = false →
        step { s with inputs := .write (BitVec.ofNat 15 (0x420 + 0x40 * i.val)) w :: rest }
          = .next { s with
              inputs := rest
              f := s.f.set i.val
                { val := (s.readF i).val, tag := if w.getLsbD 8 then 1 else 0, v := w.getLsbD 0 } i.isLt }))
    ∧ (∀ i : PReg,
      s.readLoc (locate (BitVec.ofNat 15 (0x860 + 0x80 * i.val)))
        = BitVec.ofNat 32 ((s.readPt i).v.toNat + 256 * (s.readPt i).tag.val
            + (if (s.readPt i).rep = .jacobian then 65536 else 0) + 131072 * (s.readPt i).inf.toNat)
      ∧ (s.busy = false →
        step { s with inputs := .write (BitVec.ofNat 15 (0x860 + 0x80 * i.val)) w :: rest }
          = .next { s with
              inputs := rest
              pt := s.pt.set i.val
                { x := (s.readPt i).x, y := (s.readPt i).y, z := (s.readPt i).z
                  tag := if w.getLsbD 8 then 1 else 0
                  rep := if w.getLsbD 16 then .jacobian else .affine
                  inf := w.getLsbD 17, v := w.getLsbD 0 } i.isLt }))
    ∧ (∀ i : KReg,
      s.readLoc (locate (BitVec.ofNat 15 (0xC20 + 0x40 * i.val))) = BitVec.ofNat 32 (s.readK i).v.toNat
      ∧ (s.busy = false →
        step { s with inputs := .write (BitVec.ofNat 15 (0xC20 + 0x40 * i.val)) w :: rest }
          = .next { s with
              inputs := rest, k := s.k.set i.val { val := (s.readK i).val, v := w.getLsbD 0 } i.isLt }))

/-- R75: byte `WIRE[4m + k]` is bits `8k+7 : 8k` of WIRE word `m`; the three bytes past `WIRE[64]` read 0 and ignore
writes; an idle host write of a WIRE word changes exactly its bytes. -/
def Obligations.WireWordsAreLittleEndianBytes : Prop :=
  ∀ (s : State) (m : Fin 17) (w : Word) (rest : List Input),
    (∀ k : Fin 4,
      (s.readLoc (locate (BitVec.ofNat 15 (0xD00 + 4 * m.val)))).extractLsb' (8 * k.val) 8
        = if 4 * m.val + k.val < 65 then s.readWire (Fin.ofNat 65 (4 * m.val + k.val)) else 0)
    ∧ (s.busy = false →
      ∃ bytes : Vector Byte 65,
        step { s with inputs := .write (BitVec.ofNat 15 (0xD00 + 4 * m.val)) w :: rest }
          = .next { s with inputs := rest, wire := bytes }
        ∧ ∀ j : Fin 65,
            bytes.get j = if j.val / 4 = m.val then w.extractLsb' (8 * (j.val % 4)) 8 else s.wire.get j)

/-- R77: a reserved offset reads 0 and ignores writes, and a write to ID or ERRCMD is ignored. That this holds while busy
too, with OVF left alone (also at a reserved offset inside a CTX, F, PT or K block), is the model's inference, log entry 8
(DEDUCED). -/
def Obligations.ReservedOffsetsReadZeroIgnoreWrites : Prop :=
  ∀ (s : State) (off : Offset) (w : Word) (rest : List Input), off.toNat % 4 = 0 →
    (reservedOffset off.toNat →
      step { s with inputs := .read off :: rest } = .next { s with inputs := rest, rdata := 0 })
    ∧ (reservedOffset off.toNat ∨ off = 0x000 ∨ off = 0x010 →
      step { s with inputs := .write off w :: rest } = .next { s with inputs := rest })

/-- R71: an access that is not one 32-bit access at a multiple of 4 is refused. -/
def Obligations.UndefinedAccessesAreRefused : Prop :=
  ∀ (s : State) (off : Offset) (w : Word) (n : Nat) (rest : List Input),
    step { s with inputs := .irregular off n :: rest } = .refused .undefinedAccess
    ∧ (off.toNat % 4 ≠ 0 →
      step { s with inputs := .read off :: rest } = .refused .undefinedAccess
      ∧ step { s with inputs := .write off w :: rest } = .refused .undefinedAccess)

/-- R304 with R280: where every pending input is regular, the machine never stops: every step answers a next state, again
with regular inputs only. -/
def Obligations.RegularRunsNeverStop : Prop := ∀ s : State, s.safe → ∃ t, step s = .next t ∧ t.safe

/-- R305: IRQ is `IE AND DONE`; it is asserted by a completion while `IE = 1`, and once asserted it stays until the host
clears DONE, has a command accepted, clears IE or resets (or the platform resets). -/
def Obligations.InterruptIsALevelUntilCleared : Prop :=
  (∀ s : State, s.irq = (s.ie && s.done))
  ∧ (∀ (i : Instr) (s t : State), exec i s = .next t → t.irq = s.ie)
  ∧ (∀ s t : State, s.irq = true → step s = .next t →
      t.irq = true
      ∨ (∃ w rest, s.inputs = .write 0x008 w :: rest ∧ w.getLsbD 1 = true)
      ∨ (∃ w rest, s.inputs = .write 0x00C w :: rest ∧ s.busy = false)
      ∨ (∃ w rest, s.inputs = .write 0x004 w :: rest ∧ (w.getLsbD 0 = false ∨ w.getLsbD 1 = true))
      ∨ (∃ rest, s.inputs = .hardReset :: rest))

/-- R86, R334: while a command stays in flight, no step changes a register, a context, the table, the wire buffer, TVALID,
the command word, EQ, CODE or ERRCMD: the command reads its operands as they stood at acceptance. -/
def Obligations.OperandsInFlightAreFrozen : Prop :=
  ∀ s t : State, s.busy = true → step s = .next t → t.busy = true →
    t.f = s.f ∧ t.pt = s.pt ∧ t.k = s.k ∧ t.ctx = s.ctx ∧ t.table = s.table ∧ t.wire = s.wire ∧ t.tvalid = s.tvalid
    ∧ t.cmd = s.cmd ∧ t.eq = s.eq ∧ t.code = s.code ∧ t.errcmd = s.errcmd

/-! ## Invariants that every step keeps -/

/-- Every step keeps: a context whose DOM is not 0 has DOM 1 and holds exactly secp256k1's values (R28, R29, R251). -/
def Obligations.LoadedContextsAlwaysHoldTheRom : Prop :=
  ∀ s t : State, s.domainsHoldRom → step s = .next t → t.domainsHoldRom

/-- Every step keeps: CODE holds 0 or the code of a kind some command raises, never 9 nor 19 to 31 (R281, R294). -/
def Obligations.CompletionCodeIsAlwaysAssigned : Prop :=
  ∀ s t : State, s.codeLegal → step s = .next t → t.codeLegal

/-- Every step keeps: BUSY and DONE are never both 1, so no DONE seen while a command is in flight is an earlier
command's (R338, R39). -/
def Obligations.BusyAndDoneExcludeEachOther : Prop :=
  ∀ s t : State, s.busyNotDone → step s = .next t → t.busyNotDone

/-- The three invariants hold right after reset. -/
def Obligations.ResetMeetsTheInvariants : Prop :=
  State.reset.domainsHoldRom ∧ State.reset.codeLegal ∧ State.reset.busyNotDone

/-! ## Every command -/

/-- R283, with R280: every command's completion step answers a next state, idle and DONE, which is either the state with
CODE, ERR, ERRCMD, BUSY and DONE written and nothing else, for a code not 0, or one with CODE 0 and ERR and ERRCMD as
before. -/
def Obligations.CommandsCompleteWithoutPartialState : Prop :=
  ∀ (i : Instr) (s : State), ∃ t, exec i s = .next t ∧ t.busy = false ∧ t.done = true
    ∧ ((t.code ≠ 0 ∧ t = s.failed t.code) ∨ (t.code = 0 ∧ t.err = s.err ∧ t.errcmd = s.errcmd))

/-- R285, with R302: every command completes with CODE 0 on operands it accepts, idle and DONE, with ERR and ERRCMD as
before; `accepts` lists the operands by the rule of each command, the larger scalars of SMUL and SMULG left to
`SmulComputesTheGroupMultiple` and `GeneratorTableGivesTheGroupMultiple`. The premise is the invariant
`LoadedContextsAlwaysHoldTheRom`, for PADD of two contexts of one domain id. -/
def Obligations.CommandsSucceedOnAcceptedOperands : Prop :=
  ∀ (i : Instr) (s : State), s.domainsHoldRom → s.accepts i →
    ∃ t, exec i s = .next t ∧ t.code = 0 ∧ t.busy = false ∧ t.done = true ∧ t.err = s.err ∧ t.errcmd = s.errcmd

/-- The frame of every command (R284, R42): no K register, table entry, CTRL bit, OVF or command word changes, EQ changes by
PEQ alone, and every byte of the window outside STATUS, ERRCMD and the command's destination reads as before. -/
def Obligations.CommandsChangeOnlyTheirDestination : Prop :=
  ∀ (i : Instr) (s t : State), exec i s = .next t →
    t.k = s.k ∧ t.table = s.table ∧ t.ie = s.ie ∧ t.tvalid = s.tvalid ∧ t.ovf = s.ovf ∧ t.cmd = s.cmd
    ∧ t.inputs = s.inputs ∧ t.rdata = s.rdata ∧ t.draws = s.draws
    ∧ ((∀ a b, i ≠ .peq a b) → t.eq = s.eq)
    ∧ ∀ off : Offset, ¬ inRange off.toNat 0x008 4 → ¬ inRange off.toNat 0x010 4 →
        ¬ inRange off.toNat (destination i).1 (destination i).2 → t.byteAt off = s.byteAt off

/-- R150: a field command that succeeds leaves a valid register whose value is below its own field's modulus. -/
def Obligations.FieldResultsStayInTheField : Prop :=
  ∀ (i : Instr) (d : FReg) (s t : State), destination i = (0x400 + 0x40 * d.val, 0x40) →
    exec i s = .next t → t.code = 0 → (t.readF d).v = true ∧ t.fVal d < t.fMod d

/-! ## Field commands -/

/-- R140 FADD, R141 FSUB, R142 FMUL: the sum, the difference and the exact product modulo `p`, in every case. -/
def Obligations.FaddFsubFmulComputeModuloP : Prop :=
  ∀ (s : State) (d a b : FReg),
    exec (.fadd d a b) s
      = s.outcome (s.fieldPairChecks a b) (s.withField d ((s.fVal a + s.fVal b) % s.fMod a) (s.readF a).tag)
    ∧ exec (.fsub d a b) s
      = s.outcome (s.fieldPairChecks a b)
          (s.withField d (((s.fVal a : Int) - s.fVal b) % s.fMod a).toNat (s.readF a).tag)
    ∧ exec (.fmul d a b) s
      = s.outcome (s.fieldPairChecks a b) (s.withField d (s.fVal a * s.fVal b % s.fMod a) (s.readF a).tag)

/-- R143, FNEG: the negative modulo `p`, in every case. -/
def Obligations.FnegNegatesModuloP : Prop :=
  ∀ (s : State) (d a : FReg),
    exec (.fneg d a) s
      = s.outcome (s.fieldChecks a) (s.withField d ((-(s.fVal a : Int)) % s.fMod a).toNat (s.readF a).tag)

/-- R144, R136, FINV: the Fermat power of a non-zero value, NoInverse of 0; and for a prime modulus the result is the
inverse: its product with the operand is 1. -/
def Obligations.FinvInvertsModuloP : Prop :=
  ∀ (s : State) (d a : FReg),
    exec (.finv d a) s
      = s.outcome (s.fieldChecks a ++ [(decide (s.fVal a ≠ 0), 4)])
          (s.withField d (s.fVal a ^ (s.fMod a - 2) % s.fMod a) (s.readF a).tag)
    ∧ (s.fieldReady a → s.fVal a ≠ 0 → (s.fMod a).Prime →
        s.fVal a * (s.fVal a ^ (s.fMod a - 2) % s.fMod a) % s.fMod a = 1)

/-- R145, FDIV: the product with the divisor's Fermat power, NoInverse of a zero divisor. -/
def Obligations.FdivDividesModuloP : Prop :=
  ∀ (s : State) (d a b : FReg),
    exec (.fdiv d a b) s
      = s.outcome (s.fieldPairChecks a b ++ [(decide (s.fVal b ≠ 0), 4)])
          (s.withField d (s.fVal a * s.fVal b ^ (s.fMod a - 2) % s.fMod a) (s.readF a).tag)

/-- R146, FPOW: the power by the immediate; an immediate of 0x80 or above is a negative exponent, rejected before the
operand is looked at. -/
def Obligations.FpowRaisesToTheImmediate : Prop :=
  ∀ (s : State) (d a : FReg) (imm : Byte),
    exec (.fpow d a imm) s
      = s.outcome ((decide (imm.toNat < 128), 5) :: s.fieldChecks a)
          (s.withField d (s.fVal a ^ imm.toNat % s.fMod a) (s.readF a).tag)

/-- R147, FRED: the 512-bit value of two K registers modulo the context's `P`, tagged with that context. -/
def Obligations.FredReducesDoubleWidth : Prop :=
  ∀ (s : State) (d : FReg) (hi lo : KReg) (c : CReg),
    exec (.fred d hi lo c) s
      = s.outcome [((s.readK hi).v && (s.readK lo).v, 17), (decide (s.ctxReady c), 18)]
          (s.withField d (((s.readK hi).val.toNat * 2 ^ 256 + (s.readK lo).val.toNat) % (s.readCtx c).p.toNat) c)

/-- R110: the pseudo-commands FMOV, FONE, FZERO and FSQR complete with the value, 1, 0 and the square, in the operand's
field, for every operand a field command accepts. -/
def Obligations.PseudoCommandsComputeTheirEffect : Prop :=
  ∀ (s : State) (d a : FReg), s.fieldReady a →
    exec (.fmov d a) s = .next (s.withField d (s.fVal a) (s.readF a).tag).succeeded
    ∧ exec (.fone d a) s = .next (s.withField d 1 (s.readF a).tag).succeeded
    ∧ exec (.fzero d a) s = .next (s.withField d 0 (s.readF a).tag).succeeded
    ∧ exec (.fsqr d a) s = .next (s.withField d (s.fVal a ^ 2 % s.fMod a) (s.readF a).tag).succeeded

/-! ## Point commands -/

/-- R190, PINF: the affine point at infinity of a usable context. -/
def Obligations.PinfLoadsInfinity : Prop :=
  ∀ (s : State) (d : PReg) (c : CReg),
    exec (.pinf d c) s = s.outcome [(decide (s.ctxReady c), 18)] (s.withInfinity d c)

/-- R191, PMAKE: the affine point of two field registers of the context's field. -/
def Obligations.PmakeBuildsAnAffinePoint : Prop :=
  ∀ (s : State) (d : PReg) (x y : FReg) (c : CReg),
    exec (.pmake d x y c) s
      = s.outcome
          [((s.readF x).v && (s.readF y).v, 17),
           (decide (s.ctxReady (s.readF x).tag) && decide (s.ctxReady (s.readF y).tag) && decide (s.ctxReady c), 18),
           (decide (s.fMod x = (s.readCtx c).p.toNat) && decide (s.fMod y = (s.readCtx c).p.toNat), 1),
           (decide (s.fVal x < (s.readCtx c).p.toNat) && decide (s.fVal y < (s.readCtx c).p.toNat), 3)]
          (s.withAffine d (s.fVal x) (s.fVal y) c)

/-- R192, PNEG: `(x, -y)`, infinity of infinity, NotImplemented of a Jacobian point. -/
def Obligations.PnegNegatesAffinePoints : Prop :=
  ∀ (s : State) (d a : PReg),
    exec (.pneg d a) s
      = s.outcome (s.pointChecks a [(decide ((s.readPt a).rep = .affine), 12)])
          (if (s.readPt a).inf = true then s.withInfinity d (s.readPt a).tag
          else s.withAffine d (s.readPt a).x.toNat ((-((s.readPt a).y.toNat : Int)) % s.ptMod a).toNat (s.readPt a).tag)

/-- R194, R193, PEQ: EQ is 1 iff the two values are both the affine infinity, or the same affine pair, or the same
Jacobian triple. -/
def Obligations.PeqComparesRawValues : Prop :=
  ∀ (s : State) (a b : PReg),
    exec (.peq a b) s
      = s.outcome (s.pointPairChecks a b)
          { s with
            eq := match (s.readPt a).rep with
              | .affine =>
                ((s.readPt a).inf && (s.readPt b).inf)
                || (!(s.readPt a).inf && !(s.readPt b).inf
                  && decide ((s.readPt a).x = (s.readPt b).x) && decide ((s.readPt a).y = (s.readPt b).y))
              | .jacobian =>
                decide ((s.readPt a).x = (s.readPt b).x) && decide ((s.readPt a).y = (s.readPt b).y)
                && decide ((s.readPt a).z = (s.readPt b).z) }

/-- R195, R175, R178, PADD of affine points: the identity, the tangent for equal points (NoInverse if `2y` is 0), infinity
for opposite points, and the chord otherwise (NoInverse for equal abscissae). The premise is the invariant
`LoadedContextsAlwaysHoldTheRom`: without it two contexts of one domain id could differ in `P`. -/
def Obligations.PaddAddsAffinePoints : Prop :=
  ∀ (s : State) (d a b : PReg), s.domainsHoldRom → (s.readPt a).rep = .affine →
    let r := s.readPt a
    let q := s.readPt b
    let p := s.ptMod a
    exec (.padd d a b) s
      = if r.inf = true ∧ q.inf = true then s.outcome (s.pointPairChecks a b) (s.withInfinity d r.tag)
        else if r.inf = true then s.outcome (s.pointPairChecks a b) (s.withAffine d q.x.toNat q.y.toNat r.tag)
        else if q.inf = true then s.outcome (s.pointPairChecks a b) (s.withAffine d r.x.toNat r.y.toNat r.tag)
        else if r.x = q.x ∧ r.y = q.y then
          s.outcome (s.pointPairChecks a b ++ [(decide (2 * r.y.toNat % p ≠ 0), 4)])
            (s.withLineSum d p (tangentSlope p (s.ptCoeffA a) r.x.toNat r.y.toNat) r.x.toNat r.y.toNat r.x.toNat r.tag)
        else if r.x = q.x ∧ (r.y.toNat + q.y.toNat) % p = 0 then
          s.outcome (s.pointPairChecks a b) (s.withInfinity d r.tag)
        else
          s.outcome (s.pointPairChecks a b ++ [(decide (r.x ≠ q.x), 4)])
            (s.withLineSum d p (chordSlope p r.x.toNat r.y.toNat q.x.toNat q.y.toNat) r.x.toNat r.y.toNat q.x.toNat
              r.tag)

/-- R195, R176, R177, PADD of Jacobian points: MixedAddPrecondition if `Z1 = 0` or `Z2 != 1`, DegenerateAdd if the affine
abscissae agree, and otherwise the mixed-add formula. The premise is the invariant `LoadedContextsAlwaysHoldTheRom`. -/
def Obligations.PaddMixedAddsJacobianPoints : Prop :=
  ∀ (s : State) (d a b : PReg), s.domainsHoldRom → (s.readPt a).rep = .jacobian →
    let x1 : Int := (s.readPt a).x.toNat
    let y1 : Int := (s.readPt a).y.toNat
    let z1 : Int := (s.readPt a).z.toNat
    let e : Int := (s.readPt b).x.toNat * z1 ^ 2 - x1
    let f : Int := (s.readPt b).y.toNat * z1 ^ 3 - y1
    let x3 : Int := f ^ 2 - e ^ 3 - 2 * x1 * e ^ 2
    exec (.padd d a b) s
      = s.outcome
          (s.pointPairChecks a b
            ++ [(decide ((s.readPt a).z ≠ 0 ∧ (s.readPt b).z = 1), 15), (decide (e % s.ptMod a ≠ 0), 14)])
          (s.withResidues d (s.ptMod a) x3 (f * (x1 * e ^ 2 - x3) - y1 * e ^ 3) (z1 * e) (s.readPt a).tag)

/-- R196, R178, R179, PDBL: the tangent of an affine point (infinity of infinity, NoInverse if `2y` is 0), the Jacobian
doubling formula of a Jacobian one (SelfNegationDouble if `Y` is 0). -/
def Obligations.PdblDoublesPoints : Prop :=
  ∀ (s : State) (d a : PReg),
    let r := s.readPt a
    let p := s.ptMod a
    let x : Int := r.x.toNat
    let y : Int := r.y.toNat
    let z : Int := r.z.toNat
    let m : Int := 3 * x ^ 2 + s.ptCoeffA a * z ^ 4
    let x3 : Int := m ^ 2 - 8 * (x * y ^ 2)
    exec (.pdbl d a) s
      = match r.rep with
        | .affine =>
          if r.inf = true then s.outcome (s.pointChecks a []) (s.withInfinity d r.tag)
          else s.outcome (s.pointChecks a [] ++ [(decide (2 * r.y.toNat % p ≠ 0), 4)])
            (s.withLineSum d p (tangentSlope p (s.ptCoeffA a) x y) x y x r.tag)
        | .jacobian =>
          s.outcome (s.pointChecks a [] ++ [(decide (r.y ≠ 0), 8)])
            (s.withResidues d p x3 (m * (4 * (x * y ^ 2) - x3) - 8 * y ^ 4) (2 * y * z) r.tag)

/-- R197, R180, PTOJ: `(x, y, 1)`, and `(1, 1, 0)` of infinity. -/
def Obligations.PtojConvertsToJacobian : Prop :=
  ∀ (s : State) (d a : PReg),
    exec (.ptoj d a) s
      = s.outcome (s.pointChecks a [(decide ((s.readPt a).rep = .affine), 7)])
          (if (s.readPt a).inf = true then s.withJacobian d 1 1 0 (s.readPt a).tag
          else s.withJacobian d (s.readPt a).x.toNat (s.readPt a).y.toNat 1 (s.readPt a).tag)

/-- R198, R181, PTOA: infinity of `(1, 1, 0)`, `(X, Y)` if `Z = 1`, `(X / Z², Y / Z³)` otherwise (the division by the Fermat
power), NoInverse if `Z` is 0. -/
def Obligations.PtoaConvertsToAffine : Prop :=
  ∀ (s : State) (d a : PReg),
    let r := s.readPt a
    let p := s.ptMod a
    let zi := r.z.toNat ^ (p - 2) % p
    exec (.ptoa d a) s
      = s.outcome
          (s.pointChecks a [(decide (r.rep = .jacobian), 7)]
            ++ [(decide ((r.x = 1 ∧ r.y = 1 ∧ r.z = 0) ∨ r.z ≠ 0), 4)])
          (if r.x = 1 ∧ r.y = 1 ∧ r.z = 0 then s.withInfinity d r.tag
          else if r.z = 1 then s.withAffine d r.x.toNat r.y.toNat r.tag
          else s.withAffine d (r.x.toNat * zi ^ 2 % p) (r.y.toNat * zi ^ 3 % p) r.tag)

/-- R182, R181: an affine point converted to Jacobian form and back is the same point, infinity included. -/
def Obligations.JacobianRoundTripKeepsThePoint : Prop :=
  ∀ (s : State) (d e a : PReg),
    (s.readPt a).v = true → s.ctxReady (s.readPt a).tag → (s.readPt a).rep = .affine → s.coordsInField a →
    ∃ t u, exec (.ptoj d a) s = .next t ∧ exec (.ptoa e d) t = .next u ∧ u.code = 0
      ∧ (u.readPt e).rep = .affine ∧ (u.readPt e).inf = (s.readPt a).inf ∧ (u.readPt e).tag = (s.readPt a).tag
      ∧ ((s.readPt a).inf = false → (u.readPt e).x = (s.readPt a).x ∧ (u.readPt e).y = (s.readPt a).y)

/-- R182: over a prime modulus, doubling a Jacobian point and converting the result is converting the point and doubling
it, wherever both return. -/
def Obligations.DoublingCommutesWithConversion : Prop :=
  ∀ (s t u v w : State) (a d e : PReg), (s.ptMod a).Prime →
    exec (.pdbl d a) s = .next t → t.code = 0 → exec (.ptoa d d) t = .next u → u.code = 0 →
    exec (.ptoa e a) s = .next v → v.code = 0 → exec (.pdbl e e) v = .next w → w.code = 0 →
    (s.readPt a).rep = .jacobian → w.readPt e = u.readPt d

/-- R182: over a prime modulus, the mixed addition of a Jacobian point and `(x, y, 1)`, converted, is the affine addition of
the converted point and `(x, y)`, wherever both return. -/
def Obligations.MixedAdditionCommutesWithConversion : Prop :=
  ∀ (s t u v w x : State) (a b d e f : PReg), s.domainsHoldRom → (s.ptMod a).Prime → e ≠ b → e ≠ f →
    (s.readPt a).rep = .jacobian → exec (.padd d a b) s = .next t → t.code = 0 →
    exec (.ptoa d d) t = .next u → u.code = 0 →
    exec (.ptoa e a) s = .next v → v.code = 0 → exec (.ptoa f b) v = .next w → w.code = 0 →
    exec (.padd e e f) w = .next x → x.code = 0 → x.readPt e = u.readPt d

/-! ## Scalar multiplication -/

/-- R226, the cases that use neither path's loop: infinity for `k = 0` and of infinity, the routed double for `k = 2` (infinity
where `2y` is 0), each for every operand the checks accept; and `k = 1` gives the point itself where it is not the
generator of a loaded context. -/
def Obligations.SmulSmallScalars : Prop :=
  ∀ (s : State) (d : PReg) (k : KReg) (a : PReg),
    let r := s.readPt a
    let p := s.ptMod a
    ((s.readK k).val = 0 ∨ r.inf = true →
      exec (.smul d k a) s = s.outcome (s.scalarChecks k a) (s.withInfinity d r.tag))
    ∧ ((s.readK k).val = 2 → r.inf = false →
      exec (.smul d k a) s
        = s.outcome (s.scalarChecks k a)
            (if 2 * r.y.toNat % p = 0 then s.withInfinity d r.tag
            else s.withLineSum d p (tangentSlope p (s.ptCoeffA a) r.x.toNat r.y.toNat) r.x.toNat r.y.toNat r.x.toNat
              r.tag))
    ∧ ((s.readK k).val = 1 → r.inf = false → ¬ s.holdsGenerator a →
      exec (.smul d k a) s = s.outcome (s.scalarChecks k a) (s.withAffine d r.x.toNat r.y.toNat r.tag))

/-- R298: with TVALID 0, SMUL of the generator of a loaded context by any scalar but 0 and 2, and SMULG of it by any
scalar, complete with TableUnavailable; SMUL does not fall back to the general path. -/
def Obligations.TableUnavailableStopsTheFastPath : Prop :=
  ∀ (s : State) (d : PReg) (k : KReg) (a : PReg), s.scalarReady k a → s.holdsGenerator a → s.tvalid = false →
    ((s.readK k).val ≠ 0 → (s.readK k).val ≠ 2 → exec (.smul d k a) s = .next (s.failed 13))
    ∧ exec (.smulg d k a) s = .next (s.failed 13)

/-- R227, R295: SMULG's checks in order, TableDomainMismatch for a point that is not the generator of a loaded context and
then TableUnavailable, in every case in which one fails; infinity for `k = 0`; and SMUL never raises
TableDomainMismatch. -/
def Obligations.SmulgChecksItsPoint : Prop :=
  ∀ (s : State) (d : PReg) (k : KReg) (a : PReg),
    let checks := s.scalarChecks k a ++ [(decide (s.holdsGenerator a), 10), (s.tvalid, 13)]
    ((s.readK k).val = 0 → exec (.smulg d k a) s = s.outcome checks (s.withInfinity d (s.readPt a).tag))
    ∧ ((∃ c ∈ checks, c.1 = false) → exec (.smulg d k a) s = s.outcome checks s)
    ∧ (∀ t, exec (.smul d k a) s = .next t → t.code ≠ 10)

/-- R223, R288: the fast path ignores the table entries whose bit of `k` is 0 and checks those whose bit is 1. Replacing the
unselected entries changes nothing in the outcome of SMUL and SMULG. A selected entry with a coordinate that is not below
`P`, where the lower selected entries are in range and `P` is prime (or no lower entry is selected), ends SMULG, and SMUL
where it takes the fast path, with InvalidFieldElement and no partial write. -/
def Obligations.OnlySelectedTableEntriesAreUsed : Prop :=
  ∀ (s : State) (d : PReg) (k : KReg) (a : PReg) (entries : Vector TableEntry 256),
    let selected := fun i : Fin 256 => (s.readK k).val.getLsbD i.val = true
    let inField := fun i : Fin 256 => (s.readTable i).x.toNat < s.ptMod a ∧ (s.readTable i).y.toNat < s.ptMod a
    ((∀ i, selected i → entries.get i = s.readTable i) →
      ∃ t u, exec (.smul d k a) s = .next t ∧ exec (.smulg d k a) s = .next u
        ∧ exec (.smul d k a) { s with table := entries } = .next { t with table := entries }
        ∧ exec (.smulg d k a) { s with table := entries } = .next { u with table := entries })
    ∧ (s.scalarReady k a → s.holdsGenerator a → s.tvalid = true →
      ∀ i, selected i → ¬ inField i → (∀ j, j < i → selected j → inField j) →
        ((s.ptMod a).Prime ∨ ∀ j, j < i → ¬ selected j) →
        exec (.smulg d k a) s = .next (s.failed 3)
        ∧ ((s.readK k).val ≠ 2 → exec (.smul d k a) s = .next (s.failed 3)))

/-- R225: for a point of the curve of a context with prime `P`, SMUL completes without error and leaves `k · P`, in affine
form and with the operand's tag, for every 256-bit `k`, where `·` is the group law of the library's Weierstrass curves;
nothing else changes. Here the operand is not the generator of a loaded context, so that no table is used. -/
def Obligations.SmulComputesTheGroupMultiple : Prop :=
  ∀ (p : Nat) [Fact p.Prime] (s : State) (d : PReg) (k : KReg) (a : PReg),
    s.scalarReady k a → s.ptMod a = p → ¬ s.holdsGenerator a →
    ∀ Q : (curveOf p (s.readCtx (s.readPt a).tag)).Point, holdsPoint (s.readPt a) Q →
    ∃ r : PointReg,
      exec (.smul d k a) s = .next (State.succeeded { s with pt := s.pt.set d.val r d.isLt })
      ∧ r.v = true ∧ r.tag = (s.readPt a).tag
      ∧ holdsPoint r ((s.readK k).val.toNat • Q)

/-- R225: with TVALID set and `TABLE[i]` holding `2^i · G`, SMUL and SMULG of the generator `G` of a loaded context with prime
`P` both complete without error and leave `k · G`, for every 256-bit `k`; nothing else changes. -/
def Obligations.GeneratorTableGivesTheGroupMultiple : Prop :=
  ∀ (p : Nat) [Fact p.Prime] (s : State) (d : PReg) (k : KReg) (a : PReg),
    s.scalarReady k a → s.ptMod a = p → s.holdsGenerator a → s.tvalid = true →
    ∀ G : (curveOf p (s.readCtx (s.readPt a).tag)).Point, holdsPoint (s.readPt a) G →
    (∀ i : Fin 256, entryHoldsPoint (s.readTable i) (2 ^ i.val • G)) →
    ∃ r : PointReg,
      exec (.smulg d k a) s = .next (State.succeeded { s with pt := s.pt.set d.val r d.isLt })
      ∧ r.v = true ∧ r.tag = (s.readPt a).tag
      ∧ holdsPoint r ((s.readK k).val.toNat • G)
      ∧ ∃ q : PointReg,
        exec (.smul d k a) s = .next (State.succeeded { s with pt := s.pt.set d.val q d.isLt })
        ∧ q.v = true ∧ q.tag = (s.readPt a).tag ∧ holdsPoint q ((s.readK k).val.toNat • G)

/-! ## Control, context and wire commands -/

/-- R250, NOP: completes with CODE 0 and writes nothing else. -/
def Obligations.NopOnlyCompletes : Prop := ∀ s : State, exec .nop s = .next { s with code := 0, busy := false, done := true }

/-- R251, R32, CTXLD: domain id 1 loads secp256k1's constants into the context without reading it; any other id completes
with InvalidContext. The digits of Gx, Gy and n are general knowledge, log entry 15 (PRESUMED). -/
def Obligations.CtxldLoadsSecp256k1 : Prop :=
  ∀ (s : State) (c : CReg) (dom : Byte),
    exec (.ctxld c dom) s
      = s.outcome [(decide (dom = 1), 18)]
          { s with
            ctx := s.ctx.set c.val
              { p := BitVec.ofNat 256 (2 ^ 256 - 2 ^ 32 - 2 ^ 9 - 2 ^ 8 - 2 ^ 7 - 2 ^ 6 - 2 ^ 4 - 1)
                a := 0
                b := 7
                gx := 0x79BE667EF9DCBBAC55A06295CE870B07029BFCDB2DCE28D959F2815B16F81798
                gy := 0x483ADA7726A3C4655DA4FBFC0E1108A8FD17B448A68554199C47D08FFB10D4B8
                n := 0xFFFFFFFFFFFFFFFFFFFFFFFFFFFFFFFEBAAEDCE6AF48A03BBFD25E8CD0364141
                h := 1
                dom := 1
                valid := true } c.isLt }

/-- R252, PDEC: the big-endian coordinates of the wire buffer, each below the context's modulus, behind the tag 0x04. -/
def Obligations.PdecDecodesTheWireBuffer : Prop :=
  ∀ (s : State) (d : PReg) (c : CReg),
    let p := (s.readCtx c).p.toNat
    exec (.pdec d c) s
      = s.outcome
          [(decide (s.ctxReady c), 18), (decide (s.wire.get 0 = 0x04), 11),
           (decide (s.wireNumber 1 < p) && decide (s.wireNumber 33 < p), 3)]
          (s.withAffine d (s.wireNumber 1) (s.wireNumber 33) c)

/-- R253, PENC: the tag 0x04 and the coordinates' bytes, most significant first; a Jacobian point and infinity have no
encoding. -/
def Obligations.PencEncodesIntoTheWireBuffer : Prop :=
  ∀ (s : State) (a : PReg), ∃ bytes : Vector Byte 65,
    exec (.penc a) s
      = s.outcome (s.pointChecks a [(decide ((s.readPt a).rep = .affine), 6), (!(s.readPt a).inf, 11)])
          { s with wire := bytes }
    ∧ bytes.get 0 = 0x04
    ∧ ∀ j : Fin 32,
        (bytes.get (Fin.ofNat 65 (1 + j.val))).toNat = (s.readPt a).x.toNat / 256 ^ (31 - j.val) % 256
        ∧ (bytes.get (Fin.ofNat 65 (33 + j.val))).toNat = (s.readPt a).y.toNat / 256 ^ (31 - j.val) % 256

/-- R253: PENC then PDEC with the same context returns the same affine point. -/
def Obligations.WireRoundTripKeepsThePoint : Prop :=
  ∀ (s : State) (a d : PReg),
    (s.readPt a).v = true → s.ctxReady (s.readPt a).tag → (s.readPt a).rep = .affine → (s.readPt a).inf = false →
    s.coordsInField a →
    ∃ t u, exec (.penc a) s = .next t ∧ t.code = 0 ∧ exec (.pdec d (s.readPt a).tag) t = .next u ∧ u.code = 0
      ∧ (u.readPt d).x = (s.readPt a).x ∧ (u.readPt d).y = (s.readPt a).y ∧ (u.readPt d).tag = (s.readPt a).tag
      ∧ (u.readPt d).rep = .affine ∧ (u.readPt d).inf = false
end

