-- ==== Sys2Proof/Laws/Arith.lean ====
section
/-! SUPPORT. The arithmetic primitives are the modular operations: each primitive's value in closed form, its bound, and
its image in the ring of integers modulo `p` (spec/41_field.md R133 to R137, R146, R150). -/

namespace Sys2Proof.Machine

theorem fadd_eq {p a b : Nat} (ha : a < p) (hb : b < p) : fadd p a b = (a + b) % p := by
  simp only [fadd]
  split
  · rw [show a + b = (a - (p - b)) + p by omega, Nat.add_mod_right, Nat.mod_eq_of_lt (by omega)]
  · rw [Nat.mod_eq_of_lt (by omega)]; omega

theorem fsub_eq {p a b : Nat} (ha : a < p) (hb : b ≤ p) : fsub p a b = (a + (p - b)) % p := by
  unfold fsub
  split
  · rw [show a + (p - b) = (a - b) + p by omega, Nat.add_mod_right, Nat.mod_eq_of_lt (by omega)]
  · rw [Nat.mod_eq_of_lt (by omega)]; omega

theorem fadd_lt {p a b : Nat} (ha : a < p) (hb : b < p) : fadd p a b < p := by
  rw [fadd_eq ha hb]; exact Nat.mod_lt _ (by omega)

theorem fsub_lt {p a b : Nat} (ha : a < p) (hb : b ≤ p) : fsub p a b < p := by
  rw [fsub_eq ha hb]; exact Nat.mod_lt _ (by omega)

theorem fmul_lt {p : Nat} (hp : 0 < p) (a b : Nat) : fmul p a b < p := Nat.mod_lt _ hp

theorem fmulSmall_eq (p c v : Nat) : fmulSmall p c v = c * v % p := by simp [fmulSmall, fmul, Nat.mod_mul_mod]

theorem fmulSmall_lt {p : Nat} (hp : 0 < p) (c v : Nat) : fmulSmall p c v < p := fmul_lt hp _ _

/-- Squaring and multiplying computes the exact power. -/
theorem powMod_eq (p fuel : Nat) : ∀ b e : Nat, e < 2 ^ fuel → powMod p fuel b e = b ^ e % p := by
  induction fuel with
  | zero =>
    intro b e he
    obtain rfl : e = 0 := by simpa using he
    simp [powMod]
  | succ n ih =>
    intro b e he
    have hlt : e / 2 < 2 ^ n := by omega
    have hsq : powMod p n (b * b % p) (e / 2) = b ^ (2 * (e / 2)) % p := by
      rw [ih _ _ hlt, ← Nat.pow_mod, ← pow_two, ← pow_mul]
    unfold powMod
    split
    · rw [hsq, Nat.mul_mod_mod, ← pow_succ', show 2 * (e / 2) + 1 = e by omega]
    · rw [hsq, show 2 * (e / 2) = e by omega]

/-- The inverter's value is the Fermat power, for every modulus a register can hold (R136). -/
theorem finv_eq {p b : Nat} (hp : p < 2 ^ 256) (hb : b ≠ 0) : finv p b = .ok (b ^ (p - 2) % p) := by
  simp [finv, hb, powMod_eq p 256 b (p - 2) (by omega)]

theorem finv_zero (p : Nat) : finv p 0 = .error .noInverse := rfl

/-- What the inverter can do: reject 0, or return the Fermat power. -/
theorem finv_cases {p b : Nat} (hp : p < 2 ^ 256) :
    (b = 0 ∧ finv p b = .error .noInverse) ∨ (b ≠ 0 ∧ finv p b = .ok (b ^ (p - 2) % p)) := by
  by_cases hb : b = 0
  · exact .inl ⟨hb, by rw [hb, finv_zero]⟩
  · exact .inr ⟨hb, finv_eq hp hb⟩

theorem fpowLoop_eq (p a e : Nat) : ∀ r : Nat, r < p → fpowLoop p a e r = r * a ^ e % p := by
  induction e with
  | zero => intro r hr; simp [fpowLoop, Nat.mod_eq_of_lt hr]
  | succ n ih =>
    intro r hr
    rw [fpowLoop, ih _ (fmul_lt (by omega) _ _), fmul, Nat.mod_mul_mod, pow_succ']
    congr 1; ring

/-- Repeated multiplication computes the exact power (R146). -/
theorem fpow_eq {p : Nat} (hp : 0 < p) (a e : Nat) : fpow p a e = a ^ e % p := by
  rw [fpow, fpowLoop_eq _ _ _ _ (Nat.mod_lt _ hp), Nat.mod_mul_mod, one_mul]

/-! ### The primitives in the integers modulo `p` -/

theorem cast_fadd {p a b : Nat} (ha : a < p) (hb : b < p) : ((fadd p a b : Nat) : ZMod p) = a + b := by
  rw [fadd_eq ha hb, ZMod.natCast_mod]; push_cast; ring

theorem cast_fsub {p a b : Nat} (ha : a < p) (hb : b ≤ p) : ((fsub p a b : Nat) : ZMod p) = a - b := by
  rw [fsub_eq ha hb, ZMod.natCast_mod, Nat.cast_add, Nat.cast_sub hb]; simp; ring

theorem cast_fmul (p a b : Nat) : ((fmul p a b : Nat) : ZMod p) = a * b := by
  rw [fmul, ZMod.natCast_mod]; push_cast; ring

theorem cast_fmulSmall (p c v : Nat) : ((fmulSmall p c v : Nat) : ZMod p) = c * v := by
  rw [fmulSmall_eq, ZMod.natCast_mod]; push_cast; ring

/-- Two field values are equal iff they are equal modulo `p`. -/
theorem cast_inj {p x y : Nat} (hx : x < p) (hy : y < p) : ((x : Nat) : ZMod p) = y ↔ x = y := by
  rw [ZMod.natCast_eq_natCast_iff', Nat.mod_eq_of_lt hx, Nat.mod_eq_of_lt hy]

/-- A field value is 0 iff it is 0 modulo `p`. -/
theorem cast_eq_zero {p x : Nat} (hx : x < p) : ((x : Nat) : ZMod p) = 0 ↔ x = 0 := by
  have := cast_inj hx (Nat.lt_of_le_of_lt (Nat.zero_le x) hx)
  simpa using this

/-- A field value is the residue of any integer it is congruent to. -/
theorem eq_residue {p x : Nat} {z : Int} (hx : x < p) (h : ((x : Nat) : ZMod p) = (z : ZMod p)) :
    x = (z % (p : Int)).toNat := by
  have h1 : ((x : Int) : ZMod p) = (z : ZMod p) := by simpa using h
  rw [ZMod.intCast_eq_intCast_iff] at h1
  have h2 : (x : Int) % p = z % p := h1
  rw [Int.emod_eq_of_lt (by positivity) (by exact_mod_cast hx)] at h2
  omega

/-- For a prime modulus the Fermat power is the inverse (R136). -/
theorem cast_fermat {p b : Nat} [Fact p.Prime] (hb : (b : ZMod p) ≠ 0) :
    ((b ^ (p - 2) % p : Nat) : ZMod p) = (b : ZMod p)⁻¹ := by
  rw [ZMod.natCast_mod, Nat.cast_pow]
  have h2 : 2 ≤ p := (Fact.out : p.Prime).two_le
  have h := ZMod.pow_card_sub_one_eq_one hb
  rw [show p - 1 = (p - 2) + 1 by omega, pow_succ] at h
  exact eq_inv_of_mul_eq_one_left h

end Sys2Proof.Machine
end

