-- ==== Sys2Proof/Laws/State.lean ====
section
/-! SUPPORT. One lemma per field of State per update, and what reading a register file gives after a write of it. -/

namespace Sys2Proof.Machine

/-! ### `State.writeF` -/

@[simp] theorem State.writeF_f (s : State) (i : FReg) (r : FieldReg) : (s.writeF i r).f = s.f.set i.val r i.isLt := rfl
@[simp] theorem State.writeF_pt (s : State) (i : FReg) (r : FieldReg) : (s.writeF i r).pt = s.pt := rfl
@[simp] theorem State.writeF_k (s : State) (i : FReg) (r : FieldReg) : (s.writeF i r).k = s.k := rfl
@[simp] theorem State.writeF_ctx (s : State) (i : FReg) (r : FieldReg) : (s.writeF i r).ctx = s.ctx := rfl
@[simp] theorem State.writeF_table (s : State) (i : FReg) (r : FieldReg) : (s.writeF i r).table = s.table := rfl
@[simp] theorem State.writeF_wire (s : State) (i : FReg) (r : FieldReg) : (s.writeF i r).wire = s.wire := rfl
@[simp] theorem State.writeF_ie (s : State) (i : FReg) (r : FieldReg) : (s.writeF i r).ie = s.ie := rfl
@[simp] theorem State.writeF_tvalid (s : State) (i : FReg) (r : FieldReg) : (s.writeF i r).tvalid = s.tvalid := rfl
@[simp] theorem State.writeF_busy (s : State) (i : FReg) (r : FieldReg) : (s.writeF i r).busy = s.busy := rfl
@[simp] theorem State.writeF_done (s : State) (i : FReg) (r : FieldReg) : (s.writeF i r).done = s.done := rfl
@[simp] theorem State.writeF_err (s : State) (i : FReg) (r : FieldReg) : (s.writeF i r).err = s.err := rfl
@[simp] theorem State.writeF_eq (s : State) (i : FReg) (r : FieldReg) : (s.writeF i r).eq = s.eq := rfl
@[simp] theorem State.writeF_ovf (s : State) (i : FReg) (r : FieldReg) : (s.writeF i r).ovf = s.ovf := rfl
@[simp] theorem State.writeF_code (s : State) (i : FReg) (r : FieldReg) : (s.writeF i r).code = s.code := rfl
@[simp] theorem State.writeF_cmd (s : State) (i : FReg) (r : FieldReg) : (s.writeF i r).cmd = s.cmd := rfl
@[simp] theorem State.writeF_errcmd (s : State) (i : FReg) (r : FieldReg) : (s.writeF i r).errcmd = s.errcmd := rfl
@[simp] theorem State.writeF_inputs (s : State) (i : FReg) (r : FieldReg) : (s.writeF i r).inputs = s.inputs := rfl
@[simp] theorem State.writeF_rdata (s : State) (i : FReg) (r : FieldReg) : (s.writeF i r).rdata = s.rdata := rfl
@[simp] theorem State.writeF_draws (s : State) (i : FReg) (r : FieldReg) : (s.writeF i r).draws = s.draws := rfl

/-! ### `State.writePt` -/

@[simp] theorem State.writePt_f (s : State) (i : PReg) (r : PointReg) : (s.writePt i r).f = s.f := rfl
@[simp] theorem State.writePt_pt (s : State) (i : PReg) (r : PointReg) : (s.writePt i r).pt = s.pt.set i.val r i.isLt := rfl
@[simp] theorem State.writePt_k (s : State) (i : PReg) (r : PointReg) : (s.writePt i r).k = s.k := rfl
@[simp] theorem State.writePt_ctx (s : State) (i : PReg) (r : PointReg) : (s.writePt i r).ctx = s.ctx := rfl
@[simp] theorem State.writePt_table (s : State) (i : PReg) (r : PointReg) : (s.writePt i r).table = s.table := rfl
@[simp] theorem State.writePt_wire (s : State) (i : PReg) (r : PointReg) : (s.writePt i r).wire = s.wire := rfl
@[simp] theorem State.writePt_ie (s : State) (i : PReg) (r : PointReg) : (s.writePt i r).ie = s.ie := rfl
@[simp] theorem State.writePt_tvalid (s : State) (i : PReg) (r : PointReg) : (s.writePt i r).tvalid = s.tvalid := rfl
@[simp] theorem State.writePt_busy (s : State) (i : PReg) (r : PointReg) : (s.writePt i r).busy = s.busy := rfl
@[simp] theorem State.writePt_done (s : State) (i : PReg) (r : PointReg) : (s.writePt i r).done = s.done := rfl
@[simp] theorem State.writePt_err (s : State) (i : PReg) (r : PointReg) : (s.writePt i r).err = s.err := rfl
@[simp] theorem State.writePt_eq (s : State) (i : PReg) (r : PointReg) : (s.writePt i r).eq = s.eq := rfl
@[simp] theorem State.writePt_ovf (s : State) (i : PReg) (r : PointReg) : (s.writePt i r).ovf = s.ovf := rfl
@[simp] theorem State.writePt_code (s : State) (i : PReg) (r : PointReg) : (s.writePt i r).code = s.code := rfl
@[simp] theorem State.writePt_cmd (s : State) (i : PReg) (r : PointReg) : (s.writePt i r).cmd = s.cmd := rfl
@[simp] theorem State.writePt_errcmd (s : State) (i : PReg) (r : PointReg) : (s.writePt i r).errcmd = s.errcmd := rfl
@[simp] theorem State.writePt_inputs (s : State) (i : PReg) (r : PointReg) : (s.writePt i r).inputs = s.inputs := rfl
@[simp] theorem State.writePt_rdata (s : State) (i : PReg) (r : PointReg) : (s.writePt i r).rdata = s.rdata := rfl
@[simp] theorem State.writePt_draws (s : State) (i : PReg) (r : PointReg) : (s.writePt i r).draws = s.draws := rfl

/-! ### `State.writeK` -/

@[simp] theorem State.writeK_f (s : State) (i : KReg) (r : ScalarReg) : (s.writeK i r).f = s.f := rfl
@[simp] theorem State.writeK_pt (s : State) (i : KReg) (r : ScalarReg) : (s.writeK i r).pt = s.pt := rfl
@[simp] theorem State.writeK_k (s : State) (i : KReg) (r : ScalarReg) : (s.writeK i r).k = s.k.set i.val r i.isLt := rfl
@[simp] theorem State.writeK_ctx (s : State) (i : KReg) (r : ScalarReg) : (s.writeK i r).ctx = s.ctx := rfl
@[simp] theorem State.writeK_table (s : State) (i : KReg) (r : ScalarReg) : (s.writeK i r).table = s.table := rfl
@[simp] theorem State.writeK_wire (s : State) (i : KReg) (r : ScalarReg) : (s.writeK i r).wire = s.wire := rfl
@[simp] theorem State.writeK_ie (s : State) (i : KReg) (r : ScalarReg) : (s.writeK i r).ie = s.ie := rfl
@[simp] theorem State.writeK_tvalid (s : State) (i : KReg) (r : ScalarReg) : (s.writeK i r).tvalid = s.tvalid := rfl
@[simp] theorem State.writeK_busy (s : State) (i : KReg) (r : ScalarReg) : (s.writeK i r).busy = s.busy := rfl
@[simp] theorem State.writeK_done (s : State) (i : KReg) (r : ScalarReg) : (s.writeK i r).done = s.done := rfl
@[simp] theorem State.writeK_err (s : State) (i : KReg) (r : ScalarReg) : (s.writeK i r).err = s.err := rfl
@[simp] theorem State.writeK_eq (s : State) (i : KReg) (r : ScalarReg) : (s.writeK i r).eq = s.eq := rfl
@[simp] theorem State.writeK_ovf (s : State) (i : KReg) (r : ScalarReg) : (s.writeK i r).ovf = s.ovf := rfl
@[simp] theorem State.writeK_code (s : State) (i : KReg) (r : ScalarReg) : (s.writeK i r).code = s.code := rfl
@[simp] theorem State.writeK_cmd (s : State) (i : KReg) (r : ScalarReg) : (s.writeK i r).cmd = s.cmd := rfl
@[simp] theorem State.writeK_errcmd (s : State) (i : KReg) (r : ScalarReg) : (s.writeK i r).errcmd = s.errcmd := rfl
@[simp] theorem State.writeK_inputs (s : State) (i : KReg) (r : ScalarReg) : (s.writeK i r).inputs = s.inputs := rfl
@[simp] theorem State.writeK_rdata (s : State) (i : KReg) (r : ScalarReg) : (s.writeK i r).rdata = s.rdata := rfl
@[simp] theorem State.writeK_draws (s : State) (i : KReg) (r : ScalarReg) : (s.writeK i r).draws = s.draws := rfl

/-! ### `State.writeCtx` -/

@[simp] theorem State.writeCtx_f (s : State) (c : CReg) (r : Context) : (s.writeCtx c r).f = s.f := rfl
@[simp] theorem State.writeCtx_pt (s : State) (c : CReg) (r : Context) : (s.writeCtx c r).pt = s.pt := rfl
@[simp] theorem State.writeCtx_k (s : State) (c : CReg) (r : Context) : (s.writeCtx c r).k = s.k := rfl
@[simp] theorem State.writeCtx_ctx (s : State) (c : CReg) (r : Context) : (s.writeCtx c r).ctx = s.ctx.set c.val r c.isLt := rfl
@[simp] theorem State.writeCtx_table (s : State) (c : CReg) (r : Context) : (s.writeCtx c r).table = s.table := rfl
@[simp] theorem State.writeCtx_wire (s : State) (c : CReg) (r : Context) : (s.writeCtx c r).wire = s.wire := rfl
@[simp] theorem State.writeCtx_ie (s : State) (c : CReg) (r : Context) : (s.writeCtx c r).ie = s.ie := rfl
@[simp] theorem State.writeCtx_tvalid (s : State) (c : CReg) (r : Context) : (s.writeCtx c r).tvalid = s.tvalid := rfl
@[simp] theorem State.writeCtx_busy (s : State) (c : CReg) (r : Context) : (s.writeCtx c r).busy = s.busy := rfl
@[simp] theorem State.writeCtx_done (s : State) (c : CReg) (r : Context) : (s.writeCtx c r).done = s.done := rfl
@[simp] theorem State.writeCtx_err (s : State) (c : CReg) (r : Context) : (s.writeCtx c r).err = s.err := rfl
@[simp] theorem State.writeCtx_eq (s : State) (c : CReg) (r : Context) : (s.writeCtx c r).eq = s.eq := rfl
@[simp] theorem State.writeCtx_ovf (s : State) (c : CReg) (r : Context) : (s.writeCtx c r).ovf = s.ovf := rfl
@[simp] theorem State.writeCtx_code (s : State) (c : CReg) (r : Context) : (s.writeCtx c r).code = s.code := rfl
@[simp] theorem State.writeCtx_cmd (s : State) (c : CReg) (r : Context) : (s.writeCtx c r).cmd = s.cmd := rfl
@[simp] theorem State.writeCtx_errcmd (s : State) (c : CReg) (r : Context) : (s.writeCtx c r).errcmd = s.errcmd := rfl
@[simp] theorem State.writeCtx_inputs (s : State) (c : CReg) (r : Context) : (s.writeCtx c r).inputs = s.inputs := rfl
@[simp] theorem State.writeCtx_rdata (s : State) (c : CReg) (r : Context) : (s.writeCtx c r).rdata = s.rdata := rfl
@[simp] theorem State.writeCtx_draws (s : State) (c : CReg) (r : Context) : (s.writeCtx c r).draws = s.draws := rfl

/-! ### `State.writeTable` -/

@[simp] theorem State.writeTable_f (s : State) (i : Fin 256) (r : TableEntry) : (s.writeTable i r).f = s.f := rfl
@[simp] theorem State.writeTable_pt (s : State) (i : Fin 256) (r : TableEntry) : (s.writeTable i r).pt = s.pt := rfl
@[simp] theorem State.writeTable_k (s : State) (i : Fin 256) (r : TableEntry) : (s.writeTable i r).k = s.k := rfl
@[simp] theorem State.writeTable_ctx (s : State) (i : Fin 256) (r : TableEntry) : (s.writeTable i r).ctx = s.ctx := rfl
@[simp] theorem State.writeTable_table (s : State) (i : Fin 256) (r : TableEntry) : (s.writeTable i r).table = s.table.set i.val r i.isLt := rfl
@[simp] theorem State.writeTable_wire (s : State) (i : Fin 256) (r : TableEntry) : (s.writeTable i r).wire = s.wire := rfl
@[simp] theorem State.writeTable_ie (s : State) (i : Fin 256) (r : TableEntry) : (s.writeTable i r).ie = s.ie := rfl
@[simp] theorem State.writeTable_tvalid (s : State) (i : Fin 256) (r : TableEntry) : (s.writeTable i r).tvalid = s.tvalid := rfl
@[simp] theorem State.writeTable_busy (s : State) (i : Fin 256) (r : TableEntry) : (s.writeTable i r).busy = s.busy := rfl
@[simp] theorem State.writeTable_done (s : State) (i : Fin 256) (r : TableEntry) : (s.writeTable i r).done = s.done := rfl
@[simp] theorem State.writeTable_err (s : State) (i : Fin 256) (r : TableEntry) : (s.writeTable i r).err = s.err := rfl
@[simp] theorem State.writeTable_eq (s : State) (i : Fin 256) (r : TableEntry) : (s.writeTable i r).eq = s.eq := rfl
@[simp] theorem State.writeTable_ovf (s : State) (i : Fin 256) (r : TableEntry) : (s.writeTable i r).ovf = s.ovf := rfl
@[simp] theorem State.writeTable_code (s : State) (i : Fin 256) (r : TableEntry) : (s.writeTable i r).code = s.code := rfl
@[simp] theorem State.writeTable_cmd (s : State) (i : Fin 256) (r : TableEntry) : (s.writeTable i r).cmd = s.cmd := rfl
@[simp] theorem State.writeTable_errcmd (s : State) (i : Fin 256) (r : TableEntry) : (s.writeTable i r).errcmd = s.errcmd := rfl
@[simp] theorem State.writeTable_inputs (s : State) (i : Fin 256) (r : TableEntry) : (s.writeTable i r).inputs = s.inputs := rfl
@[simp] theorem State.writeTable_rdata (s : State) (i : Fin 256) (r : TableEntry) : (s.writeTable i r).rdata = s.rdata := rfl
@[simp] theorem State.writeTable_draws (s : State) (i : Fin 256) (r : TableEntry) : (s.writeTable i r).draws = s.draws := rfl

/-! ### `State.writeWire` -/

@[simp] theorem State.writeWire_f (s : State) (j : Fin 65) (b : Byte) : (s.writeWire j b).f = s.f := rfl
@[simp] theorem State.writeWire_pt (s : State) (j : Fin 65) (b : Byte) : (s.writeWire j b).pt = s.pt := rfl
@[simp] theorem State.writeWire_k (s : State) (j : Fin 65) (b : Byte) : (s.writeWire j b).k = s.k := rfl
@[simp] theorem State.writeWire_ctx (s : State) (j : Fin 65) (b : Byte) : (s.writeWire j b).ctx = s.ctx := rfl
@[simp] theorem State.writeWire_table (s : State) (j : Fin 65) (b : Byte) : (s.writeWire j b).table = s.table := rfl
@[simp] theorem State.writeWire_wire (s : State) (j : Fin 65) (b : Byte) : (s.writeWire j b).wire = s.wire.set j.val b j.isLt := rfl
@[simp] theorem State.writeWire_ie (s : State) (j : Fin 65) (b : Byte) : (s.writeWire j b).ie = s.ie := rfl
@[simp] theorem State.writeWire_tvalid (s : State) (j : Fin 65) (b : Byte) : (s.writeWire j b).tvalid = s.tvalid := rfl
@[simp] theorem State.writeWire_busy (s : State) (j : Fin 65) (b : Byte) : (s.writeWire j b).busy = s.busy := rfl
@[simp] theorem State.writeWire_done (s : State) (j : Fin 65) (b : Byte) : (s.writeWire j b).done = s.done := rfl
@[simp] theorem State.writeWire_err (s : State) (j : Fin 65) (b : Byte) : (s.writeWire j b).err = s.err := rfl
@[simp] theorem State.writeWire_eq (s : State) (j : Fin 65) (b : Byte) : (s.writeWire j b).eq = s.eq := rfl
@[simp] theorem State.writeWire_ovf (s : State) (j : Fin 65) (b : Byte) : (s.writeWire j b).ovf = s.ovf := rfl
@[simp] theorem State.writeWire_code (s : State) (j : Fin 65) (b : Byte) : (s.writeWire j b).code = s.code := rfl
@[simp] theorem State.writeWire_cmd (s : State) (j : Fin 65) (b : Byte) : (s.writeWire j b).cmd = s.cmd := rfl
@[simp] theorem State.writeWire_errcmd (s : State) (j : Fin 65) (b : Byte) : (s.writeWire j b).errcmd = s.errcmd := rfl
@[simp] theorem State.writeWire_inputs (s : State) (j : Fin 65) (b : Byte) : (s.writeWire j b).inputs = s.inputs := rfl
@[simp] theorem State.writeWire_rdata (s : State) (j : Fin 65) (b : Byte) : (s.writeWire j b).rdata = s.rdata := rfl
@[simp] theorem State.writeWire_draws (s : State) (j : Fin 65) (b : Byte) : (s.writeWire j b).draws = s.draws := rfl

/-! ### `State.accept` -/

@[simp] theorem State.accept_f (s : State) (w : Word) : (s.accept w).f = s.f := rfl
@[simp] theorem State.accept_pt (s : State) (w : Word) : (s.accept w).pt = s.pt := rfl
@[simp] theorem State.accept_k (s : State) (w : Word) : (s.accept w).k = s.k := rfl
@[simp] theorem State.accept_ctx (s : State) (w : Word) : (s.accept w).ctx = s.ctx := rfl
@[simp] theorem State.accept_table (s : State) (w : Word) : (s.accept w).table = s.table := rfl
@[simp] theorem State.accept_wire (s : State) (w : Word) : (s.accept w).wire = s.wire := rfl
@[simp] theorem State.accept_ie (s : State) (w : Word) : (s.accept w).ie = s.ie := rfl
@[simp] theorem State.accept_tvalid (s : State) (w : Word) : (s.accept w).tvalid = s.tvalid := rfl
@[simp] theorem State.accept_busy (s : State) (w : Word) : (s.accept w).busy = true := rfl
@[simp] theorem State.accept_done (s : State) (w : Word) : (s.accept w).done = false := rfl
@[simp] theorem State.accept_err (s : State) (w : Word) : (s.accept w).err = s.err := rfl
@[simp] theorem State.accept_eq (s : State) (w : Word) : (s.accept w).eq = s.eq := rfl
@[simp] theorem State.accept_ovf (s : State) (w : Word) : (s.accept w).ovf = s.ovf := rfl
@[simp] theorem State.accept_code (s : State) (w : Word) : (s.accept w).code = s.code := rfl
@[simp] theorem State.accept_cmd (s : State) (w : Word) : (s.accept w).cmd = w := rfl
@[simp] theorem State.accept_errcmd (s : State) (w : Word) : (s.accept w).errcmd = s.errcmd := rfl
@[simp] theorem State.accept_inputs (s : State) (w : Word) : (s.accept w).inputs = s.inputs := rfl
@[simp] theorem State.accept_rdata (s : State) (w : Word) : (s.accept w).rdata = s.rdata := rfl
@[simp] theorem State.accept_draws (s : State) (w : Word) : (s.accept w).draws = s.draws := rfl

/-! ### `State.completeOk` -/

@[simp] theorem State.completeOk_f (s : State) : s.completeOk.f = s.f := rfl
@[simp] theorem State.completeOk_pt (s : State) : s.completeOk.pt = s.pt := rfl
@[simp] theorem State.completeOk_k (s : State) : s.completeOk.k = s.k := rfl
@[simp] theorem State.completeOk_ctx (s : State) : s.completeOk.ctx = s.ctx := rfl
@[simp] theorem State.completeOk_table (s : State) : s.completeOk.table = s.table := rfl
@[simp] theorem State.completeOk_wire (s : State) : s.completeOk.wire = s.wire := rfl
@[simp] theorem State.completeOk_ie (s : State) : s.completeOk.ie = s.ie := rfl
@[simp] theorem State.completeOk_tvalid (s : State) : s.completeOk.tvalid = s.tvalid := rfl
@[simp] theorem State.completeOk_busy (s : State) : s.completeOk.busy = false := rfl
@[simp] theorem State.completeOk_done (s : State) : s.completeOk.done = true := rfl
@[simp] theorem State.completeOk_err (s : State) : s.completeOk.err = s.err := rfl
@[simp] theorem State.completeOk_eq (s : State) : s.completeOk.eq = s.eq := rfl
@[simp] theorem State.completeOk_ovf (s : State) : s.completeOk.ovf = s.ovf := rfl
@[simp] theorem State.completeOk_code (s : State) : s.completeOk.code = 0 := rfl
@[simp] theorem State.completeOk_cmd (s : State) : s.completeOk.cmd = s.cmd := rfl
@[simp] theorem State.completeOk_errcmd (s : State) : s.completeOk.errcmd = s.errcmd := rfl
@[simp] theorem State.completeOk_inputs (s : State) : s.completeOk.inputs = s.inputs := rfl
@[simp] theorem State.completeOk_rdata (s : State) : s.completeOk.rdata = s.rdata := rfl
@[simp] theorem State.completeOk_draws (s : State) : s.completeOk.draws = s.draws := rfl

/-! ### `State.completeErr` -/

@[simp] theorem State.completeErr_f (s : State) (e : Err) : (s.completeErr e).f = s.f := rfl
@[simp] theorem State.completeErr_pt (s : State) (e : Err) : (s.completeErr e).pt = s.pt := rfl
@[simp] theorem State.completeErr_k (s : State) (e : Err) : (s.completeErr e).k = s.k := rfl
@[simp] theorem State.completeErr_ctx (s : State) (e : Err) : (s.completeErr e).ctx = s.ctx := rfl
@[simp] theorem State.completeErr_table (s : State) (e : Err) : (s.completeErr e).table = s.table := rfl
@[simp] theorem State.completeErr_wire (s : State) (e : Err) : (s.completeErr e).wire = s.wire := rfl
@[simp] theorem State.completeErr_ie (s : State) (e : Err) : (s.completeErr e).ie = s.ie := rfl
@[simp] theorem State.completeErr_tvalid (s : State) (e : Err) : (s.completeErr e).tvalid = s.tvalid := rfl
@[simp] theorem State.completeErr_busy (s : State) (e : Err) : (s.completeErr e).busy = false := rfl
@[simp] theorem State.completeErr_done (s : State) (e : Err) : (s.completeErr e).done = true := rfl
@[simp] theorem State.completeErr_err (s : State) (e : Err) : (s.completeErr e).err = true := rfl
@[simp] theorem State.completeErr_eq (s : State) (e : Err) : (s.completeErr e).eq = s.eq := rfl
@[simp] theorem State.completeErr_ovf (s : State) (e : Err) : (s.completeErr e).ovf = s.ovf := rfl
@[simp] theorem State.completeErr_code (s : State) (e : Err) : (s.completeErr e).code = e.code := rfl
@[simp] theorem State.completeErr_cmd (s : State) (e : Err) : (s.completeErr e).cmd = s.cmd := rfl
@[simp] theorem State.completeErr_errcmd (s : State) (e : Err) : (s.completeErr e).errcmd = s.cmd := rfl
@[simp] theorem State.completeErr_inputs (s : State) (e : Err) : (s.completeErr e).inputs = s.inputs := rfl
@[simp] theorem State.completeErr_rdata (s : State) (e : Err) : (s.completeErr e).rdata = s.rdata := rfl
@[simp] theorem State.completeErr_draws (s : State) (e : Err) : (s.completeErr e).draws = s.draws := rfl

/-! ### Register files: a read after a write -/

theorem vector_get_set_eq {α : Type} {n : Nat} (v : Vector α n) (i : Fin n) (x : α) :
    (v.set i.val x i.isLt).get i = x := by
  simp [Vector.get_eq_getElem]

theorem vector_get_set_ne {α : Type} {n : Nat} (v : Vector α n) (i j : Fin n) (x : α) (h : i ≠ j) :
    (v.set i.val x i.isLt).get j = v.get j := by
  have : i.val ≠ j.val := fun e => h (Fin.ext e)
  simp [Vector.get_eq_getElem, this]

@[simp] theorem State.readF_writeF (s : State) (i : FReg) (r : FieldReg) : (s.writeF i r).readF i = r :=
  vector_get_set_eq ..

theorem State.readF_writeF_ne (s : State) (i j : FReg) (r : FieldReg) (h : i ≠ j) :
    (s.writeF i r).readF j = s.readF j :=
  vector_get_set_ne _ _ _ _ h

@[simp] theorem State.readPt_writePt (s : State) (i : PReg) (r : PointReg) : (s.writePt i r).readPt i = r :=
  vector_get_set_eq ..

theorem State.readPt_writePt_ne (s : State) (i j : PReg) (r : PointReg) (h : i ≠ j) :
    (s.writePt i r).readPt j = s.readPt j :=
  vector_get_set_ne _ _ _ _ h

@[simp] theorem State.readK_writeK (s : State) (i : KReg) (r : ScalarReg) : (s.writeK i r).readK i = r :=
  vector_get_set_eq ..

theorem State.readK_writeK_ne (s : State) (i j : KReg) (r : ScalarReg) (h : i ≠ j) :
    (s.writeK i r).readK j = s.readK j :=
  vector_get_set_ne _ _ _ _ h

@[simp] theorem State.readCtx_writeCtx (s : State) (i : CReg) (r : Context) : (s.writeCtx i r).readCtx i = r :=
  vector_get_set_eq ..

theorem State.readCtx_writeCtx_ne (s : State) (i j : CReg) (r : Context) (h : i ≠ j) :
    (s.writeCtx i r).readCtx j = s.readCtx j :=
  vector_get_set_ne _ _ _ _ h

@[simp] theorem State.readTable_writeTable (s : State) (i : Fin 256) (r : TableEntry) : (s.writeTable i r).readTable i = r :=
  vector_get_set_eq ..

theorem State.readTable_writeTable_ne (s : State) (i j : Fin 256) (r : TableEntry) (h : i ≠ j) :
    (s.writeTable i r).readTable j = s.readTable j :=
  vector_get_set_ne _ _ _ _ h

@[simp] theorem State.readWire_writeWire (s : State) (i : Fin 65) (r : Byte) : (s.writeWire i r).readWire i = r :=
  vector_get_set_eq ..

theorem State.readWire_writeWire_ne (s : State) (i j : Fin 65) (r : Byte) (h : i ≠ j) :
    (s.writeWire i r).readWire j = s.readWire j :=
  vector_get_set_ne _ _ _ _ h

/-! ### Register files: a read after a write of something else -/

@[simp] theorem State.readF_writePt (s : State) (i : PReg) (r : PointReg) (n : FReg) : (s.writePt i r).readF n = s.readF n := rfl
@[simp] theorem State.readF_writeK (s : State) (i : KReg) (r : ScalarReg) (n : FReg) : (s.writeK i r).readF n = s.readF n := rfl
@[simp] theorem State.readF_writeCtx (s : State) (c : CReg) (r : Context) (n : FReg) : (s.writeCtx c r).readF n = s.readF n := rfl
@[simp] theorem State.readF_writeTable (s : State) (i : Fin 256) (r : TableEntry) (n : FReg) : (s.writeTable i r).readF n = s.readF n := rfl
@[simp] theorem State.readF_writeWire (s : State) (j : Fin 65) (b : Byte) (n : FReg) : (s.writeWire j b).readF n = s.readF n := rfl
@[simp] theorem State.readF_accept (s : State) (w : Word) (n : FReg) : (s.accept w).readF n = s.readF n := rfl
@[simp] theorem State.readF_completeOk (s : State)  (n : FReg) : (s.completeOk ).readF n = s.readF n := rfl
@[simp] theorem State.readF_completeErr (s : State) (e : Err) (n : FReg) : (s.completeErr e).readF n = s.readF n := rfl
@[simp] theorem State.readPt_writeF (s : State) (i : FReg) (r : FieldReg) (n : PReg) : (s.writeF i r).readPt n = s.readPt n := rfl
@[simp] theorem State.readPt_writeK (s : State) (i : KReg) (r : ScalarReg) (n : PReg) : (s.writeK i r).readPt n = s.readPt n := rfl
@[simp] theorem State.readPt_writeCtx (s : State) (c : CReg) (r : Context) (n : PReg) : (s.writeCtx c r).readPt n = s.readPt n := rfl
@[simp] theorem State.readPt_writeTable (s : State) (i : Fin 256) (r : TableEntry) (n : PReg) : (s.writeTable i r).readPt n = s.readPt n := rfl
@[simp] theorem State.readPt_writeWire (s : State) (j : Fin 65) (b : Byte) (n : PReg) : (s.writeWire j b).readPt n = s.readPt n := rfl
@[simp] theorem State.readPt_accept (s : State) (w : Word) (n : PReg) : (s.accept w).readPt n = s.readPt n := rfl
@[simp] theorem State.readPt_completeOk (s : State)  (n : PReg) : (s.completeOk ).readPt n = s.readPt n := rfl
@[simp] theorem State.readPt_completeErr (s : State) (e : Err) (n : PReg) : (s.completeErr e).readPt n = s.readPt n := rfl
@[simp] theorem State.readK_writeF (s : State) (i : FReg) (r : FieldReg) (n : KReg) : (s.writeF i r).readK n = s.readK n := rfl
@[simp] theorem State.readK_writePt (s : State) (i : PReg) (r : PointReg) (n : KReg) : (s.writePt i r).readK n = s.readK n := rfl
@[simp] theorem State.readK_writeCtx (s : State) (c : CReg) (r : Context) (n : KReg) : (s.writeCtx c r).readK n = s.readK n := rfl
@[simp] theorem State.readK_writeTable (s : State) (i : Fin 256) (r : TableEntry) (n : KReg) : (s.writeTable i r).readK n = s.readK n := rfl
@[simp] theorem State.readK_writeWire (s : State) (j : Fin 65) (b : Byte) (n : KReg) : (s.writeWire j b).readK n = s.readK n := rfl
@[simp] theorem State.readK_accept (s : State) (w : Word) (n : KReg) : (s.accept w).readK n = s.readK n := rfl
@[simp] theorem State.readK_completeOk (s : State)  (n : KReg) : (s.completeOk ).readK n = s.readK n := rfl
@[simp] theorem State.readK_completeErr (s : State) (e : Err) (n : KReg) : (s.completeErr e).readK n = s.readK n := rfl
@[simp] theorem State.readCtx_writeF (s : State) (i : FReg) (r : FieldReg) (n : CReg) : (s.writeF i r).readCtx n = s.readCtx n := rfl
@[simp] theorem State.readCtx_writePt (s : State) (i : PReg) (r : PointReg) (n : CReg) : (s.writePt i r).readCtx n = s.readCtx n := rfl
@[simp] theorem State.readCtx_writeK (s : State) (i : KReg) (r : ScalarReg) (n : CReg) : (s.writeK i r).readCtx n = s.readCtx n := rfl
@[simp] theorem State.readCtx_writeTable (s : State) (i : Fin 256) (r : TableEntry) (n : CReg) : (s.writeTable i r).readCtx n = s.readCtx n := rfl
@[simp] theorem State.readCtx_writeWire (s : State) (j : Fin 65) (b : Byte) (n : CReg) : (s.writeWire j b).readCtx n = s.readCtx n := rfl
@[simp] theorem State.readCtx_accept (s : State) (w : Word) (n : CReg) : (s.accept w).readCtx n = s.readCtx n := rfl
@[simp] theorem State.readCtx_completeOk (s : State)  (n : CReg) : (s.completeOk ).readCtx n = s.readCtx n := rfl
@[simp] theorem State.readCtx_completeErr (s : State) (e : Err) (n : CReg) : (s.completeErr e).readCtx n = s.readCtx n := rfl
@[simp] theorem State.readTable_writeF (s : State) (i : FReg) (r : FieldReg) (n : Fin 256) : (s.writeF i r).readTable n = s.readTable n := rfl
@[simp] theorem State.readTable_writePt (s : State) (i : PReg) (r : PointReg) (n : Fin 256) : (s.writePt i r).readTable n = s.readTable n := rfl
@[simp] theorem State.readTable_writeK (s : State) (i : KReg) (r : ScalarReg) (n : Fin 256) : (s.writeK i r).readTable n = s.readTable n := rfl
@[simp] theorem State.readTable_writeCtx (s : State) (c : CReg) (r : Context) (n : Fin 256) : (s.writeCtx c r).readTable n = s.readTable n := rfl
@[simp] theorem State.readTable_writeWire (s : State) (j : Fin 65) (b : Byte) (n : Fin 256) : (s.writeWire j b).readTable n = s.readTable n := rfl
@[simp] theorem State.readTable_accept (s : State) (w : Word) (n : Fin 256) : (s.accept w).readTable n = s.readTable n := rfl
@[simp] theorem State.readTable_completeOk (s : State)  (n : Fin 256) : (s.completeOk ).readTable n = s.readTable n := rfl
@[simp] theorem State.readTable_completeErr (s : State) (e : Err) (n : Fin 256) : (s.completeErr e).readTable n = s.readTable n := rfl
@[simp] theorem State.readWire_writeF (s : State) (i : FReg) (r : FieldReg) (n : Fin 65) : (s.writeF i r).readWire n = s.readWire n := rfl
@[simp] theorem State.readWire_writePt (s : State) (i : PReg) (r : PointReg) (n : Fin 65) : (s.writePt i r).readWire n = s.readWire n := rfl
@[simp] theorem State.readWire_writeK (s : State) (i : KReg) (r : ScalarReg) (n : Fin 65) : (s.writeK i r).readWire n = s.readWire n := rfl
@[simp] theorem State.readWire_writeCtx (s : State) (c : CReg) (r : Context) (n : Fin 65) : (s.writeCtx c r).readWire n = s.readWire n := rfl
@[simp] theorem State.readWire_writeTable (s : State) (i : Fin 256) (r : TableEntry) (n : Fin 65) : (s.writeTable i r).readWire n = s.readWire n := rfl
@[simp] theorem State.readWire_accept (s : State) (w : Word) (n : Fin 65) : (s.accept w).readWire n = s.readWire n := rfl
@[simp] theorem State.readWire_completeOk (s : State)  (n : Fin 65) : (s.completeOk ).readWire n = s.readWire n := rfl
@[simp] theorem State.readWire_completeErr (s : State) (e : Err) (n : Fin 65) : (s.completeErr e).readWire n = s.readWire n := rfl

/-- Entry `i` of a register file built from a function. -/
@[simp] theorem get_fileOf {α : Type} (n : Nat) (g : Nat → α) (i : Fin n) : (fileOf n g).get i = g i.val := by
  simp [fileOf, Vector.get_eq_getElem]

end Sys2Proof.Machine
end

