-- ==== Sys2Proof/Laws/Completion.lean ====
section
/-! SUPPORT. What completing a command can do, said once: the check chains of the meanings as conditionals, the shared
operand reads as "which checks hold when they answer", and that a command's completion step always answers a next state
(spec/60_exceptions.md R280 to R285). -/

namespace Sys2Proof.Machine

/-! ### The completion step -/

theorem completeOk_eq_succeeded (s : State) : s.completeOk = s.succeeded := rfl

theorem completeErr_eq_failed (s : State) (e : Err) : s.completeErr e = s.failed e.code := rfl

theorem finish_ok (s t : State) : s.finish (.ok t) = .next t.completeOk := rfl

theorem finish_error (s : State) (e : Err) : s.finish (.error e) = .next (s.completeErr e) := rfl

theorem finish_pure (s t : State) : s.finish (pure t) = .next t.completeOk := rfl

/-- A completion step answers a next state: with the destination written and success, or with an error and nothing
written. -/
theorem finish_cases (s : State) (r : Except Err State) :
    (∃ t, r = .ok t ∧ s.finish r = .next t.completeOk) ∨ (∃ e, r = .error e ∧ s.finish r = .next (s.completeErr e)) := by
  cases r with
  | ok t => exact .inl ⟨t, rfl, rfl⟩
  | error e => exact .inr ⟨e, rfl, rfl⟩

/-! ### The outcome of a list of checks -/

/-- Where every check holds, the command completes with its destination written. -/
theorem outcome_of_all {s t : State} {l : List (Bool × BitVec 5)} (h : ∀ c ∈ l, c.1 = true) :
    s.outcome l t = .next t.succeeded := by
  induction l with
  | nil => rfl
  | cons c l ih =>
    obtain ⟨b, e⟩ := c
    have hb : b = true := h _ List.mem_cons_self
    rw [State.outcome, if_pos hb, ih fun c hc => h c (List.mem_cons_of_mem _ hc)]

theorem outcome_append (s t : State) (l m : List (Bool × BitVec 5)) :
    s.outcome (l ++ m) t = if ∀ c ∈ l, c.1 = true then s.outcome m t else s.outcome l t := by
  induction l with
  | nil => simp
  | cons c l ih =>
    obtain ⟨b, e⟩ := c
    cases b <;> simp [State.outcome, ih]

/-! ### Checks as conditionals -/

theorem finish_ensure_bind (s : State) (b : Bool) (e : Err) (k : Unit → Except Err State) :
    s.finish (ensure b e >>= k) = if b then s.finish (k ()) else .next (s.completeErr e) := by
  cases b <;> rfl

theorem ensure_eq_ok {b : Bool} {e : Err} {u : Unit} : ensure b e = .ok u ↔ b = true := by
  cases b <;> simp [ensure]

theorem bind_eq_ok {α β : Type} {x : Except Err α} {k : α → Except Err β} {y : β} :
    x >>= k = .ok y ↔ ∃ a, x = .ok a ∧ k a = .ok y := by
  cases x with
  | ok a => simp [bind, Except.bind]
  | error e => simp [bind, Except.bind]

theorem pure_eq_ok {α : Type} {x y : α} : (pure x : Except Err α) = .ok y ↔ x = y := by
  simp [pure, Except.pure]

theorem checkVal_eq_ok {x p : Nat} {u : Unit} : checkVal x p = .ok u ↔ x < p := by
  simp [checkVal, ensure_eq_ok]

theorem finish_checkVal_bind (s : State) (x p : Nat) (k : Unit → Except Err State) :
    s.finish (checkVal x p >>= k) = if x < p then s.finish (k ()) else .next (s.completeErr .invalidFieldElement) := by
  simp [checkVal, finish_ensure_bind]

theorem checkVal_of_lt {x p : Nat} (h : x < p) : checkVal x p = .ok () := checkVal_eq_ok.2 h

theorem checkVal_of_le {x p : Nat} (h : ¬ x < p) : checkVal x p = .error .invalidFieldElement := by
  simp [checkVal, ensure, h]

theorem usable_iff (s : State) (c : CReg) : (s.readCtx c).usable = true ↔ s.ctxReady c := by
  simp [Context.usable, and_assoc]

theorem curveEq_iff (s : State) (c1 c2 : CReg) : s.curveEq c1 c2 = true ↔ s.sameCurve c1 c2 := by
  simp [State.curveEq, State.sameCurve, or_assoc, and_assoc]

/-! ### Shared operand reads -/

/-- What a binary field command's operand read answers, and when (R130 to R132, R140). -/
theorem fieldPair_eq_ok {s : State} {a b : FReg} {o : FieldOperands} :
    s.fieldPair a b = .ok o ↔
      s.fieldReady a ∧ s.fieldReady b ∧ s.fMod a = s.fMod b
        ∧ o = ⟨s.fMod a, s.fVal a, s.fVal b, (s.readF a).tag⟩ := by
  simp only [State.fieldPair, checkV, State.checkCtx, bind_eq_ok, ensure_eq_ok, checkVal_eq_ok, pure_eq_ok,
    usable_iff, beq_iff_eq]
  constructor
  · rintro ⟨-, va, -, vb, -, ca, -, cb, -, hp, -, xa, -, xb, rfl⟩
    exact ⟨⟨va, ca, xa⟩, ⟨vb, cb, lt_of_lt_of_eq xb hp.symm⟩, hp.symm, rfl⟩
  · rintro ⟨⟨va, ca, xa⟩, ⟨vb, cb, xb⟩, hp, rfl⟩
    exact ⟨(), va, (), vb, (), ca, (), cb, (), hp.symm, (), xa, (), lt_of_lt_of_eq xb hp.symm, rfl⟩

/-- What a unary field command's operand read answers, and when (R130, R131, R143). -/
theorem fieldSingle_eq_ok {s : State} {a : FReg} {o : FieldOperands} :
    s.fieldSingle a = .ok o ↔ s.fieldReady a ∧ o = ⟨s.fMod a, s.fVal a, 0, (s.readF a).tag⟩ := by
  simp only [State.fieldSingle, checkV, State.checkCtx, bind_eq_ok, ensure_eq_ok, checkVal_eq_ok, pure_eq_ok, usable_iff]
  constructor
  · rintro ⟨-, va, -, ca, -, xa, rfl⟩
    exact ⟨⟨va, ca, xa⟩, rfl⟩
  · rintro ⟨⟨va, ca, xa⟩, rfl⟩
    exact ⟨(), va, (), ca, (), xa, rfl⟩

/-- A binary field command is its checks in order, and then its computation (R140). -/
theorem finish_fieldPair_bind (s : State) (a b : FReg) (k : FieldOperands → Except Err State) :
    s.finish (s.fieldPair a b >>= k) =
      if (s.readF a).v && (s.readF b).v then
        if decide (s.ctxReady (s.readF a).tag) && decide (s.ctxReady (s.readF b).tag) then
          if s.fMod b = s.fMod a then
            if decide (s.fVal a < s.fMod a) && decide (s.fVal b < s.fMod a) then
              s.finish (k ⟨s.fMod a, s.fVal a, s.fVal b, (s.readF a).tag⟩)
            else .next (s.failed 3)
          else .next (s.failed 1)
        else .next (s.failed 18)
      else .next (s.failed 17) := by
  simp only [State.fieldPair, checkV, State.checkCtx, bind_assoc, finish_ensure_bind, finish_checkVal_bind, usable_iff,
    pure_bind, completeErr_eq_failed, Err.code, beq_iff_eq, Bool.and_eq_true, decide_eq_true_eq, ite_and]
  rfl

/-- A unary field command is its checks in order, and then its computation (R143). -/
theorem finish_fieldSingle_bind (s : State) (a : FReg) (k : FieldOperands → Except Err State) :
    s.finish (s.fieldSingle a >>= k) =
      if (s.readF a).v then
        if s.ctxReady (s.readF a).tag then
          if s.fVal a < s.fMod a then s.finish (k ⟨s.fMod a, s.fVal a, 0, (s.readF a).tag⟩)
          else .next (s.failed 3)
        else .next (s.failed 18)
      else .next (s.failed 17) := by
  simp only [State.fieldSingle, checkV, State.checkCtx, bind_assoc, finish_ensure_bind, finish_checkVal_bind, usable_iff,
    pure_bind, completeErr_eq_failed, Err.code]
  rfl

/-- `CheckPt` passes or rejects with InvalidFieldElement (R171). -/
theorem checkPt_cases (s : State) (i : PReg) :
    (s.coordsInField i ∧ s.checkPt (s.readPt i) = .ok ())
      ∨ (¬ s.coordsInField i ∧ s.checkPt (s.readPt i) = .error .invalidFieldElement) := by
  unfold State.checkPt State.coordsInField
  rcases hr : (s.readPt i).rep with _ | _
  · rcases hi : (s.readPt i).inf with _ | _
    · by_cases hx : (s.readPt i).x.toNat < s.modulus (s.readPt i).tag
      · by_cases hy : (s.readPt i).y.toNat < s.modulus (s.readPt i).tag
        · left; simp [checkVal_of_lt hx, checkVal_of_lt hy, bind, Except.bind]; exact ⟨hx, hy⟩
        · right; simp [checkVal_of_lt hx, checkVal_of_le hy, bind, Except.bind]; exact fun _ => Nat.le_of_not_lt hy
      · right; simp [checkVal_of_le hx, bind, Except.bind]; exact fun h => absurd h hx
    · left; simp
  · by_cases hx : (s.readPt i).x.toNat < s.modulus (s.readPt i).tag
    · by_cases hy : (s.readPt i).y.toNat < s.modulus (s.readPt i).tag
      · by_cases hz : (s.readPt i).z.toNat < s.modulus (s.readPt i).tag
        · left; simp [checkVal_of_lt hx, checkVal_of_lt hy, checkVal_of_lt hz, bind, Except.bind]; exact ⟨hx, hy, hz⟩
        · right; simp [checkVal_of_lt hx, checkVal_of_lt hy, checkVal_of_le hz, bind, Except.bind]
          exact fun _ _ => Nat.le_of_not_lt hz
      · right; simp [checkVal_of_lt hx, checkVal_of_le hy, bind, Except.bind]; exact fun _ h => absurd h hy
    · right; simp [checkVal_of_le hx, bind, Except.bind]; exact fun h => absurd h hx

theorem checkPt_eq_ok {s : State} {i : PReg} {u : Unit} :
    s.checkPt (s.readPt i) = .ok u ↔ s.coordsInField i := by
  rcases checkPt_cases s i with ⟨h, e⟩ | ⟨h, e⟩ <;> simp [h, e]

theorem finish_checkPt_bind (s : State) (i : PReg) (k : Unit → Except Err State) :
    s.finish (s.checkPt (s.readPt i) >>= k) =
      if s.coordsInField i then s.finish (k ()) else .next (s.completeErr .invalidFieldElement) := by
  rcases checkPt_cases s i with ⟨h, e⟩ | ⟨h, e⟩
  · rw [if_pos h, e]; rfl
  · rw [if_neg h, e]; rfl

/-- A two-operand point command is its checks in order, and then its computation (R194, R195). -/
theorem finish_checkPointPair_bind (s : State) (a b : PReg) (k : Unit → Except Err State) :
    s.finish (s.checkPointPair (s.readPt a) (s.readPt b) >>= k) =
      if (s.readPt a).v && (s.readPt b).v then
        if decide (s.ctxReady (s.readPt a).tag) && decide (s.ctxReady (s.readPt b).tag) then
          if s.sameCurve (s.readPt a).tag (s.readPt b).tag then
            if (s.readPt a).rep = (s.readPt b).rep then
              if decide (s.coordsInField a) && decide (s.coordsInField b) then s.finish (k ())
              else .next (s.failed 3)
            else .next (s.failed 6)
          else .next (s.failed 2)
        else .next (s.failed 18)
      else .next (s.failed 17) := by
  simp only [State.checkPointPair, checkV, State.checkCtx, bind_assoc, finish_ensure_bind, finish_checkPt_bind,
    usable_iff, curveEq_iff, completeErr_eq_failed, Err.code, beq_iff_eq, Bool.and_eq_true, decide_eq_true_eq, ite_and]

/-- A one-operand point command starts with these checks (R170). -/
theorem finish_checkPoint_bind (s : State) (r : PointReg) (k : Unit → Except Err State) :
    s.finish (s.checkPoint r >>= k) =
      if r.v then if s.ctxReady r.tag then s.finish (k ()) else .next (s.failed 18) else .next (s.failed 17) := by
  simp only [State.checkPoint, checkV, State.checkCtx, bind_assoc, finish_ensure_bind, usable_iff, completeErr_eq_failed,
    Err.code]

/-- SMUL and SMULG are their operand checks in order, and then their computation (R226, R227). -/
theorem finish_scalarOperands_bind (s : State) (k : KReg) (a : PReg) (f : ScalarOperands → Except Err State) :
    s.finish (s.scalarOperands k a >>= f) =
      if (s.readK k).v && (s.readPt a).v then
        if s.ctxReady (s.readPt a).tag then
          if (s.readPt a).rep = .affine then
            if s.coordsInField a then s.finish (f ⟨(s.readK k).val.toNat, (s.readPt a).affVal, (s.readPt a).tag⟩)
            else .next (s.failed 3)
          else .next (s.failed 6)
        else .next (s.failed 18)
      else .next (s.failed 17) := by
  simp only [State.scalarOperands, checkV, State.checkCtx, bind_assoc, finish_ensure_bind, finish_checkPt_bind,
    usable_iff, pure_bind, completeErr_eq_failed, Err.code, beq_iff_eq, Bool.and_eq_true, ite_and]

/-- What the operand read of SMUL and SMULG answers, and when (R226, R227). -/
theorem scalarOperands_eq_ok {s : State} {k : KReg} {a : PReg} {o : ScalarOperands} :
    s.scalarOperands k a = .ok o ↔
      (s.readK k).v = true ∧ (s.readPt a).v = true ∧ s.ctxReady (s.readPt a).tag ∧ (s.readPt a).rep = .affine
        ∧ s.coordsInField a ∧ o = ⟨(s.readK k).val.toNat, (s.readPt a).affVal, (s.readPt a).tag⟩ := by
  simp only [State.scalarOperands, checkV, State.checkCtx, bind_eq_ok, ensure_eq_ok, pure_eq_ok, usable_iff,
    beq_iff_eq, checkPt_eq_ok]
  constructor
  · rintro ⟨-, vk, -, va, -, ca, -, ra, -, ha, rfl⟩
    exact ⟨vk, va, ca, ra, ha, rfl⟩
  · rintro ⟨vk, va, ca, ra, ha, rfl⟩
    exact ⟨(), vk, (), va, (), ca, (), ra, (), ha, rfl⟩

end Sys2Proof.Machine
end

