-- ==== Sys2Proof/Laws/Commands.lean ====
section
/-! SUPPORT. Everything a command can do, said once: it completes with an assigned error and nothing written, or with
success and its one destination written (spec/60_exceptions.md R280 to R285, R294). -/

namespace Sys2Proof.Machine

/-! ### No command raises the reserved code 9 (R294) -/

/-- The computation raises no error of the reserved kind. -/
def Assigned {α : Type} (r : Except Err α) : Prop := r ≠ .error .negativeScalarUnsupported

theorem Assigned.ok {α : Type} (x : α) : Assigned (.ok x : Except Err α) := by simp [Assigned]

theorem Assigned.pure {α : Type} (x : α) : Assigned (Pure.pure x : Except Err α) := Assigned.ok x

theorem Assigned.error {α : Type} {e : Err} (h : e ≠ .negativeScalarUnsupported) :
    Assigned (.error e : Except Err α) := by simpa [Assigned] using h

theorem Assigned.bind {α β : Type} {x : Except Err α} {k : α → Except Err β} (hx : Assigned x)
    (hk : ∀ a, Assigned (k a)) : Assigned (x >>= k) := by
  cases x with
  | ok a => exact hk a
  | error e => simpa [Assigned, Bind.bind, Except.bind] using hx

theorem Assigned.ensure {b : Bool} {e : Err} (h : e ≠ .negativeScalarUnsupported) : Assigned (ensure b e) := by
  cases b
  · exact Assigned.error h
  · exact Assigned.ok ()

theorem Assigned.checkV (v : Bool) : Assigned (checkV v) := Assigned.ensure (by decide)

theorem Assigned.checkCtx (s : State) (c : CReg) : Assigned (s.checkCtx c) := Assigned.ensure (by decide)

theorem Assigned.checkVal (x p : Nat) : Assigned (checkVal x p) := Assigned.ensure (by decide)

theorem Assigned.finv (p b : Nat) : Assigned (finv p b) := by
  unfold Machine.finv; split
  · exact Assigned.error (by decide)
  · exact Assigned.ok _

theorem Assigned.fieldPair (s : State) (a b : FReg) : Assigned (s.fieldPair a b) :=
  .bind (.checkV _) fun _ => .bind (.checkV _) fun _ => .bind (.checkCtx _ _) fun _ => .bind (.checkCtx _ _) fun _ =>
    .bind (.ensure (by decide)) fun _ => .bind (.checkVal _ _) fun _ => .bind (.checkVal _ _) fun _ => .pure _

theorem Assigned.fieldSingle (s : State) (a : FReg) : Assigned (s.fieldSingle a) :=
  .bind (.checkV _) fun _ => .bind (.checkCtx _ _) fun _ => .bind (.checkVal _ _) fun _ => .pure _

theorem Assigned.checkPt (s : State) (r : PointReg) : Assigned (s.checkPt r) := by
  unfold State.checkPt
  cases r.rep with
  | affine =>
    dsimp only; split
    · exact .ok _
    · exact .bind (.checkVal _ _) fun _ => .checkVal _ _
  | jacobian => exact .bind (.checkVal _ _) fun _ => .bind (.checkVal _ _) fun _ => .checkVal _ _

theorem Assigned.checkPoint (s : State) (r : PointReg) : Assigned (s.checkPoint r) :=
  .bind (.checkV _) fun _ => .checkCtx _ _

theorem Assigned.checkPointPair (s : State) (r q : PointReg) : Assigned (s.checkPointPair r q) :=
  .bind (.checkV _) fun _ => .bind (.checkV _) fun _ => .bind (.checkCtx _ _) fun _ => .bind (.checkCtx _ _) fun _ =>
    .bind (.ensure (by decide)) fun _ => .bind (.ensure (by decide)) fun _ => .bind (.checkPt _ _) fun _ => .checkPt _ _

theorem Assigned.affDbl (p a : Nat) (P : AffPoint) : Assigned (affDbl p a P) := by
  cases P with
  | inf => exact .ok _
  | pt x y => exact .bind (.finv _ _) fun _ => .pure _

theorem Assigned.affAdd (p a : Nat) (P Q : AffPoint) : Assigned (affAdd p a P Q) := by
  unfold Machine.affAdd
  split
  · exact .ok _
  · exact .ok _
  · split
    · exact .affDbl _ _ _
    · split
      · exact .ok _
      · exact .bind (.finv _ _) fun _ => .pure _

theorem Assigned.jacMAdd (p : Nat) (P Q : JacPoint) : Assigned (jacMAdd p P Q) := by
  unfold Machine.jacMAdd
  split
  · exact .error (by decide)
  · dsimp only; split
    · exact .error (by decide)
    · exact .ok _

theorem Assigned.jacDbl (p a : Nat) (P : JacPoint) : Assigned (jacDbl p a P) := by
  unfold Machine.jacDbl
  split
  · exact .error (by decide)
  · exact .ok _

theorem Assigned.toAff (p : Nat) (P : JacPoint) : Assigned (toAff p P) := by
  unfold Machine.toAff
  split
  · exact .ok _
  · split
    · exact .ok _
    · exact .bind (.finv _ _) fun _ => .pure _

theorem Assigned.routedDbl (p a : Nat) (P : AffPoint) : Assigned (routedDbl p a P) := by
  cases P with
  | inf => exact .ok _
  | pt x y =>
    unfold Machine.routedDbl; dsimp only; split
    · exact .ok _
    · exact .affDbl _ _ _

theorem Assigned.routedAdd (p a : Nat) (T : JacPoint) (P : AffPoint) : Assigned (routedAdd p a T P) := by
  cases P with
  | inf => exact .ok _
  | pt x y =>
    unfold Machine.routedAdd; dsimp only; split
    · exact .ok _
    · split
      · exact .error (by decide)
      · split
        · exact .bind (.routedDbl _ _ _) fun _ => .pure _
        · split
          · exact .ok _
          · exact .jacMAdd _ _ _

theorem Assigned.tallyStep (p a k i : Nat) (T : JacPoint) (I : AffPoint) : Assigned (tallyStep p a k i T I) := by
  unfold Machine.tallyStep; split
  · exact .routedAdd _ _ _ _
  · exact .ok _

theorem Assigned.incrementStep (p a left : Nat) (I : AffPoint) : Assigned (incrementStep p a left I) := by
  unfold Machine.incrementStep; split
  · exact .ok _
  · exact .routedDbl _ _ _

theorem Assigned.smulLoop (p a k left : Nat) : ∀ i T I, Assigned (smulLoop p a k left i T I) := by
  induction left with
  | zero => exact fun _ _ _ => .ok _
  | succ n ih => exact fun _ _ _ => .bind (.tallyStep _ _ _ _ _ _) fun _ => .bind (.incrementStep _ _ _ _) fun _ => ih _ _ _

theorem Assigned.tableStep (p a k i : Nat) (e : TableEntry) (T : JacPoint) : Assigned (tableStep p a k i e T) := by
  unfold Machine.tableStep; split
  · exact .bind (.checkVal _ _) fun _ => .bind (.checkVal _ _) fun _ => .routedAdd _ _ _ _
  · exact .ok _

theorem Assigned.smulTableLoop (p a k : Nat) (entry : Nat → TableEntry) (left : Nat) :
    ∀ i T, Assigned (smulTableLoop p a k entry left i T) := by
  induction left with
  | zero => exact fun _ _ => .ok _
  | succ n ih => exact fun _ _ => .bind (.tableStep _ _ _ _ _ _) fun _ => ih _ _

theorem Assigned.scalarOperands (s : State) (k : KReg) (a : PReg) : Assigned (s.scalarOperands k a) :=
  .bind (.checkV _) fun _ => .bind (.checkV _) fun _ => .bind (.checkCtx _ _) fun _ => .bind (.ensure (by decide)) fun _ =>
    .bind (.checkPt _ _) fun _ => .pure _

theorem Assigned.smulTable (s : State) (k : Nat) (c : CReg) : Assigned (s.smulTable k c) :=
  .bind (.smulTableLoop _ _ _ _ _ _ _) fun _ => .toAff _ _

theorem Assigned.smulResult (s : State) (o : ScalarOperands) : Assigned (s.smulResult o) := by
  unfold State.smulResult
  split
  · exact .ok _
  · split
    · exact .ok _
    · split
      · exact .routedDbl _ _ _
      · split
        · exact .bind (.ensure (by decide)) fun _ => .smulTable _ _ _
        · exact .bind (.smulLoop _ _ _ _ _ _ _) fun _ => .toAff _ _

theorem Assigned.smulgResult (s : State) (o : ScalarOperands) : Assigned (s.smulgResult o) := by
  unfold State.smulgResult; split
  · exact .ok _
  · exact .smulTable _ _ _

/-! ### What a command writes -/

/-- `u` is `s` with at most the command's destination written (R284). -/
def Writes (i : Instr) (s u : State) : Prop :=
  match i with
  | .nop => u = s
  | .fadd d _ _ | .fsub d _ _ | .fmul d _ _ | .fneg d _ | .finv d _ | .fdiv d _ _ | .fpow d _ _ | .fred d _ _ _ =>
    ∃ r, u = s.writeF d r
  | .pinf d _ | .pmake d _ _ _ | .pneg d _ | .padd d _ _ | .pdbl d _ | .ptoj d _ | .ptoa d _ | .smul d _ _ | .smulg d _ _
  | .pdec d _ => ∃ r, u = s.writePt d r
  | .peq _ _ => ∃ b, u = { s with eq := b }
  | .ctxld c _ => u = s.writeCtx c (contextOf Config.secp256k1 Config.secp256k1Id)
  | .penc _ => ∃ bytes, u = { s with wire := bytes }

/-- What no command writes (R42, R284). -/
theorem Writes.frame {i : Instr} {s u : State} (h : Writes i s u) :
    u.k = s.k ∧ u.table = s.table ∧ u.ie = s.ie ∧ u.tvalid = s.tvalid ∧ u.busy = s.busy ∧ u.done = s.done
      ∧ u.err = s.err ∧ u.ovf = s.ovf ∧ u.code = s.code ∧ u.cmd = s.cmd ∧ u.errcmd = s.errcmd ∧ u.inputs = s.inputs
      ∧ u.rdata = s.rdata ∧ u.draws = s.draws := by
  cases i <;> simp only [Writes] at h <;> obtain ⟨_, rfl⟩ := h
  all_goals exact ⟨rfl, rfl, rfl, rfl, rfl, rfl, rfl, rfl, rfl, rfl, rfl, rfl, rfl, rfl⟩

/-- The computation behind a command's completion step: assigned errors only, and only the destination written. -/
def Lawful (i : Instr) (s : State) (r : Except Err State) : Prop := Assigned r ∧ ∀ u, r = .ok u → Writes i s u

theorem Lawful.error {i : Instr} {s : State} {e : Err} (h : e ≠ .negativeScalarUnsupported) :
    Lawful i s (.error e) := ⟨.error h, fun _ h => by simp at h⟩

theorem Lawful.pure {i : Instr} {s u : State} (h : Writes i s u) : Lawful i s (Pure.pure u) :=
  ⟨.pure _, fun _ e => (pure_eq_ok.1 e) ▸ h⟩

theorem Lawful.bind {α : Type} {i : Instr} {s : State} {x : Except Err α} {k : α → Except Err State} (hx : Assigned x)
    (hk : ∀ a, Lawful i s (k a)) : Lawful i s (x >>= k) := by
  cases x with
  | ok a => exact hk a
  | error e => exact ⟨hx.bind fun a => (hk a).1, fun _ h => by simp [Bind.bind, Except.bind] at h⟩

theorem writeAff_eq (s : State) (d : PReg) (P : AffPoint) (tag : CReg) : ∃ r, s.writeAff d P tag = s.writePt d r := by
  cases P <;> exact ⟨_, rfl⟩

theorem writeJac_eq (s : State) (d : PReg) (P : JacPoint) (tag : CReg) : ∃ r, s.writeJac d P tag = s.writePt d r :=
  ⟨_, rfl⟩

/-- Every command's completion step is the completion of a lawful computation. -/
theorem exec_lawful (i : Instr) (s : State) : ∃ r, exec i s = s.finish r ∧ Lawful i s r := by
  cases i with
  | nop => exact ⟨_, rfl, .ok _, fun u h => by simpa [Writes] using h.symm⟩
  | fadd d a b => exact ⟨_, rfl, .bind (.fieldPair _ _ _) fun o => .pure ⟨_, rfl⟩⟩
  | fsub d a b => exact ⟨_, rfl, .bind (.fieldPair _ _ _) fun o => .pure ⟨_, rfl⟩⟩
  | fmul d a b => exact ⟨_, rfl, .bind (.fieldPair _ _ _) fun o => .pure ⟨_, rfl⟩⟩
  | fneg d a => exact ⟨_, rfl, .bind (.fieldSingle _ _) fun o => .pure ⟨_, rfl⟩⟩
  | finv d a => exact ⟨_, rfl, .bind (.fieldSingle _ _) fun o => .bind (.finv _ _) fun _ => .pure ⟨_, rfl⟩⟩
  | fdiv d a b => exact ⟨_, rfl, .bind (.fieldPair _ _ _) fun o => .bind (.finv _ _) fun _ => .pure ⟨_, rfl⟩⟩
  | fpow d a imm => exact ⟨_, rfl, .bind (.ensure (by decide)) fun _ => .bind (.fieldSingle _ _) fun o => .pure ⟨_, rfl⟩⟩
  | fred d hi lo c =>
    exact ⟨_, rfl, .bind (.checkV _) fun _ => .bind (.checkV _) fun _ => .bind (.checkCtx _ _) fun _ => .pure ⟨_, rfl⟩⟩
  | pinf d c => exact ⟨_, rfl, .bind (.checkCtx _ _) fun _ => .pure (writeAff_eq ..)⟩
  | pmake d x y c =>
    exact ⟨_, rfl, .bind (.checkV _) fun _ => .bind (.checkV _) fun _ => .bind (.checkCtx _ _) fun _ =>
      .bind (.checkCtx _ _) fun _ => .bind (.checkCtx _ _) fun _ => .bind (.ensure (by decide)) fun _ =>
      .bind (.checkVal _ _) fun _ => .bind (.checkVal _ _) fun _ => .pure (writeAff_eq ..)⟩
  | pneg d a =>
    exact ⟨_, rfl, .bind (.checkPoint _ _) fun _ => .bind (.ensure (by decide)) fun _ => .bind (.checkPt _ _) fun _ =>
      .pure (writeAff_eq ..)⟩
  | peq a b => exact ⟨_, rfl, .bind (.checkPointPair _ _ _) fun _ => .pure ⟨_, rfl⟩⟩
  | padd d a b =>
    refine ⟨_, rfl, .bind (.checkPointPair _ _ _) fun _ => ?_⟩
    cases (s.readPt a).rep with
    | affine => exact .bind (.affAdd _ _ _ _) fun _ => .pure (writeAff_eq ..)
    | jacobian => exact .bind (.jacMAdd _ _ _) fun _ => .pure (writeJac_eq ..)
  | pdbl d a =>
    refine ⟨_, rfl, .bind (.checkPoint _ _) fun _ => .bind (.checkPt _ _) fun _ => ?_⟩
    cases (s.readPt a).rep with
    | affine => exact .bind (.affDbl _ _ _) fun _ => .pure (writeAff_eq ..)
    | jacobian => exact .bind (.jacDbl _ _ _) fun _ => .pure (writeJac_eq ..)
  | ptoj d a =>
    exact ⟨_, rfl, .bind (.checkPoint _ _) fun _ => .bind (.ensure (by decide)) fun _ => .bind (.checkPt _ _) fun _ =>
      .pure (writeJac_eq ..)⟩
  | ptoa d a =>
    exact ⟨_, rfl, .bind (.checkPoint _ _) fun _ => .bind (.ensure (by decide)) fun _ => .bind (.checkPt _ _) fun _ =>
      .bind (.toAff _ _) fun _ => .pure (writeAff_eq ..)⟩
  | smul d k a =>
    exact ⟨_, rfl, .bind (.scalarOperands _ _ _) fun _ => .bind (.smulResult _ _) fun _ => .pure (writeAff_eq ..)⟩
  | smulg d k a =>
    exact ⟨_, rfl, .bind (.scalarOperands _ _ _) fun _ => .bind (.ensure (by decide)) fun _ =>
      .bind (.ensure (by decide)) fun _ => .bind (.smulgResult _ _) fun _ => .pure (writeAff_eq ..)⟩
  | ctxld c dom => exact ⟨_, rfl, .bind (.ensure (by decide)) fun _ => .pure rfl⟩
  | pdec d c =>
    exact ⟨_, rfl, .bind (.checkCtx _ _) fun _ => .bind (.ensure (by decide)) fun _ => .bind (.checkVal _ _) fun _ =>
      .bind (.checkVal _ _) fun _ => .pure (writeAff_eq ..)⟩
  | penc a =>
    exact ⟨_, rfl, .bind (.checkPoint _ _) fun _ => .bind (.ensure (by decide)) fun _ => .bind (.ensure (by decide)) fun _ =>
      .bind (.checkPt _ _) fun _ => .pure ⟨_, rfl⟩⟩

/-- Everything a command can do. -/
theorem exec_cases (i : Instr) (s : State) :
    (∃ u, exec i s = .next u.completeOk ∧ Writes i s u)
      ∨ ∃ e, exec i s = .next (s.completeErr e) ∧ e ≠ .negativeScalarUnsupported := by
  obtain ⟨r, hr, ha, hw⟩ := exec_lawful i s
  cases r with
  | ok u => exact .inl ⟨u, hr, hw u rfl⟩
  | error e => exact .inr ⟨e, hr, fun h => ha (by rw [h])⟩

/-- Everything the completion of a word in flight can do: a command's own cases, or IllegalCommand (R301). -/
theorem completeInFlight_cases (s : State) :
    (∃ i u, decode s.cmd = .ok i ∧ completeInFlight s = .next u.completeOk ∧ Writes i s u)
      ∨ ∃ e, completeInFlight s = .next (s.completeErr e) ∧ e ≠ .negativeScalarUnsupported := by
  unfold completeInFlight
  split
  · rename_i i hi
    rcases exec_cases i s with ⟨u, h⟩ | h
    · exact .inl ⟨i, u, hi, h⟩
    · exact .inr h
  · exact .inr ⟨_, rfl, by decide⟩

theorem Err.code_ne_zero (e : Err) : e.code ≠ 0 := by cases e <;> decide

theorem Err.code_le (e : Err) : e.code.toNat ≤ 18 := by cases e <;> decide

theorem Err.code_ne_nine {e : Err} (h : e ≠ .negativeScalarUnsupported) : e.code ≠ 9 := by
  cases e <;> first | exact absurd rfl h | decide

end Sys2Proof.Machine
end

