-- ==== Sys2Proof/Laws/Encoding.lean ====
section
/-! SUPPORT. The fields of a word and the word of fields are inverse; the opcode numbers are distinct; the operand fields
read back (spec/30_encoding.md R101, R102, R106). -/

namespace Sys2Proof

theorem fieldsOfWord_wordOfFields (f : Fields) : fieldsOfWord (wordOfFields f) = f := by
  obtain ⟨op, d, s1, s2, c, rsv, imm⟩ := f
  simp only [fieldsOfWord, wordOfFields, Fields.mk.injEq]
  refine ⟨?_, ?_, ?_, ?_, ?_, ?_, ?_⟩ <;>
    · ext i hi
      simp only [BitVec.getElem_extractLsb', BitVec.getLsbD_append]
      interval_cases i <;> simp [BitVec.getLsbD_eq_getElem]

theorem wordOfFields_fieldsOfWord (w : Word) : wordOfFields (fieldsOfWord w) = w := by
  apply BitVec.eq_of_getLsbD_eq
  intro i hi
  simp only [wordOfFields, fieldsOfWord, BitVec.getLsbD_append, BitVec.getLsbD_extractLsb']
  interval_cases i <;> simp

theorem opcodeOfByte_toByte (o : Opcode) : opcodeOfByte o.toByte = some o := by cases o <;> decide

theorem toByte_of_opcodeOfByte {b : Byte} {o : Opcode} (h : opcodeOfByte b = some o) : o.toByte = b := by
  have := List.find?_some h
  simpa using this

@[simp] theorem fOperand_operandField (r : FReg) : fOperand (operandField r) = r := by revert r; decide
@[simp] theorem pOperand_operandField (r : PReg) : pOperand (operandField r) = r := by revert r; decide
@[simp] theorem kOperand_operandField (r : KReg) : kOperand (operandField r) = r := by revert r; decide
@[simp] theorem cOperand_contextField (c : CReg) : cOperand (contextField c) = c := by revert c; decide

theorem inClass_unused (x : BitVec 4) : inClass .unused x = true := rfl
theorem inClass_f (x : BitVec 4) : inClass .f x = true := rfl
theorem inClass_p_operandField (r : PReg) : inClass .p (operandField r) = true := by revert r; decide
theorem inClass_k_operandField (r : KReg) : inClass .k (operandField r) = true := by revert r; decide

theorem operandField_fOperand (x : BitVec 4) : operandField (fOperand x) = x := by revert x; decide
theorem operandField_pOperand {x : BitVec 4} : inClass .p x = true → operandField (pOperand x) = x := by
  revert x; decide
theorem operandField_kOperand {x : BitVec 4} : inClass .k x = true → operandField (kOperand x) = x := by
  revert x; decide
theorem contextField_cOperand (x : BitVec 1) : contextField (cOperand x) = x := by revert x; decide

/-- When strict decode's checks pass (R104). -/
theorem shapeCheck_eq_none {sh : Shape} {f : Fields} :
    shapeCheck sh f = none ↔
      f.rsv = 0
        ∧ (zeroIfUnused sh.d f.d = true ∧ zeroIfUnused sh.s1 f.s1 = true ∧ zeroIfUnused sh.s2 f.s2 = true
          ∧ (sh.usesC = true ∨ f.c = 0) ∧ (sh.usesImm = true ∨ f.imm = 0))
        ∧ inClass sh.d f.d = true ∧ inClass sh.s1 f.s1 = true ∧ inClass sh.s2 f.s2 = true := by
  have guard : ∀ (c : Prop) [Decidable c] (e : Illegal) (r : Option Illegal),
      (if c then some e else r) = none ↔ ¬c ∧ r = none := by
    intro c _ e r; split <;> simp_all
  simp only [shapeCheck, guard, Bool.not_eq_true', Bool.not_eq_false, Bool.and_eq_true, Bool.or_eq_true, beq_iff_eq,
    and_assoc, ne_eq, Decidable.not_not, and_true]

end Sys2Proof
end

