-- ==== Sys2Proof/Laws/PerInstr.lean ====
section
/-! SUPPORT. The family `FieldsFitTheShape`: the fields of every command pass each of strict decode's checks against the
shape of its opcode, and name the command's own opcode (spec/30_encoding.md R102, R104, R106). -/

namespace Sys2Proof.Laws.FieldsFitTheShape

/-- The command's fields carry its opcode and are accepted against its shape. -/
def Statement (i : Instr) : Prop :=
  (fieldsOf i).op = i.opcode.toByte ∧ shapeCheck i.opcode.shape (fieldsOf i) = none

theorem nop : Statement .nop := by
  simp [Statement, fieldsOf, fieldsOf.base, Instr.opcode, Opcode.shape, shapeCheck, zeroIfUnused, inClass_unused]

theorem fadd (x0 : FReg) (x1 : FReg) (x2 : FReg) : Statement (.fadd x0 x1 x2) := by
  simp [Statement, fieldsOf, fieldsOf.base, Instr.opcode, Opcode.shape, shapeCheck, zeroIfUnused, inClass_f]

theorem fsub (x0 : FReg) (x1 : FReg) (x2 : FReg) : Statement (.fsub x0 x1 x2) := by
  simp [Statement, fieldsOf, fieldsOf.base, Instr.opcode, Opcode.shape, shapeCheck, zeroIfUnused, inClass_f]

theorem fmul (x0 : FReg) (x1 : FReg) (x2 : FReg) : Statement (.fmul x0 x1 x2) := by
  simp [Statement, fieldsOf, fieldsOf.base, Instr.opcode, Opcode.shape, shapeCheck, zeroIfUnused, inClass_f]

theorem fneg (x0 : FReg) (x1 : FReg) : Statement (.fneg x0 x1) := by
  simp [Statement, fieldsOf, fieldsOf.base, Instr.opcode, Opcode.shape, shapeCheck, zeroIfUnused, inClass_f,
    inClass_unused]

theorem finv (x0 : FReg) (x1 : FReg) : Statement (.finv x0 x1) := by
  simp [Statement, fieldsOf, fieldsOf.base, Instr.opcode, Opcode.shape, shapeCheck, zeroIfUnused, inClass_f,
    inClass_unused]

theorem fdiv (x0 : FReg) (x1 : FReg) (x2 : FReg) : Statement (.fdiv x0 x1 x2) := by
  simp [Statement, fieldsOf, fieldsOf.base, Instr.opcode, Opcode.shape, shapeCheck, zeroIfUnused, inClass_f]

theorem fpow (x0 : FReg) (x1 : FReg) (x2 : Byte) : Statement (.fpow x0 x1 x2) := by
  simp [Statement, fieldsOf, fieldsOf.base, Instr.opcode, Opcode.shape, shapeCheck, zeroIfUnused, inClass_f,
    inClass_unused]

theorem fred (x0 : FReg) (x1 : KReg) (x2 : KReg) (x3 : CReg) : Statement (.fred x0 x1 x2 x3) := by
  simp [Statement, fieldsOf, fieldsOf.base, Instr.opcode, Opcode.shape, shapeCheck, zeroIfUnused, inClass_f,
    inClass_k_operandField]

theorem pinf (x0 : PReg) (x1 : CReg) : Statement (.pinf x0 x1) := by
  simp [Statement, fieldsOf, fieldsOf.base, Instr.opcode, Opcode.shape, shapeCheck, zeroIfUnused,
    inClass_p_operandField, inClass_unused]

theorem pmake (x0 : PReg) (x1 : FReg) (x2 : FReg) (x3 : CReg) : Statement (.pmake x0 x1 x2 x3) := by
  simp [Statement, fieldsOf, fieldsOf.base, Instr.opcode, Opcode.shape, shapeCheck, zeroIfUnused, inClass_f,
    inClass_p_operandField]

theorem pneg (x0 : PReg) (x1 : PReg) : Statement (.pneg x0 x1) := by
  simp [Statement, fieldsOf, fieldsOf.base, Instr.opcode, Opcode.shape, shapeCheck, zeroIfUnused,
    inClass_p_operandField, inClass_unused]

theorem peq (x0 : PReg) (x1 : PReg) : Statement (.peq x0 x1) := by
  simp [Statement, fieldsOf, fieldsOf.base, Instr.opcode, Opcode.shape, shapeCheck, zeroIfUnused,
    inClass_p_operandField, inClass_unused]

theorem padd (x0 : PReg) (x1 : PReg) (x2 : PReg) : Statement (.padd x0 x1 x2) := by
  simp [Statement, fieldsOf, fieldsOf.base, Instr.opcode, Opcode.shape, shapeCheck, zeroIfUnused,
    inClass_p_operandField]

theorem pdbl (x0 : PReg) (x1 : PReg) : Statement (.pdbl x0 x1) := by
  simp [Statement, fieldsOf, fieldsOf.base, Instr.opcode, Opcode.shape, shapeCheck, zeroIfUnused,
    inClass_p_operandField, inClass_unused]

theorem ptoj (x0 : PReg) (x1 : PReg) : Statement (.ptoj x0 x1) := by
  simp [Statement, fieldsOf, fieldsOf.base, Instr.opcode, Opcode.shape, shapeCheck, zeroIfUnused,
    inClass_p_operandField, inClass_unused]

theorem ptoa (x0 : PReg) (x1 : PReg) : Statement (.ptoa x0 x1) := by
  simp [Statement, fieldsOf, fieldsOf.base, Instr.opcode, Opcode.shape, shapeCheck, zeroIfUnused,
    inClass_p_operandField, inClass_unused]

theorem smul (x0 : PReg) (x1 : KReg) (x2 : PReg) : Statement (.smul x0 x1 x2) := by
  simp [Statement, fieldsOf, fieldsOf.base, Instr.opcode, Opcode.shape, shapeCheck, zeroIfUnused,
    inClass_p_operandField, inClass_k_operandField]

theorem smulg (x0 : PReg) (x1 : KReg) (x2 : PReg) : Statement (.smulg x0 x1 x2) := by
  simp [Statement, fieldsOf, fieldsOf.base, Instr.opcode, Opcode.shape, shapeCheck, zeroIfUnused,
    inClass_p_operandField, inClass_k_operandField]

theorem ctxld (x0 : CReg) (x1 : Byte) : Statement (.ctxld x0 x1) := by
  simp [Statement, fieldsOf, fieldsOf.base, Instr.opcode, Opcode.shape, shapeCheck, zeroIfUnused, inClass_unused]

theorem pdec (x0 : PReg) (x1 : CReg) : Statement (.pdec x0 x1) := by
  simp [Statement, fieldsOf, fieldsOf.base, Instr.opcode, Opcode.shape, shapeCheck, zeroIfUnused,
    inClass_p_operandField, inClass_unused]

theorem penc (x0 : PReg) : Statement (.penc x0) := by
  simp [Statement, fieldsOf, fieldsOf.base, Instr.opcode, Opcode.shape, shapeCheck, zeroIfUnused,
    inClass_p_operandField, inClass_unused]

end Sys2Proof.Laws.FieldsFitTheShape
end

