-- ==== Sys2Proof/Laws/Window.lean ====
section
/-! SUPPORT. What stands where in the window, and what a write of one place leaves of the others: the address map read
backwards, the words of a value, and the reads after a data write (spec/20_memory.md R73 to R80). -/

namespace Sys2Proof.Machine

/-! ### The address map -/

theorem locate_id : locate 0x000 = .id := by decide
theorem locate_ctrl : locate 0x004 = .ctrl := by decide
theorem locate_status : locate 0x008 = .status := by decide
theorem locate_cmd : locate 0x00C = .cmd := by decide
theorem locate_errcmd : locate 0x010 = .errcmd := by decide

/-- The map inside the blocks of CTX, by the distance `r` into the block. -/
theorem locate_ctx {off : Offset} (h : inRange off.toNat 0x100 0x200) :
    locate off =
      if (off.toNat - 0x100) % 0x100 < 0xE0 then
        .ctxVal (Fin.ofNat 2 ((off.toNat - 0x100) / 0x100)) (ctxFieldAt ((off.toNat - 0x100) % 0x100 / 0x20))
          (wordIndex ((off.toNat - 0x100) % 0x100))
      else if (off.toNat - 0x100) % 0x100 = 0xE0 then .ctxMeta (Fin.ofNat 2 ((off.toNat - 0x100) / 0x100))
      else .reserved := by
  simp (disch := omega) only [locate, if_pos, if_neg]

/-- The map inside the blocks of F. -/
theorem locate_f {off : Offset} (h : inRange off.toNat 0x400 0x400) :
    locate off =
      if (off.toNat - 0x400) % 0x40 < 0x20 then
        .fVal (Fin.ofNat 16 ((off.toNat - 0x400) / 0x40)) (wordIndex ((off.toNat - 0x400) % 0x40))
      else if (off.toNat - 0x400) % 0x40 = 0x20 then .fMeta (Fin.ofNat 16 ((off.toNat - 0x400) / 0x40))
      else .reserved := by
  simp (disch := omega) only [locate, if_pos, if_neg]

/-- The map inside the blocks of PT. -/
theorem locate_pt {off : Offset} (h : inRange off.toNat 0x800 0x400) :
    locate off =
      if (off.toNat - 0x800) % 0x80 < 0x60 then
        .ptVal (Fin.ofNat 8 ((off.toNat - 0x800) / 0x80)) (coordAt ((off.toNat - 0x800) % 0x80 / 0x20))
          (wordIndex ((off.toNat - 0x800) % 0x80))
      else if (off.toNat - 0x800) % 0x80 = 0x60 then .ptMeta (Fin.ofNat 8 ((off.toNat - 0x800) / 0x80))
      else .reserved := by
  simp (disch := omega) only [locate, if_pos, if_neg]

/-- The map inside the blocks of K. -/
theorem locate_k {off : Offset} (h : inRange off.toNat 0xC00 0x100) :
    locate off =
      if (off.toNat - 0xC00) % 0x40 < 0x20 then
        .kVal (Fin.ofNat 4 ((off.toNat - 0xC00) / 0x40)) (wordIndex ((off.toNat - 0xC00) % 0x40))
      else if (off.toNat - 0xC00) % 0x40 = 0x20 then .kMeta (Fin.ofNat 4 ((off.toNat - 0xC00) / 0x40))
      else .reserved := by
  simp (disch := omega) only [locate, if_pos, if_neg]

/-- The map of the WIRE words. -/
theorem locate_wire {off : Offset} (h : wireOffset off.toNat) :
    locate off = .wire (Fin.ofNat 17 ((off.toNat - 0xD00) / 4)) := by
  simp (disch := omega) only [locate, if_pos, if_neg]

/-- The map of TABLE. -/
theorem locate_table {off : Offset} (h : 0x4000 ≤ off.toNat) :
    locate off =
      if (off.toNat - 0x4000) % 0x40 < 0x20 then
        .tableX (Fin.ofNat 256 ((off.toNat - 0x4000) / 0x40)) (wordIndex ((off.toNat - 0x4000) % 0x40))
      else .tableY (Fin.ofNat 256 ((off.toNat - 0x4000) / 0x40)) (wordIndex ((off.toNat - 0x4000) % 0x40)) := by
  simp (disch := omega) only [locate, if_pos, if_neg]

/-- The offsets between the blocks hold nothing. -/
theorem locate_gap {off : Offset}
    (h : inRange off.toNat 0x14 0xEC ∨ inRange off.toNat 0x300 0x100 ∨ inRange off.toNat 0xD44 0x32BC) :
    locate off = .reserved := by
  rcases h with h | h | h <;> simp (disch := omega) only [locate, if_pos, if_neg]

/-- The five control words. -/
theorem locate_control {off : Offset} (h4 : off.toNat % 4 = 0) (h : off.toNat < 0x14) :
    off = 0x000 ∨ off = 0x004 ∨ off = 0x008 ∨ off = 0x00C ∨ off = 0x010 := by
  have : off.toNat = 0 ∨ off.toNat = 4 ∨ off.toNat = 8 ∨ off.toNat = 12 ∨ off.toNat = 16 := by omega
  rcases this with h | h | h | h | h
  · exact .inl (BitVec.eq_of_toNat_eq h)
  · exact .inr (.inl (BitVec.eq_of_toNat_eq h))
  · exact .inr (.inr (.inl (BitVec.eq_of_toNat_eq h)))
  · exact .inr (.inr (.inr (.inl (BitVec.eq_of_toNat_eq h))))
  · exact .inr (.inr (.inr (.inr (BitVec.eq_of_toNat_eq h))))

/-- Every offset lies in the control words, in a gap or in a block (R73). -/
theorem offset_regions (off : Offset) :
    off.toNat < 0x14
      ∨ (inRange off.toNat 0x14 0xEC ∨ inRange off.toNat 0x300 0x100 ∨ inRange off.toNat 0xD44 0x32BC)
      ∨ inRange off.toNat 0x100 0x200 ∨ inRange off.toNat 0x400 0x400 ∨ inRange off.toNat 0x800 0x400
      ∨ inRange off.toNat 0xC00 0x100 ∨ wireOffset off.toNat ∨ 0x4000 ≤ off.toNat := by
  omega

/-- The data locations are the offsets of R80's list. -/
theorem isData_locate {off : Offset} (h4 : off.toNat % 4 = 0) :
    (locate off).isData = true ↔ dataOffset off.toNat := by
  rcases offset_regions off with h | h | h | h | h | h | h | h
  · have no : ¬ dataOffset off.toNat := by
      rintro ((h | h | h | h | h) | (h | h | h | h) | h) <;> omega
    rcases locate_control h4 h with rfl | rfl | rfl | rfl | rfl <;> exact iff_of_false (by decide) no
  · rw [locate_gap h]
    have no : ¬ dataOffset off.toNat := by
      rintro ((h | h | h | h | h) | (h | h | h | h) | h) <;> omega
    simp [Loc.isData, no]
  · rw [locate_ctx h]
    split_ifs with h1 h2
    · simp only [Loc.isData, true_iff]; exact .inl (.inl ⟨h, by omega⟩)
    · simp only [Loc.isData, true_iff]; exact .inr (.inl (.inl ⟨h, by omega⟩))
    · have no : ¬ dataOffset off.toNat := by
        rintro ((h | h | h | h | h) | (h | h | h | h) | h) <;> omega
      simp [Loc.isData, no]
  · rw [locate_f h]
    split_ifs with h1 h2
    · simp only [Loc.isData, true_iff]; exact .inl (.inr (.inl ⟨h, by omega⟩))
    · simp only [Loc.isData, true_iff]; exact .inr (.inl (.inr (.inl ⟨h, by omega⟩)))
    · have no : ¬ dataOffset off.toNat := by
        rintro ((h | h | h | h | h) | (h | h | h | h) | h) <;> omega
      simp [Loc.isData, no]
  · rw [locate_pt h]
    split_ifs with h1 h2
    · simp only [Loc.isData, true_iff]; exact .inl (.inr (.inr (.inl ⟨h, by omega⟩)))
    · simp only [Loc.isData, true_iff]; exact .inr (.inl (.inr (.inr (.inl ⟨h, by omega⟩))))
    · have no : ¬ dataOffset off.toNat := by
        rintro ((h | h | h | h | h) | (h | h | h | h) | h) <;> omega
      simp [Loc.isData, no]
  · rw [locate_k h]
    split_ifs with h1 h2
    · simp only [Loc.isData, true_iff]; exact .inl (.inr (.inr (.inr (.inl ⟨h, by omega⟩))))
    · simp only [Loc.isData, true_iff]; exact .inr (.inl (.inr (.inr (.inr ⟨h, by omega⟩))))
    · have no : ¬ dataOffset off.toNat := by
        rintro ((h | h | h | h | h) | (h | h | h | h) | h) <;> omega
      simp [Loc.isData, no]
  · rw [locate_wire h]; simp only [Loc.isData, true_iff]; exact .inr (.inr h)
  · have hd : dataOffset off.toNat := .inl (.inr (.inr (.inr (.inr ⟨h, by omega⟩))))
    rw [locate_table h]
    split_ifs <;> simp only [Loc.isData, hd]

/-- A reserved place is an offset beyond the control words that is no data location. -/
theorem locate_reserved {off : Offset} (h4 : off.toNat % 4 = 0) :
    locate off = .reserved ↔ reservedOffset off.toNat := by
  by_cases h : off.toNat < 0x14
  · have : ¬ reservedOffset off.toNat := fun r => by have := r.1; omega
    rcases locate_control h4 h with rfl | rfl | rfl | rfl | rfl <;> exact iff_of_false (by decide) this
  · have hd := isData_locate h4
    have hr : locate off = .reserved ↔ (locate off).isData = false := by
      constructor
      · intro e; rw [e]; rfl
      · intro e
        have hc : ∀ l, l = locate off → l.isData = false → l = .reserved ∨ l = .id ∨ l = .ctrl ∨ l = .status ∨ l = .cmd
            ∨ l = .errcmd := by
          intro l _ hl; cases l <;> simp_all [Loc.isData]
        rcases hc _ rfl e with hc | hc
        · exact hc
        · exfalso
          rcases offset_regions off with g | g | g | g | g | g | g | g
          · exact h g
          · rw [locate_gap g] at hc; simp at hc
          · rw [locate_ctx g] at hc; split_ifs at hc <;> simp at hc
          · rw [locate_f g] at hc; split_ifs at hc <;> simp at hc
          · rw [locate_pt g] at hc; split_ifs at hc <;> simp at hc
          · rw [locate_k g] at hc; split_ifs at hc <;> simp at hc
          · rw [locate_wire g] at hc; simp at hc
          · rw [locate_table g] at hc; split_ifs at hc <;> simp at hc
    rw [hr, ← Bool.not_eq_true, hd]
    exact ⟨fun n => ⟨by omega, n⟩, fun r => r.2⟩

/-! ### The map read backwards -/

/-- The number of a context value in its block (R73). -/
def CtxField.index : CtxField → Nat
  | .p => 0
  | .a => 1
  | .b => 2
  | .gx => 3
  | .gy => 4
  | .n => 5
  | .h => 6

/-- The number of a coordinate in its block (R73). -/
def Coord.index : Coord → Nat
  | .x => 0
  | .y => 1
  | .z => 2

/-- The offset of a place; the reserved places have none, and are given 0 (R73). -/
def Loc.offset : Loc → Nat
  | .id => 0x000
  | .ctrl => 0x004
  | .status => 0x008
  | .cmd => 0x00C
  | .errcmd => 0x010
  | .ctxVal c fld j => 0x100 + 0x100 * c.val + 0x20 * fld.index + 4 * j.val
  | .ctxMeta c => 0x1E0 + 0x100 * c.val
  | .fVal i j => 0x400 + 0x40 * i.val + 4 * j.val
  | .fMeta i => 0x420 + 0x40 * i.val
  | .ptVal i co j => 0x800 + 0x80 * i.val + 0x20 * co.index + 4 * j.val
  | .ptMeta i => 0x860 + 0x80 * i.val
  | .kVal i j => 0xC00 + 0x40 * i.val + 4 * j.val
  | .kMeta i => 0xC20 + 0x40 * i.val
  | .wire m => 0xD00 + 4 * m.val
  | .tableX i j => 0x4000 + 0x40 * i.val + 4 * j.val
  | .tableY i j => 0x4020 + 0x40 * i.val + 4 * j.val
  | .reserved => 0

theorem index_ctxFieldAt {n : Nat} (h : n < 7) : (ctxFieldAt n).index = n := by
  have : n = 0 ∨ n = 1 ∨ n = 2 ∨ n = 3 ∨ n = 4 ∨ n = 5 ∨ n = 6 := by omega
  rcases this with rfl | rfl | rfl | rfl | rfl | rfl | rfl <;> rfl

theorem index_coordAt {n : Nat} (h : n < 3) : (coordAt n).index = n := by
  have : n = 0 ∨ n = 1 ∨ n = 2 := by omega
  rcases this with rfl | rfl | rfl <;> rfl

theorem ctxFieldAt_index (fld : CtxField) : ctxFieldAt fld.index = fld := by cases fld <;> rfl

theorem coordAt_index (co : Coord) : coordAt co.index = co := by cases co <;> rfl

theorem CtxField.index_lt (fld : CtxField) : fld.index < 7 := by cases fld <;> decide

theorem Coord.index_lt (co : Coord) : co.index < 3 := by cases co <;> decide

theorem wordIndex_val (r : Nat) : (wordIndex r).val = r % 0x20 / 4 := by
  show r % 0x20 / 4 % 8 = _
  omega

/-- The map loses no offset: where something stands, its place gives the offset back. -/
theorem offset_locate {off : Offset} (h4 : off.toNat % 4 = 0) (h : locate off ≠ .reserved) :
    (locate off).offset = off.toNat := by
  rcases offset_regions off with g | g | g | g | g | g | g | g
  · rcases locate_control h4 g with rfl | rfl | rfl | rfl | rfl <;> decide
  · exact absurd (locate_gap g) h
  · rw [locate_ctx g] at h ⊢
    split_ifs at h ⊢ with h1 h2
    · simp only [Loc.offset, wordIndex_val, Fin.ofNat]
      rw [index_ctxFieldAt (by omega)]; omega
    · simp only [Loc.offset, Fin.ofNat]; omega
    · exact absurd rfl h
  · rw [locate_f g] at h ⊢
    split_ifs at h ⊢ with h1 h2
    · simp only [Loc.offset, wordIndex_val, Fin.ofNat]; omega
    · simp only [Loc.offset, Fin.ofNat]; omega
    · exact absurd rfl h
  · rw [locate_pt g] at h ⊢
    split_ifs at h ⊢ with h1 h2
    · simp only [Loc.offset, wordIndex_val, Fin.ofNat]
      rw [index_coordAt (by omega)]; omega
    · simp only [Loc.offset, Fin.ofNat]; omega
    · exact absurd rfl h
  · rw [locate_k g] at h ⊢
    split_ifs at h ⊢ with h1 h2
    · simp only [Loc.offset, wordIndex_val, Fin.ofNat]; omega
    · simp only [Loc.offset, Fin.ofNat]; omega
    · exact absurd rfl h
  · rw [locate_wire g]; simp only [Loc.offset, Fin.ofNat]; omega
  · have := off.isLt
    rw [locate_table g] at h ⊢
    split_ifs at h ⊢ with h1 <;> simp only [Loc.offset, wordIndex_val, Fin.ofNat] <;> omega

/-- Two offsets of one place are one offset. -/
theorem locate_injective {off off' : Offset} (h4 : off.toNat % 4 = 0) (h4' : off'.toNat % 4 = 0)
    (h : locate off ≠ .reserved) (he : locate off' = locate off) : off' = off := by
  apply BitVec.eq_of_toNat_eq
  rw [← offset_locate h4 h, ← he, offset_locate h4' (he ▸ h)]

/-- Every place but the reserved one stands at its offset. -/
theorem locate_offset (loc : Loc) (h : loc ≠ .reserved) : locate (BitVec.ofNat 15 loc.offset) = loc := by
  have hw : ∀ n j : Nat, j < 8 → wordIndex (0x20 * n + 4 * j) = Fin.ofNat 8 j := by
    intro n j hj; apply Fin.ext; rw [wordIndex_val]; show _ = j % 8; omega
  have fin8 : ∀ j : Fin 8, Fin.ofNat 8 j.val = j := by decide
  have toN : ∀ n, n < 0x8000 → (BitVec.ofNat 15 n).toNat = n := by
    intro n hn; rw [BitVec.toNat_ofNat]; exact Nat.mod_eq_of_lt hn
  cases loc with
  | id => decide
  | ctrl => decide
  | status => decide
  | cmd => decide
  | errcmd => decide
  | reserved => exact absurd rfl h
  | ctxMeta c => revert c; decide +kernel
  | fMeta i => revert i; decide +kernel
  | ptMeta i => revert i; decide +kernel
  | kMeta i => revert i; decide +kernel
  | wire m => revert m; decide +kernel
  | fVal i j => revert i j; decide +kernel
  | kVal i j => revert i j; decide +kernel
  | ctxVal c fld j =>
    cases fld <;> revert c j <;> decide +kernel
  | ptVal i co j =>
    cases co <;> revert i j <;> decide +kernel
  | tableX i j =>
    have hi := i.isLt
    have hj := j.isLt
    have e := toN (0x4000 + 0x40 * i.val + 4 * j.val) (by omega)
    simp only [Loc.offset]
    rw [locate_table (by omega), e, if_pos (by omega)]
    rw [show (0x4000 + 0x40 * i.val + 4 * j.val - 0x4000) / 0x40 = i.val by omega,
      show (0x4000 + 0x40 * i.val + 4 * j.val - 0x4000) % 0x40 = 0x20 * 0 + 4 * j.val by omega, hw 0 j.val hj, fin8]
    rw [show Fin.ofNat 256 i.val = i from Fin.ext (Nat.mod_eq_of_lt hi)]
  | tableY i j =>
    have hi := i.isLt
    have hj := j.isLt
    have e := toN (0x4020 + 0x40 * i.val + 4 * j.val) (by omega)
    simp only [Loc.offset]
    rw [locate_table (by omega), e, if_neg (by omega)]
    rw [show (0x4020 + 0x40 * i.val + 4 * j.val - 0x4000) / 0x40 = i.val by omega,
      show (0x4020 + 0x40 * i.val + 4 * j.val - 0x4000) % 0x40 = 0x20 * 1 + 4 * j.val by omega, hw 1 j.val hj, fin8]
    rw [show Fin.ofNat 256 i.val = i from Fin.ext (Nat.mod_eq_of_lt hi)]

/-! ### Words of a value -/

theorem valueWord_setValueWord_self (v : Value) (j : Fin 8) (w : Word) : valueWord (setValueWord v j w) j = w := by
  apply BitVec.eq_of_getLsbD_eq
  intro i hi
  simp only [valueWord, setValueWord, BitVec.getLsbD_extractLsb', BitVec.getLsbD_or, BitVec.getLsbD_and,
    BitVec.getLsbD_not, BitVec.getLsbD_shiftLeft, BitVec.getLsbD_setWidth]
  have hj := j.isLt
  have h1 : 32 * j.val + i - 32 * j.val = i := by omega
  have h2 : 32 * j.val + i < 256 := by omega
  have h3 : ¬ 32 * j.val + i < 32 * j.val := by omega
  have ones : (0xFFFFFFFF : Value).getLsbD i = true := by
    interval_cases i <;> decide
  revert ones
  generalize (0xFFFFFFFF : Value) = m
  intro ones
  simp only [h1, h2, h3, hi, ones, show i < 256 by omega, decide_true, decide_false, Bool.true_and, Bool.not_false,
    Bool.not_true, Bool.and_false, Bool.false_or]

theorem valueWord_setValueWord_ne (v : Value) {j k : Fin 8} (w : Word) (h : k ≠ j) :
    valueWord (setValueWord v j w) k = valueWord v k := by
  apply BitVec.eq_of_getLsbD_eq
  intro i hi
  simp only [valueWord, setValueWord, BitVec.getLsbD_extractLsb', BitVec.getLsbD_or, BitVec.getLsbD_and,
    BitVec.getLsbD_not, BitVec.getLsbD_shiftLeft, BitVec.getLsbD_setWidth]
  have hj := j.isLt
  have hk := k.isLt
  have hne : k.val ≠ j.val := fun e => h (Fin.ext e)
  have h2 : 32 * k.val + i < 256 := by omega
  have high : ∀ n, 32 ≤ n → (0xFFFFFFFF : Value).getLsbD n = false := by
    intro n hn
    rw [show (0xFFFFFFFF : Value) = BitVec.setWidth 256 (0xFFFFFFFF : BitVec 32) by decide, BitVec.getLsbD_setWidth,
      BitVec.getLsbD_of_ge _ _ hn, Bool.and_false]
  revert high
  generalize (0xFFFFFFFF : Value) = m
  intro high
  by_cases lt : 32 * k.val + i < 32 * j.val
  · simp [lt, h2, hi]
  · have ge : 32 ≤ 32 * k.val + i - 32 * j.val := by omega
    simp [lt, h2, hi, high _ ge, BitVec.getLsbD_of_ge w _ ge]

/-! ### Reads after a data write -/

/-- The places of the words of 256-bit values. -/
def Loc.isValue : Loc → Bool
  | .ctxVal _ _ _ | .fVal _ _ | .ptVal _ _ _ | .kVal _ _ | .tableX _ _ | .tableY _ _ => true
  | .id | .ctrl | .status | .cmd | .errcmd | .ctxMeta _ | .fMeta _ | .ptMeta _ | .kMeta _ | .wire _ | .reserved => false

@[simp] theorem Context.field_withField (c : Context) (fld : CtxField) (v : Value) : (c.withField fld v).field fld = v := by
  cases fld <;> rfl

theorem Context.field_withField_ne (c : Context) {fld fld' : CtxField} (v : Value) (h : fld' ≠ fld) :
    (c.withField fld v).field fld' = c.field fld' := by
  cases fld <;> cases fld' <;> first | exact absurd rfl h | rfl

theorem Context.field_dom (c : Context) (fld : CtxField) (d : Byte) :
    Context.field { c with dom := d } fld = c.field fld := by
  cases fld <;> rfl

@[simp] theorem Context.valid_withField (c : Context) (fld : CtxField) (v : Value) :
    (c.withField fld v).valid = c.valid := by cases fld <;> rfl

@[simp] theorem PointReg.coord_withCoord (r : PointReg) (co : Coord) (v : Value) : (r.withCoord co v).coord co = v := by
  cases co <;> rfl

theorem PointReg.coord_withCoord_ne (r : PointReg) {co co' : Coord} (v : Value) (h : co' ≠ co) :
    (r.withCoord co v).coord co' = r.coord co' := by
  cases co <;> cases co' <;> first | exact absurd rfl h | rfl

@[simp] theorem PointReg.metaWord_withCoord (r : PointReg) (co : Coord) (v : Value) :
    (r.withCoord co v).metaWord = r.metaWord := by cases co <;> rfl

/-- What no data write changes (R79). -/
theorem State.writeData_frame (s : State) (loc : Loc) (w : Word) :
    (s.writeData loc w).ie = s.ie ∧ (s.writeData loc w).tvalid = s.tvalid ∧ (s.writeData loc w).busy = s.busy
      ∧ (s.writeData loc w).done = s.done ∧ (s.writeData loc w).err = s.err ∧ (s.writeData loc w).eq = s.eq
      ∧ (s.writeData loc w).ovf = s.ovf ∧ (s.writeData loc w).code = s.code ∧ (s.writeData loc w).cmd = s.cmd
      ∧ (s.writeData loc w).errcmd = s.errcmd ∧ (s.writeData loc w).inputs = s.inputs
      ∧ (s.writeData loc w).rdata = s.rdata ∧ (s.writeData loc w).draws = s.draws := by
  cases loc
  case wire m =>
    unfold State.writeData State.writeWireWord State.setWireByte
    simp only
    split_ifs <;> exact ⟨rfl, rfl, rfl, rfl, rfl, rfl, rfl, rfl, rfl, rfl, rfl, rfl, rfl⟩
  all_goals exact ⟨rfl, rfl, rfl, rfl, rfl, rfl, rfl, rfl, rfl, rfl, rfl, rfl, rfl⟩

/-- A value word reads back what an idle host write put there (R72, R74). -/
theorem State.readLoc_writeData_self (s : State) {loc : Loc} (w : Word) (h : loc.isValue = true) :
    (s.writeData loc w).readLoc loc = w := by
  cases loc <;> simp only [Loc.isValue, Bool.false_eq_true] at h <;>
    simp only [State.writeData, State.writeCtxWord, State.readLoc, State.readF_writeF, State.readPt_writePt,
      State.readK_writeK, State.readCtx_writeCtx, State.readTable_writeTable, Context.field_dom,
      Context.field_withField, PointReg.coord_withCoord, valueWord_setValueWord_self]

/-- A write of a value word changes no other word of the window, but a context's META word, whose DOM it clears
(R29, R74, R76). -/
theorem State.readLoc_writeData_ne (s : State) {loc loc' : Loc} (w : Word) (h : loc.isValue = true) (hne : loc' ≠ loc)
    (hm : ∀ c fld j, loc = .ctxVal c fld j → loc' ≠ .ctxMeta c) :
    (s.writeData loc w).readLoc loc' = s.readLoc loc' := by
  have word : ∀ (v : Value) (j k : Fin 8), k ≠ j → valueWord (setValueWord v j w) k = valueWord v k :=
    fun v j k => valueWord_setValueWord_ne v w
  cases loc <;> simp only [Loc.isValue, Bool.false_eq_true] at h
  case ctxVal c fld j =>
    have hm' := hm c fld j rfl
    cases loc' <;> try rfl
    case ctxVal c' fld' j' =>
      by_cases hc : c' = c
      · subst hc
        simp only [State.readLoc, State.writeData, State.writeCtxWord, State.readCtx_writeCtx, Context.field_dom]
        by_cases hf : fld' = fld
        · subst hf
          rw [Context.field_withField]
          exact word _ _ _ fun e => hne (by rw [e])
        · rw [Context.field_withField_ne _ _ hf]
      · simp only [State.readLoc, State.writeData, State.writeCtxWord, State.readCtx_writeCtx_ne _ _ _ _ (Ne.symm hc)]
    case ctxMeta c' =>
      have hc : c ≠ c' := fun e => hm' (by rw [e])
      simp only [State.readLoc, State.writeData, State.writeCtxWord, State.readCtx_writeCtx_ne _ _ _ _ hc]
  case fVal i j =>
    cases loc' <;> try rfl
    case fVal i' j' =>
      by_cases hi : i' = i
      · subst hi
        simp only [State.readLoc, State.writeData, State.readF_writeF]
        exact word _ _ _ fun e => hne (by rw [e])
      · simp only [State.readLoc, State.writeData, State.readF_writeF_ne _ _ _ _ (Ne.symm hi)]
    case fMeta i' =>
      by_cases hi : i' = i
      · subst hi; simp only [State.readLoc, State.writeData, State.readF_writeF]; rfl
      · simp only [State.readLoc, State.writeData, State.readF_writeF_ne _ _ _ _ (Ne.symm hi)]
  case ptVal i co j =>
    cases loc' <;> try rfl
    case ptVal i' co' j' =>
      by_cases hi : i' = i
      · subst hi
        simp only [State.readLoc, State.writeData, State.readPt_writePt]
        by_cases hf : co' = co
        · subst hf
          rw [PointReg.coord_withCoord]
          exact word _ _ _ fun e => hne (by rw [e])
        · rw [PointReg.coord_withCoord_ne _ _ hf]
      · simp only [State.readLoc, State.writeData, State.readPt_writePt_ne _ _ _ _ (Ne.symm hi)]
    case ptMeta i' =>
      by_cases hi : i' = i
      · subst hi
        simp only [State.readLoc, State.writeData, State.readPt_writePt, PointReg.metaWord_withCoord]
      · simp only [State.readLoc, State.writeData, State.readPt_writePt_ne _ _ _ _ (Ne.symm hi)]
  case kVal i j =>
    cases loc' <;> try rfl
    case kVal i' j' =>
      by_cases hi : i' = i
      · subst hi
        simp only [State.readLoc, State.writeData, State.readK_writeK]
        exact word _ _ _ fun e => hne (by rw [e])
      · simp only [State.readLoc, State.writeData, State.readK_writeK_ne _ _ _ _ (Ne.symm hi)]
    case kMeta i' =>
      by_cases hi : i' = i
      · subst hi; simp only [State.readLoc, State.writeData, State.readK_writeK]; rfl
      · simp only [State.readLoc, State.writeData, State.readK_writeK_ne _ _ _ _ (Ne.symm hi)]
  case tableX i j =>
    cases loc' <;> try rfl
    case tableX i' j' =>
      by_cases hi : i' = i
      · subst hi
        simp only [State.readLoc, State.writeData, State.readTable_writeTable]
        exact word _ _ _ fun e => hne (by rw [e])
      · simp only [State.readLoc, State.writeData, State.readTable_writeTable_ne _ _ _ _ (Ne.symm hi)]
    case tableY i' j' =>
      by_cases hi : i' = i
      · subst hi; simp only [State.readLoc, State.writeData, State.readTable_writeTable]
      · simp only [State.readLoc, State.writeData, State.readTable_writeTable_ne _ _ _ _ (Ne.symm hi)]
  case tableY i j =>
    cases loc' <;> try rfl
    case tableX i' j' =>
      by_cases hi : i' = i
      · subst hi; simp only [State.readLoc, State.writeData, State.readTable_writeTable]
      · simp only [State.readLoc, State.writeData, State.readTable_writeTable_ne _ _ _ _ (Ne.symm hi)]
    case tableY i' j' =>
      by_cases hi : i' = i
      · subst hi
        simp only [State.readLoc, State.writeData, State.readTable_writeTable]
        exact word _ _ _ fun e => hne (by rw [e])
      · simp only [State.readLoc, State.writeData, State.readTable_writeTable_ne _ _ _ _ (Ne.symm hi)]

end Sys2Proof.Machine
end

