-- ==== Sys2Proof/Laws/Step.lean ====
section
/-! SUPPORT. Everything a step can do, said once, and the step of each kind of input (spec/60_exceptions.md R307;
spec/20_memory.md R72, R78). -/

namespace Sys2Proof.Machine

theorem step_write (s : State) {off : Offset} (w : Word) (rest : List Input) (h : off.toNat % 4 = 0) :
    step { s with inputs := .write off w :: rest }
      = .next (({ s with inputs := rest } : State).writeLoc (locate off) w) := by
  simp [step, nextStep, hostWrite, aligned, h]

theorem step_read_defined (s : State) {off : Offset} (rest : List Input) (h : off.toNat % 4 = 0)
    (hd : s.busy = false ∨ (locate off).isData = false) :
    step { s with inputs := .read off :: rest }
      = .next { s with inputs := rest, rdata := ({ s with inputs := rest } : State).readLoc (locate off) } := by
  rcases hd with hd | hd <;> simp [step, nextStep, hostRead, aligned, h, hd]

theorem step_read_busy (s : State) {off : Offset} (rest : List Input) (h : off.toNat % 4 = 0) (hb : s.busy = true)
    (hd : (locate off).isData = true) :
    step { s with inputs := .read off :: rest }
      = .next { s with
          inputs := rest
          rdata := (Config.freeValue ({ s with inputs := rest } : State) off.toNat).setWidth 32
          draws := s.draws + 1 } := by
  simp [step, nextStep, hostRead, aligned, h, hb, hd]

/-- A read changes nothing but the model's own fields (R78). -/
theorem hostRead_cases {off : Offset} {s t : State} (h : hostRead off s = .next t) :
    off.toNat % 4 = 0 ∧ ∃ v n, t = { s with rdata := v, draws := n } := by
  by_cases ha : off.toNat % 4 = 0
  · refine ⟨ha, ?_⟩
    simp only [hostRead, aligned, ha] at h
    split at h
    · simp at h
    · split at h
      · exact ⟨_, _, (Host.Outcome.next.inj h).symm⟩
      · exact ⟨_, s.draws, (Host.Outcome.next.inj h).symm⟩
  · simp [hostRead, aligned, ha] at h

theorem hostWrite_cases {off : Offset} {w : Word} {s t : State} (h : hostWrite off w s = .next t) :
    off.toNat % 4 = 0 ∧ t = s.writeLoc (locate off) w := by
  by_cases ha : off.toNat % 4 = 0
  · simp only [hostWrite, aligned, ha] at h
    exact ⟨ha, (Host.Outcome.next.inj h).symm⟩
  · simp [hostWrite, aligned, ha] at h

/-- Everything a step can do: complete the command in flight, perform one host access, reset, or hold (R307). -/
theorem step_cases {s t : State} (h : step s = .next t) :
    (s.busy = true ∧ ∃ rest, completeInFlight { s with inputs := rest } = .next t)
      ∨ (∃ off rest v n, s.inputs = .read off :: rest ∧ t = { s with inputs := rest, rdata := v, draws := n })
      ∨ (∃ off w rest, s.inputs = .write off w :: rest ∧ off.toNat % 4 = 0
          ∧ t = ({ s with inputs := rest } : State).writeLoc (locate off) w)
      ∨ (∃ rest, s.inputs = .hardReset :: rest ∧ t = ({ s with inputs := rest } : State).hardReset)
      ∨ (s.busy = false ∧ ∃ rest v, t = { s with inputs := rest, rdata := v }) := by
  simp only [step, nextStep] at h
  split at h
  · rename_i hi
    split at h
    · rename_i hb; exact .inl ⟨hb, s.inputs, h⟩
    · rename_i hb
      exact .inr (.inr (.inr (.inr ⟨by simpa using hb, s.inputs, s.rdata, (Host.Outcome.next.inj h).symm⟩)))
  · rename_i off rest hi
    obtain ⟨-, v, n, ht⟩ := hostRead_cases h
    exact .inr (.inl ⟨off, rest, v, n, hi, ht⟩)
  · rename_i off w rest hi
    obtain ⟨ha, ht⟩ := hostWrite_cases h
    exact .inr (.inr (.inl ⟨off, w, rest, hi, ha, ht⟩))
  · simp at h
  · split at h
    · rename_i hb; exact .inl ⟨hb, s.inputs, h⟩
    · rename_i rest hi hb
      exact .inr (.inr (.inr (.inr ⟨by simpa using hb, rest, _, (Host.Outcome.next.inj h).symm⟩)))
  · rename_i rest hi
    split at h
    · rename_i hb; exact .inl ⟨hb, rest, h⟩
    · rename_i hb
      exact .inr (.inr (.inr (.inr ⟨by simpa using hb, rest, s.rdata, (Host.Outcome.next.inj h).symm⟩)))
  · rename_i rest hi
    exact .inr (.inr (.inr (.inl ⟨rest, hi, (Host.Outcome.next.inj h).symm⟩)))

end Sys2Proof.Machine
end

