-- ==== Sys2Proof/Tests/Slice0.lean ====
section
/-! SUPPORT. The model's own tests: the words of spec/95_test_vectors.md section 2 and its corner cases, one step of each
command with the results of its sections 3 to 6, and for each statement that has hypotheses a witness that meets them.
Every expected value is the spec's. -/

open Sys2Proof Sys2Proof.Machine WeierstrassCurve.Affine

namespace Sys2Proof.Tests

set_option Elab.async false

/-! ### Words (spec/95_test_vectors.md section 2) -/

/-- The word decodes to the command, and the command encodes to the word. -/
def isWordOf (w : Word) (i : Instr) : Bool :=
  encode i == w && match decode w with | .ok j => i == j | .error _ => false

theorem test_words_control :
    isWordOf 0x00000000 .nop ∧ isWordOf 0x01000040 (.ctxld 0 1) ∧ isWordOf 0x01100040 (.ctxld 1 1)
    ∧ isWordOf 0x00000041 (.pdec 0 0) ∧ isWordOf 0x00005042 (.penc 5) := by decide +kernel

theorem test_words_field :
    isWordOf 0x00021310 (.fadd 3 1 2) ∧ isWordOf 0x00021311 (.fsub 3 1 2) ∧ isWordOf 0x00021312 (.fmul 3 1 2)
    ∧ isWordOf 0x00001313 (.fneg 3 1) ∧ isWordOf 0x00001314 (.finv 3 1) ∧ isWordOf 0x00021315 (.fdiv 3 1 2)
    ∧ isWordOf 0x05001316 (.fpow 3 1 5) ∧ isWordOf 0x00010317 (.fred 3 0 1 0) ∧ isWordOf 0x00110317 (.fred 3 0 1 1) := by
  decide +kernel

theorem test_words_point :
    isWordOf 0x00000620 (.pinf 6 0) ∧ isWordOf 0x000FE421 (.pmake 4 14 15 0) ∧ isWordOf 0x00000122 (.pneg 1 0)
    ∧ isWordOf 0x00010023 (.peq 0 1) ∧ isWordOf 0x00010224 (.padd 2 0 1) ∧ isWordOf 0x00000125 (.pdbl 1 0)
    ∧ isWordOf 0x00000126 (.ptoj 1 0) ∧ isWordOf 0x00000127 (.ptoa 1 0) := by decide +kernel

theorem test_words_scalar : isWordOf 0x00000130 (.smul 1 0 0) ∧ isWordOf 0x00000131 (.smulg 1 0 0) := by decide +kernel

theorem test_words_pseudo :
    isWordOf 0x01001316 (.fmov 3 1) ∧ isWordOf 0x00001316 (.fone 3 1) ∧ isWordOf 0x00011311 (.fzero 3 1)
    ∧ isWordOf 0x00011312 (.fsqr 3 1) := by decide +kernel

/-- A word written out field by field from R101, bit 31 first: IMM, RSV, C, S2, S1, D, OP. -/
theorem test_word_bit_by_bit :
    decode 0b00000000_000_1_0001_0000_0011_00010111#32 = .ok (.fred 3 0 1 1)
    ∧ decode 0b11111111_000_0_0000_0001_0011_00010110#32 = .ok (.fpow 3 1 0xFF) := by decide +kernel

theorem test_table_word : decodeTableWord 32 0x00010224 = some (.padd 2 0 1) ∧ decodeTableWord 32 0x43 = none := by
  decide +kernel

theorem test_assembly : (Instr.fpow 3 1 0xFF).assembly = "FPOW F3, F1, #-1" ∧ (Instr.ctxld 1 1).assembly = "CTXLD C1, #1" := by
  decide +kernel

/-! ### The WellFormed smoke test: an ill-formed word for each check, which the check refuses -/

/-- The words section 2 lists as illegal. -/
def illegalWords : List Word :=
  [0x00000001, 0x00000043, 0xFFFFFFFF, 0x00000100, 0x00221310, 0x00121310, 0x00011313, 0x00000820, 0x00004130,
    0x00014317, 0x01010317, 0x00010123, 0x01000140]

theorem test_illegal_words_refused :
    (illegalWords.all fun w => !wordWellFormed w && (decode w).toOption.isNone) = true := by decide +kernel

/-- A word of each row with one bit that its mask holds at 0 set: each row refuses its own. -/
theorem test_each_row_refuses :
    (Opcode.all.all fun o => !(wordWellFormed (o.row.pattern ||| 0x00200000)) && wordWellFormed o.row.pattern) = true := by
  decide +kernel

theorem test_illegal_by_name :
    decode 0x00000043 = .error .unassignedOpcode ∧ decode 0x00221310 = .error .reservedField
    ∧ decode 0x00011313 = .error .unusedField ∧ decode 0x00000820 = .error .registerClass := by decide +kernel

/-! ### One step of each command (spec/95_test_vectors.md sections 3 to 6) -/

/-- `toy`: y² = x³ + x over F₁₁. -/
def toyContext : Context := ⟨11, 1, 0, 8, 6, 12, 1, 0, true⟩

/-- The reset state with `toy` in `CTX[0]`. -/
def toy : State := State.reset.writeCtx 0 toyContext

/-- `F[i] = v`, tag 0. -/
def fReg (i : FReg) (v : Nat) (s : State) : State := s.setField i v 0
/-- `PT[i] = (x, y)`, tag 0. -/
def aff (i : PReg) (x y : Nat) (s : State) : State := s.writeAff i (.pt x y) 0
/-- `PT[i] = J(x, y, z)`, tag 0. -/
def jac (i : PReg) (x y z : Nat) (s : State) : State := s.writeJac i ⟨x, y, z⟩ 0
/-- `K[i] = v`. -/
def kReg (i : KReg) (v : Nat) (s : State) : State := s.writeK i ⟨BitVec.ofNat 256 v, true⟩

/-- The state after one step that runs this word. -/
def stepped (w : Nat) (s : State) : State :=
  match step (s.withFetchWord 32 w) with | .next t => t | .fault _ => s | .refused _ => s

/-- The completion code and the F register after one step that runs the word. -/
def fAfter (w : Nat) (i : FReg) (s : State) : Nat × Nat × Bool :=
  let t := stepped w s
  (t.code.toNat, (t.readF i).val.toNat, (t.readF i).v)

/-- The completion code, the P register's coordinates and its META word after one step that runs the word. -/
def pAfter (w : Nat) (i : PReg) (s : State) : Nat × JacPoint × Word :=
  let t := stepped w s
  (t.code.toNat, (t.readPt i).jacVal, (t.readPt i).metaWord)

/-- The completion code and STATUS after one step that runs the word. -/
def statusAfter (w : Nat) (s : State) : Word := (stepped w s).statusWord

theorem test_reset : State.reset.ctrlWord = 0 ∧ State.reset.statusWord = 0 ∧ State.reset.errcmd = 0 ∧ State.reset.irq = false := by
  decide +kernel

theorem test_nop : statusAfter 0x00000000 toy = 0x00000002 := by decide +kernel
theorem test_illegal_completes : statusAfter 0x43 toy = 0x00001006 ∧ (stepped 0x43 toy).errcmd = 0x43 := by decide +kernel
/-- 3.1.4, 3.1.5. -/
theorem test_fadd : fAfter 0x00011110 1 (fReg 1 6 toy) = (0, 1, true) := by decide +kernel
theorem test_fadd_range : (fAfter 0x00021310 3 (fReg 1 11 (fReg 2 1 toy))) = (3, 0, false) := by decide +kernel
/-- 3.2.1. -/
theorem test_fsub : fAfter 0x00021311 3 (fReg 1 3 (fReg 2 5 toy)) = (0, 9, true) := by decide +kernel
/-- 3.3.1. -/
theorem test_fmul : fAfter 0x00021312 3 (fReg 1 7 (fReg 2 9 toy)) = (0, 8, true) := by decide +kernel
/-- 3.4.1, 3.4.2. -/
theorem test_fneg : fAfter 0x00001313 3 (fReg 1 3 toy) = (0, 8, true) ∧ fAfter 0x00001313 3 (fReg 1 0 toy) = (0, 0, true) := by
  decide +kernel
/-- 3.5.1, 3.5.6 (composite modulus). -/
theorem test_finv : fAfter 0x00001314 3 (fReg 1 3 toy) = (0, 4, true) := by decide +kernel
theorem test_finv_composite :
    fAfter 0x00001314 3 (fReg 1 3 (toy.writeCtx 0 ⟨15, 1, 0, 8, 6, 12, 1, 0, true⟩)) = (0, 3, true) := by decide +kernel
/-- 3.6.1, 3.6.3. -/
theorem test_fdiv : fAfter 0x00021315 3 (fReg 1 7 (fReg 2 3 toy)) = (0, 6, true) := by decide +kernel
theorem test_fdiv_zero : fAfter 0x00021315 3 (fReg 1 7 (fReg 2 0 toy)) = (4, 0, false) := by decide +kernel
/-- 3.7.5, 3.7.7. -/
theorem test_fpow : fAfter 0x7F001316 3 (fReg 1 3 toy) = (0, 9, true) := by decide +kernel
theorem test_fpow_negative_first : fAfter 0xFF001316 3 toy = (5, 0, false) := by decide +kernel
/-- 3.8.1: hi is S1, lo is S2. -/
theorem test_fred : fAfter 0x00010317 3 (kReg 0 1 (kReg 1 5 toy)) = (0, 3, true) := by decide +kernel
/-- 4.1.1, 4.1.2. -/
theorem test_pinf : pAfter 0x00000620 6 toy = (0, ⟨0, 0, 0⟩, 0x00020001) := by decide +kernel
theorem test_pinf_context : (pAfter 0x00100620 6 toy).1 = 18 := by decide +kernel
/-- 4.2.1. -/
theorem test_pmake : pAfter 0x000FE421 4 (fReg 14 9 (fReg 15 10 toy)) = (0, ⟨9, 10, 0⟩, 0x00000001) := by decide +kernel
/-- 4.3.1, 4.3.4. -/
theorem test_pneg : pAfter 0x00000122 1 (aff 0 5 8 toy) = (0, ⟨5, 3, 0⟩, 1) := by decide +kernel
theorem test_pneg_jacobian : (pAfter 0x00000122 1 (jac 0 9 2 9 toy)).1 = 12 := by decide +kernel
/-- 4.4.1, 4.4.4. -/
theorem test_peq : statusAfter 0x00010023 (aff 0 5 3 (aff 1 5 3 toy)) = 0x0000000A := by decide +kernel
theorem test_peq_raw_triples : statusAfter 0x00010023 (jac 0 9 2 9 (jac 1 5 8 1 toy)) = 0x00000002 := by decide +kernel
/-- 4.5.1, 4.6.1. -/
theorem test_padd_affine : pAfter 0x00010224 2 (aff 0 5 3 (aff 1 9 10 toy)) = (0, ⟨9, 1, 0⟩, 1) := by decide +kernel
theorem test_padd_mixed : pAfter 0x00010224 2 (jac 0 9 2 9 (jac 1 8 6 1 toy)) = (0, ⟨6, 2, 9⟩, 0x00010001) := by decide +kernel
/-- 4.7.1, 4.7.6. -/
theorem test_pdbl_affine : pAfter 0x00000125 1 (aff 0 5 3 toy) = (0, ⟨5, 8, 0⟩, 1) := by decide +kernel
theorem test_pdbl_jacobian : pAfter 0x00000125 1 (jac 0 9 2 9 toy) = (0, ⟨1, 4, 3⟩, 0x00010001) := by decide +kernel
/-- 4.8.1, 4.8.3. -/
theorem test_ptoj : pAfter 0x00000126 1 (aff 0 9 10 toy) = (0, ⟨9, 10, 1⟩, 0x00010001) := by decide +kernel
theorem test_ptoj_again : (pAfter 0x00000126 1 (jac 0 9 10 1 toy)).1 = 7 := by decide +kernel
/-- 4.9.2, 4.9.7. -/
theorem test_ptoa : pAfter 0x00000127 1 (jac 0 6 2 9 toy) = (0, ⟨7, 8, 0⟩, 1) := by decide +kernel
theorem test_ptoa_no_inverse : (pAfter 0x00000127 1 (jac 0 4 2 0 toy)).1 = 4 := by decide +kernel
/-- 5.1 with k = 4, and 5.3.1. -/
theorem test_smul : pAfter 0x00000130 1 (kReg 0 4 (aff 0 9 10 toy)) = (0, ⟨5, 3, 0⟩, 1) := by decide +kernel
theorem test_smul_full_width : pAfter 0x00000130 1 (kReg 0 (2 ^ 256 - 1) (aff 0 9 10 toy)) = (0, ⟨0, 0, 0⟩, 1) := by
  decide +kernel
/-- 5.5.8. -/
theorem test_smulg_not_generator : (pAfter 0x00000131 1 (kReg 0 3 (aff 0 8 6 toy))).1 = 10 := by decide +kernel
/-- 6.1.2, 6.1.5. -/
theorem test_ctxld : ((stepped 0x01000040 toy).readCtx 0).metaWord = 0x00000101 := by decide +kernel
theorem test_ctxld_unknown : (stepped 0x02000040 toy).code = 18 := by decide +kernel

/-- The wire form of the toy point (5, 3). -/
def wire53 : Vector Byte 65 := wireOf 5 3

/-- 6.2.6, 6.2.2 (the bytes are written out: tag, X, Y). -/
theorem test_pdec :
    pAfter 0x00000041 0 { toy with wire := ((Vector.replicate 65 (0 : Byte)).set 0 4).set 32 5 |>.set 64 3 }
      = (0, ⟨5, 3, 0⟩, 1) := by decide +kernel
theorem test_pdec_format : (pAfter 0x00000041 0 { toy with wire := (Vector.replicate 65 (0 : Byte)).set 0 2 }).1 = 11 := by
  decide +kernel
/-- 6.3.1, 6.3.3. -/
theorem test_penc :
    (stepped 0x00001042 (aff 1 5 3 toy)).wire = (((Vector.replicate 65 (0 : Byte)).set 0 4).set 32 5 |>.set 64 3) := by
  decide +kernel
theorem test_penc_infinity : (stepped 0x00001042 (toy.writeAff 1 .inf 0)).code = 11 := by decide +kernel

/-! ### Accesses (spec/95_test_vectors.md section 7) -/

/-- The state after one host input. -/
def afterInput (i : Input) (s : State) : State :=
  match step { s with inputs := [i] } with | .next t => t | .fault _ => s | .refused _ => s

/-- Program 2's first wire word: `WIRE[0..3]` = 04 79 BE 66. -/
theorem test_wire_word :
    ((List.range 4).map fun j => ((afterInput (.write 0xD00 0x66BE7904) toy).wire.toList.getD j 0).toNat)
      = [0x04, 0x79, 0xBE, 0x66] := by decide +kernel

/-- Program 2: word 0 of P1.X stands at 0x880. -/
theorem test_point_word :
    (afterInput (.read 0x880) (aff 1 0x41ed7d6d5c709ee5 0 toy)).rdata = 0x5C709EE5
    ∧ (afterInput (.read 0x884) (aff 1 0x41ed7d6d5c709ee5 0 toy)).rdata = 0x41ED7D6D := by decide +kernel

/-- Program 4: W1C of DONE, ERR, OVF, and a dropped CMD write while busy. -/
theorem test_status_w1c :
    (afterInput (.write 0x008 0x16) { toy with done := true, err := true, ovf := true }).statusWord = 0 := by decide +kernel
theorem test_dropped_command : (afterInput (.write 0x00C 0x43) { toy with busy := true }).statusWord = 0x00000011 := by
  decide +kernel

/-! ### Witnesses: for each statement with hypotheses, a state and operands that meet them -/

/-- `toy` with operands of every class. -/
def live : State :=
  (kReg 0 5 <| kReg 1 1 <| fReg 1 7 <| fReg 2 9 <| aff 0 9 10 <| aff 1 5 3 <| jac 2 9 2 9 <| jac 3 8 6 1 <|
    aff 4 8 6 toy).writeAff 5 .inf 0

/-- The state after a command. -/
def after (i : Instr) (s : State) : State :=
  match exec i s with | .next t => t | .fault _ => s | .refused _ => s

theorem exec_after (i : Instr) (s : State) : exec i s = .next (after i s) := by
  obtain ⟨r, h, -⟩ := exec_lawful i s
  unfold after
  rw [h]
  cases r <;> rfl

theorem prime_ptMod {s : State} {a : PReg} (h : s.ptMod a = 11) : (s.ptMod a).Prime := by rw [h]; norm_num

theorem live_domains : live.domainsHoldRom := by
  intro c h
  exact absurd (by revert c; decide +kernel) h

theorem witness_DecodedWordIsTheEncoding : decode 0xFF001316 = .ok (.fpow 3 1 0xFF) := by decide +kernel

/-- An illegal word in flight, under each of the three schedules. -/
theorem witness_StrictDecodeIsTheOpcodeTable :
    (∀ o : Opcode, 0x00004130#32 &&& o.row.mask ≠ o.row.pattern)
    ∧ (live.accept 0x00004130).busy = true ∧ (live.accept 0x00004130).cmd = 0x00004130
    ∧ (live.accept 0x00004130).inputs = [] ∧ (live.issue 0x00004130).inputs = .wait :: []
    ∧ ({ live.accept 0x00004130 with inputs := [.complete] } : State).inputs = .complete :: [] := by
  refine ⟨fun o => ?_, by decide +kernel⟩
  cases o <;> decide +kernel

/-- Each of the three schedules. -/
theorem witness_StepRunsTheCommandInFlight :
    (live.accept 0x00021310).busy = true ∧ decode (live.accept 0x00021310).cmd = .ok (.fadd 3 1 2)
    ∧ (live.accept 0x00021310).inputs = [] ∧ (live.issue 0x00021310).inputs = [.wait]
    ∧ ({ live.accept 0x00021310 with inputs := [.complete] } : State).inputs = [.complete] := by decide +kernel

theorem witness_CommandWriteIsAcceptedOrDropped : live.busy = false ∧ (live.accept 0x43).busy = true := by decide +kernel

/-- Data offsets at the ends of the map's blocks, and CMD. -/
theorem witness_BusyWritesAreDropped :
    (live.accept 0).busy = true
    ∧ (∀ o ∈ [0x100, 0x1DC, 0x1E0, 0x2E0, 0x400, 0x7E0, 0x800, 0xBE0, 0xC00, 0xCE0, 0xD00, 0xD40, 0x4000, 0x7FFC],
        o % 4 = 0 ∧ dataOffset o)
    ∧ (0x00000001 : Word).getLsbD 1 = false ∧ (0x00000002 : Word).getLsbD 1 = true := by decide +kernel

theorem witness_ReadsChangeNothing : (0x7FFC : Offset).toNat % 4 = 0 ∧ (0x000 : Offset).toNat % 4 = 0 := by decide +kernel

theorem witness_ControlWritesTakeEffect : (0x00000005 : Word).getLsbD 1 = false := by decide +kernel

theorem witness_SoftResetClearsAllButTheTable : (0x00000002 : Word).getLsbD 1 = true := by decide +kernel

/-- Value words at the ends of the blocks; a second word that must not change; and the META word that may. -/
theorem witness_ValueWordWriteChangesOnlyThatWord :
    live.busy = false
    ∧ (∀ o ∈ [0x100, 0x2DC, 0x400, 0x7DC, 0x800, 0xBDC, 0xC00, 0xCDC, 0x4000, 0x7FFC], o % 4 = 0 ∧ valueOffset o)
    ∧ ¬ (inRange 0x100 0x100 0x200 ∧ 0x2E0 = 0x100 / 0x100 * 0x100 + 0xE0)
    ∧ (inRange 0x2DC 0x100 0x200 ∧ 0x2E0 = 0x2DC / 0x100 * 0x100 + 0xE0) := by decide +kernel

/-- An idle block, and read offsets at both ends of the window and of its blocks. -/
theorem witness_ValueWordsAreLeastSignificantFirst :
    live.busy = false ∧ ∀ o ∈ [0x000, 0x010, 0x100, 0x2E0, 0x400, 0x800, 0xC00, 0xD40, 0x3FFC, 0x4000, 0x7FFC],
      (BitVec.ofNat 15 o).toNat % 4 = 0 := by decide +kernel

theorem witness_ContextValueWriteClearsDomain : live.busy = false := by decide +kernel

theorem witness_MetaWordsAndWireWords : live.busy = false := by decide +kernel

/-- Reserved offsets next to a register on either side. -/
theorem witness_ReservedOffsetsReadZeroIgnoreWrites :
    ∀ o ∈ [0x14, 0xFC, 0x1E4, 0x2FC, 0x300, 0x3FC, 0x424, 0x864, 0xBFC, 0xC24, 0xD44, 0x3FFC],
      o % 4 = 0 ∧ reservedOffset o := by decide +kernel

theorem witness_UndefinedAccessesAreRefused : (0x7FFE : Offset).toNat % 4 ≠ 0 := by decide +kernel

theorem witness_RegularRunsNeverStop :
    ({ live with inputs := [.read 0x7FFC, .write 0x00C 0x43, .wait, .complete, .hardReset] } : State).safe := by
  intro i hi
  revert hi; revert i
  decide +kernel

/-- A completion with IE set; IRQ staying asserted; and each of the four ways it ends. -/
theorem witness_InterruptIsALevelUntilCleared :
    exec .nop { live with ie := true } = .next (after .nop { live with ie := true })
    ∧ ({ live with ie := true, done := true } : State).irq = true
    ∧ (afterInput (.read 0x008) { live with ie := true, done := true }).irq = true
    ∧ (afterInput (.write 0x008 2) { live with ie := true, done := true }).irq = false
    ∧ (afterInput (.write 0x00C 0) { live with ie := true, done := true }).irq = false
    ∧ (afterInput (.write 0x004 0) { live with ie := true, done := true }).irq = false
    ∧ (afterInput .hardReset { live with ie := true, done := true }).irq = false :=
  ⟨exec_after _ _, by decide +kernel⟩

theorem witness_OperandsInFlightAreFrozen :
    (live.accept 0).busy = true ∧ (afterInput (.read 0x008) (live.accept 0)).busy = true := by decide +kernel

/-- A loaded context; the state after CTXLD is reached by a step. -/
theorem witness_LoadedContextsAlwaysHoldTheRom :
    State.domainsHoldRom (after (.ctxld 1 1) live) ∧ ((after (.ctxld 1 1) live).readCtx 1).dom ≠ 0 := by
  refine ⟨?_, by decide +kernel⟩
  intro c
  revert c
  decide +kernel

theorem witness_CompletionCodeIsAlwaysAssigned : (stepped 0x43 live).codeLegal ∧ (stepped 0x43 live).code = 16 :=
  ⟨⟨by decide +kernel, by decide +kernel⟩, by decide +kernel⟩

theorem witness_BusyAndDoneExcludeEachOther : (live.accept 0).busyNotDone ∧ (live.accept 0).busy = true :=
  ⟨fun _ => by decide +kernel, by decide +kernel⟩

/-- Offsets next to a destination on either side, for each kind of destination. -/
theorem witness_CommandsChangeOnlyTheirDestination :
    exec (.fadd 3 1 2) live = .next (after (.fadd 3 1 2) live)
    ∧ (∀ o ∈ [0x4BF, 0x500], ¬ inRange o 0x008 4 ∧ ¬ inRange o 0x010 4
        ∧ ¬ inRange o (destination (.fadd 3 1 2)).1 (destination (.fadd 3 1 2)).2)
    ∧ (∀ o ∈ [0x97F, 0xA00], ¬ inRange o (destination (.pinf 3 0)).1 (destination (.pinf 3 0)).2)
    ∧ (∀ o ∈ [0x1FF, 0x300], ¬ inRange o (destination (.ctxld 1 1)).1 (destination (.ctxld 1 1)).2)
    ∧ (∀ o ∈ [0xCFF, 0xD44], ¬ inRange o (destination (.penc 3)).1 (destination (.penc 3)).2)
    ∧ (∀ a b, Instr.fadd 3 1 2 ≠ .peq a b) :=
  ⟨exec_after _ _, by decide +kernel, by decide +kernel, by decide +kernel, by decide +kernel, fun _ _ h => nomatch h⟩

theorem witness_FieldResultsStayInTheField :
    destination (.fadd 3 1 2) = (0x400 + 0x40 * (3 : FReg).val, 0x40)
    ∧ exec (.fadd 3 1 2) live = .next (after (.fadd 3 1 2) live) ∧ (after (.fadd 3 1 2) live).code = 0 :=
  ⟨by decide +kernel, exec_after _ _, by decide +kernel⟩

/-- Every command but SMULG accepts operands of `live`, or of `live` with a wire buffer (the next three theorems). -/
theorem witness_CommandsSucceedOnAcceptedOperands :
    live.domainsHoldRom ∧ live.accepts .nop ∧ live.accepts (.ctxld 0 1) ∧ live.accepts (.pinf 6 0) :=
  ⟨live_domains, trivial, rfl, by simp only [State.accepts]; decide +kernel⟩

theorem witness_CommandsSucceed_field :
    live.accepts (.fadd 3 1 2) ∧ live.accepts (.fsub 3 1 2) ∧ live.accepts (.fmul 3 1 2) ∧ live.accepts (.fneg 3 1)
    ∧ live.accepts (.finv 3 1) ∧ live.accepts (.fdiv 3 1 2) ∧ live.accepts (.fpow 3 1 127) ∧ live.accepts (.fred 3 0 1 0) := by
  simp only [State.accepts]
  and_intros <;> decide +kernel

theorem witness_CommandsSucceed_point :
    live.accepts (.pmake 6 1 2 0) ∧ live.accepts (.pneg 6 0) ∧ live.accepts (.peq 0 1) ∧ live.accepts (.ptoj 6 0)
    ∧ live.accepts (.ptoa 6 2) ∧ live.accepts (.smul 6 1 0) ∧ live.accepts (.penc 0) := by
  simp only [State.accepts]
  and_intros <;> decide +kernel

theorem witness_CommandsSucceed_padd_pdbl_pdec :
    live.accepts (.padd 6 0 1) ∧ live.accepts (.padd 6 2 3) ∧ live.accepts (.pdbl 6 0) ∧ live.accepts (.pdbl 6 2)
    ∧ ({ live with wire := wire53 } : State).accepts (.pdec 6 0) := by
  refine ⟨⟨by decide +kernel, .inr (.inr (.inl (by decide +kernel)))⟩, ⟨by decide +kernel, ?_⟩, ⟨by decide +kernel, ?_⟩,
    ⟨by decide +kernel, ?_⟩, by simp only [State.accepts]; decide +kernel⟩
  · change (_ ∧ _ ∧ _); decide +kernel
  · exact .inr (by decide +kernel)
  · change (_ ≠ _); decide +kernel

/-- `toy`'s values in a context that says it was loaded, with (5, 3) for its generator, and the table of its doublings. -/
def generatorState : State :=
  { kReg 0 7 (aff 0 5 3 (State.reset.writeCtx 0 ⟨11, 1, 0, 5, 3, 12, 1, 1, true⟩)) with
    tvalid := true
    table := fileOf 256 fun i => if i % 2 = 0 then ⟨5, 3⟩ else ⟨5, 8⟩ }

theorem witness_CommandsSucceed_smulg : (kReg 0 0 generatorState).accepts (.smulg 6 0 0) := by
  simp only [State.accepts]
  decide +kernel

theorem witness_FinvInvertsModuloP : live.fieldReady 1 ∧ live.fVal 1 ≠ 0 ∧ (live.fMod 1).Prime :=
  ⟨by decide +kernel, by decide +kernel, by rw [show live.fMod 1 = 11 by decide +kernel]; norm_num⟩

theorem witness_PseudoCommandsComputeTheirEffect : live.fieldReady 1 := by decide +kernel

theorem witness_PaddAddsAffinePoints : live.domainsHoldRom ∧ (live.readPt 0).rep = .affine :=
  ⟨live_domains, by decide +kernel⟩

theorem witness_PaddMixedAddsJacobianPoints : live.domainsHoldRom ∧ (live.readPt 2).rep = .jacobian :=
  ⟨live_domains, by decide +kernel⟩

/-- A finite point, and infinity. -/
theorem witness_JacobianRoundTripKeepsThePoint :
    ∀ a ∈ [(0 : PReg), 5],
      (live.readPt a).v = true ∧ live.ctxReady (live.readPt a).tag ∧ (live.readPt a).rep = .affine ∧ live.coordsInField a := by
  decide +kernel

theorem witness_DoublingCommutesWithConversion :
    ∃ t u v w : State, (live.ptMod 2).Prime
      ∧ exec (.pdbl 6 2) live = .next t ∧ t.code = 0 ∧ exec (.ptoa 6 6) t = .next u ∧ u.code = 0
      ∧ exec (.ptoa 7 2) live = .next v ∧ v.code = 0 ∧ exec (.pdbl 7 7) v = .next w ∧ w.code = 0
      ∧ (live.readPt 2).rep = .jacobian :=
  ⟨_, _, _, _, prime_ptMod (by decide +kernel), exec_after _ _, by decide +kernel, exec_after _ _, by decide +kernel,
    exec_after _ _, by decide +kernel, exec_after _ _, by decide +kernel, by decide +kernel⟩

theorem witness_MixedAdditionCommutesWithConversion :
    ∃ t u v w x : State, live.domainsHoldRom ∧ (live.ptMod 2).Prime ∧ (7 : PReg) ≠ 3 ∧ (7 : PReg) ≠ 5
      ∧ (live.readPt 2).rep = .jacobian ∧ exec (.padd 6 2 3) live = .next t ∧ t.code = 0
      ∧ exec (.ptoa 6 6) t = .next u ∧ u.code = 0
      ∧ exec (.ptoa 7 2) live = .next v ∧ v.code = 0 ∧ exec (.ptoa 5 3) v = .next w ∧ w.code = 0
      ∧ exec (.padd 7 7 5) w = .next x ∧ x.code = 0 :=
  ⟨_, _, _, _, _, live_domains, prime_ptMod (by decide +kernel), by decide, by decide, by decide +kernel, exec_after _ _,
    by decide +kernel, exec_after _ _, by decide +kernel, exec_after _ _, by decide +kernel, exec_after _ _,
    by decide +kernel, exec_after _ _, by decide +kernel⟩

/-- Each clause: k = 0, a point at infinity, k = 2, and k = 1 of a point that is not a loaded generator. -/
theorem witness_SmulSmallScalars :
    ((kReg 0 0 live).readK 0).val = 0 ∧ (live.readPt 5).inf = true
    ∧ ((kReg 0 2 live).readK 0).val = 2 ∧ (live.readPt 0).inf = false
    ∧ (live.readK 1).val = 1 ∧ ¬ live.holdsGenerator 0 := by decide +kernel

theorem witness_TableUnavailableStopsTheFastPath :
    ({ generatorState with tvalid := false } : State).scalarReady 0 0
    ∧ ({ generatorState with tvalid := false } : State).holdsGenerator 0
    ∧ (generatorState.readK 0).val ≠ 0 ∧ (generatorState.readK 0).val ≠ 2 := by decide +kernel

/-- Each clause: k = 0; a check that fails (the point is no generator); a completed SMUL. -/
theorem witness_SmulgChecksItsPoint :
    ((kReg 0 0 generatorState).readK 0).val = 0
    ∧ (∃ c ∈ live.scalarChecks 0 0 ++ [(decide (live.holdsGenerator 0), (10 : BitVec 5)), (live.tvalid, 13)], c.1 = false)
    ∧ exec (.smul 6 0 0) live = .next (after (.smul 6 0 0) live) :=
  ⟨by decide +kernel, ⟨(false, 10), by decide +kernel, rfl⟩, exec_after _ _⟩

/-- The scalar 7 with entry 2, its highest selected one, out of range, and the scalar 8, which selects entry 3 alone. -/
def badEntryTwo : State := generatorState.writeTable 2 ⟨11, 0⟩
/-- The scalar 8, and entry 3 out of range in `Y`. -/
def badEntryThree : State := (kReg 0 8 generatorState).writeTable 3 ⟨0, 11⟩

/-- Each clause: a table that agrees on the bits of k = 7; an entry out of range above two selected ones in range, for the
prime 11; and one below which no entry is selected. -/
theorem witness_OnlySelectedTableEntriesAreUsed :
    (∀ i : Fin 256, (generatorState.readK 0).val.getLsbD i.val = true →
      (generatorState.table.set 3 ⟨11, 0⟩).get i = generatorState.readTable i)
    ∧ badEntryTwo.scalarReady 0 0 ∧ badEntryTwo.holdsGenerator 0 ∧ badEntryTwo.tvalid = true
    ∧ (badEntryTwo.readK 0).val.getLsbD 2 = true ∧ ¬ (badEntryTwo.readTable 2).x.toNat < badEntryTwo.ptMod 0
    ∧ (∀ j : Fin 256, j < 2 → (badEntryTwo.readK 0).val.getLsbD j.val = true →
        (badEntryTwo.readTable j).x.toNat < badEntryTwo.ptMod 0 ∧ (badEntryTwo.readTable j).y.toNat < badEntryTwo.ptMod 0)
    ∧ (badEntryTwo.readK 0).val ≠ 2 ∧ badEntryTwo.ptMod 0 = 11 ∧ Nat.Prime 11 :=
  ⟨by decide +kernel, by decide +kernel, by decide +kernel, by decide +kernel, by decide +kernel, by decide +kernel,
    by decide +kernel, by decide +kernel, by decide +kernel, by norm_num⟩

theorem witness_OnlySelectedTableEntriesAreUsed_lowest :
    badEntryThree.scalarReady 0 0 ∧ badEntryThree.holdsGenerator 0 ∧ badEntryThree.tvalid = true
    ∧ (badEntryThree.readK 0).val.getLsbD 3 = true ∧ ¬ (badEntryThree.readTable 3).y.toNat < badEntryThree.ptMod 0
    ∧ (∀ j : Fin 256, j < 3 → ¬ (badEntryThree.readK 0).val.getLsbD j.val = true) := by decide +kernel

/-- Section 5.5.9's check of an entry that is used, here by both commands. -/
theorem test_selected_entry_checked :
    (pAfter 0x00000131 1 badEntryTwo).1 = 3 ∧ (pAfter 0x00000130 1 badEntryTwo).1 = 3 := by decide +kernel

theorem witness_WireRoundTripKeepsThePoint :
    (live.readPt 0).v = true ∧ live.ctxReady (live.readPt 0).tag ∧ (live.readPt 0).rep = .affine
    ∧ (live.readPt 0).inf = false ∧ live.coordsInField 0 := by decide +kernel

/-! ### Witnesses of the group-law statements: the point (5, 3) of order 3 on `toy` (section 1.2) -/

/-- The curve of `toy`. -/
abbrev toyCurve : WeierstrassCurve.Affine (ZMod 11) := curveOf 11 toyContext

theorem toyCurve_nonsingular {x y : ZMod 11} (h : y ^ 2 = x ^ 3 + x) (hy : y ≠ -y) : toyCurve.Nonsingular x y := by
  rw [WeierstrassCurve.Affine.nonsingular_iff, WeierstrassCurve.Affine.equation_iff]
  refine ⟨?_, .inr ?_⟩
  · simp only [curveOf, toyContext]
    simpa using h
  · simpa only [curveOf, zero_mul, sub_zero] using hy

/-- (5, 3), a point of order 3 (section 1.2). -/
theorem generator_on : toyCurve.Nonsingular (((5 : Value).toNat : Nat) : ZMod 11) (((3 : Value).toNat : Nat) : ZMod 11) :=
  toyCurve_nonsingular (by decide) (by decide)
theorem double_on : toyCurve.Nonsingular (((5 : Value).toNat : Nat) : ZMod 11) (((8 : Value).toNat : Nat) : ZMod 11) :=
  toyCurve_nonsingular (by decide) (by decide)

theorem toy_negY (x y : ZMod 11) : toyCurve.negY x y = -y := by simp [negY, curveOf]

theorem three_ne : (((3 : Value).toNat : Nat) : ZMod 11) ≠ -(((3 : Value).toNat : Nat) : ZMod 11) := by decide
theorem three_sub_ne : (((3 : Value).toNat : Nat) : ZMod 11) - -(((3 : Value).toNat : Nat) : ZMod 11) ≠ 0 := by decide
theorem slope_nine : 3 * (((5 : Value).toNat : Nat) : ZMod 11) ^ 2 + 1
    = 9 * ((((3 : Value).toNat : Nat) : ZMod 11) - -(((3 : Value).toNat : Nat) : ZMod 11)) := by decide
theorem line_x : (9 : ZMod 11) ^ 2 - (((5 : Value).toNat : Nat) : ZMod 11) - (((5 : Value).toNat : Nat) : ZMod 11)
    = (((5 : Value).toNat : Nat) : ZMod 11) := by decide

theorem neg_three : -(((3 : Value).toNat : Nat) : ZMod 11) = (((8 : Value).toNat : Nat) : ZMod 11) := by decide

theorem generator_neg : Point.some _ _ double_on = -Point.some _ _ generator_on := by
  rw [Point.neg_some, Point.some.injEq]
  exact ⟨rfl, by rw [toy_negY, neg_three]⟩

theorem generator_double [Fact (Nat.Prime 11)] : 2 • (Point.some _ _ generator_on) = Point.some _ _ double_on := by
  have hy : (((3 : Value).toNat : Nat) : ZMod 11) ≠ toyCurve.negY (((5 : Value).toNat : Nat) : ZMod 11) (((3 : Value).toNat : Nat) : ZMod 11) := by
    rw [toy_negY]; exact three_ne
  have hs : toyCurve.slope (((5 : Value).toNat : Nat) : ZMod 11) (((5 : Value).toNat : Nat) : ZMod 11) (((3 : Value).toNat : Nat) : ZMod 11) (((3 : Value).toNat : Nat) : ZMod 11) = 9 := by
    rw [slope_of_Y_ne rfl hy, toy_negY, div_eq_iff three_sub_ne, ← slope_nine]
    simp [curveOf, toyContext]
  rw [two_smul, Point.add_self_of_Y_ne hy, Point.some.injEq, hs]
  have hx : toyCurve.addX (((5 : Value).toNat : Nat) : ZMod 11) (((5 : Value).toNat : Nat) : ZMod 11) 9 = (((5 : Value).toNat : Nat) : ZMod 11) := by
    rw [addX]
    show (9 : ZMod 11) ^ 2 + 0 * 9 - 0 - _ - _ = _
    rw [zero_mul, add_zero, sub_zero]; exact line_x
  refine ⟨hx, ?_⟩
  rw [addY, toy_negY, negAddY, hx, sub_self, mul_zero, zero_add, neg_three]

theorem generator_powers [Fact (Nat.Prime 11)] (n : Nat) :
    2 ^ n • (Point.some _ _ generator_on)
      = if n % 2 = 0 then Point.some _ _ generator_on else Point.some _ _ double_on := by
  induction n with
  | zero => simp
  | succ n ih =>
    rw [pow_succ', mul_smul, ih]
    rcases Nat.mod_two_eq_zero_or_one n with h | h
    · rw [if_pos h, if_neg (by omega), generator_double]
    · rw [if_neg (by omega), if_pos (by omega), generator_neg, neg_nsmul,
        generator_double, generator_neg, neg_neg]

theorem prime_eleven : Fact (Nat.Prime 11) := ⟨by norm_num⟩

/-- SMUL of the point (5, 3), and of infinity. -/
theorem witness_SmulComputesTheGroupMultiple :
    ∃ (_ : Fact (Nat.Prime 11)) (Q O : (curveOf 11 (live.readCtx 0)).Point),
      live.scalarReady 0 1 ∧ live.ptMod 1 = 11 ∧ ¬ live.holdsGenerator 1 ∧ (live.readPt 1).tag = 0
      ∧ holdsPoint (live.readPt 1) Q
      ∧ live.scalarReady 0 5 ∧ live.ptMod 5 = 11 ∧ ¬ live.holdsGenerator 5 ∧ (live.readPt 5).tag = 0
      ∧ holdsPoint (live.readPt 5) O := by
  have hc : live.readCtx 0 = toyContext := by decide +kernel
  have h1 : live.readPt 1 = ⟨5, 3, 0, 0, .affine, false, true⟩ := by decide +kernel
  have h5 : live.readPt 5 = ⟨0, 0, 0, 0, .affine, true, true⟩ := by decide +kernel
  have r1 : live.scalarReady 0 1 ∧ live.ptMod 1 = 11 ∧ ¬ live.holdsGenerator 1 ∧ (live.readPt 1).tag = 0
      ∧ live.scalarReady 0 5 ∧ live.ptMod 5 = 11 ∧ ¬ live.holdsGenerator 5 ∧ (live.readPt 5).tag = 0 := by decide +kernel
  rw [hc]
  exact ⟨prime_eleven, .some _ _ generator_on, .zero, r1.1, r1.2.1, r1.2.2.1, r1.2.2.2.1,
    by rw [h1]; exact ⟨rfl, .inr ⟨rfl, by decide, by decide, generator_on, rfl⟩⟩,
    r1.2.2.2.2.1, r1.2.2.2.2.2.1, r1.2.2.2.2.2.2.1, r1.2.2.2.2.2.2.2, by rw [h5]; exact ⟨rfl, .inl ⟨rfl, rfl⟩⟩⟩

theorem generatorState_table (i : Fin 256) :
    generatorState.readTable i = if i.val % 2 = 0 then ⟨5, 3⟩ else ⟨5, 8⟩ := by revert i; decide +kernel

/-- A loaded context whose generator is (5, 3), and the table of its 256 doublings. -/
theorem witness_GeneratorTableGivesTheGroupMultiple :
    ∃ (_ : Fact (Nat.Prime 11)) (c : Context) (_ : generatorState.readCtx (generatorState.readPt 0).tag = c)
      (G : (curveOf 11 c).Point),
      generatorState.scalarReady 0 0 ∧ generatorState.ptMod 0 = 11 ∧ generatorState.holdsGenerator 0
      ∧ generatorState.tvalid = true ∧ holdsPoint (generatorState.readPt 0) G
      ∧ ∀ i : Fin 256, entryHoldsPoint (generatorState.readTable i) (2 ^ i.val • G) := by
  have h0 : generatorState.readPt 0 = ⟨5, 3, 0, 0, .affine, false, true⟩ := by decide +kernel
  have r : generatorState.scalarReady 0 0 ∧ generatorState.ptMod 0 = 11 ∧ generatorState.holdsGenerator 0
      ∧ generatorState.tvalid = true := by decide +kernel
  have := prime_eleven
  refine ⟨prime_eleven, ⟨11, 1, 0, 5, 3, 12, 1, 1, true⟩, by decide +kernel, .some _ _ generator_on, r.1, r.2.1, r.2.2.1,
    r.2.2.2, by rw [h0]; exact ⟨rfl, .inr ⟨rfl, by decide, by decide, generator_on, rfl⟩⟩, fun i => ?_⟩
  rw [generatorState_table i]
  have h := generator_powers i.val
  split
  · rw [if_pos ‹_›] at h
    exact ⟨by decide, by decide, generator_on, h⟩
  · rw [if_neg ‹_›] at h
    exact ⟨by decide, by decide, double_on, h⟩

end Sys2Proof.Tests
end

section
/-! SUPPORT. The proofs of the statements about the block's state: the control registers as they read and as the host writes
them, the clearing of a context's domain id, and the invariant that a context with a domain id holds the ROM's values
(spec/10_state.md R28, R29, R36 to R45; spec/20_memory.md R74, R79 to R81; spec/70_reset_and_hazards.md R320, R321, R334). -/

namespace Sys2Proof.Machine

/-! ### The control words as numbers (R37, R38) -/

theorem State.ctrlWord_eq_ofNat (s : State) :
    s.ctrlWord = BitVec.ofNat 32 (s.ie.toNat + 4 * s.tvalid.toNat) := by
  unfold State.ctrlWord
  cases s.ie <;> cases s.tvalid <;> rfl

/-- The five flags of STATUS fill its low bits (R38). -/
theorem statusFlags_eq_ofNat (busy done err eq ovf : Bool) :
    flagAt 0 busy ||| flagAt 1 done ||| flagAt 2 err ||| flagAt 3 eq ||| flagAt 4 ovf
      = BitVec.ofNat 32 (busy.toNat + 2 * done.toNat + 4 * err.toNat + 8 * eq.toNat + 16 * ovf.toNat) := by
  revert busy done err eq ovf
  decide

theorem statusCode_eq_ofNat (code : BitVec 5) : code.setWidth 32 <<< 8 = BitVec.ofNat 32 (256 * code.toNat) := by
  apply BitVec.eq_of_toNat_eq
  simp [Nat.shiftLeft_eq, Nat.mul_comm]

/-- The flags lie below bit 8, so CODE above them is added without a carry. -/
theorem State.statusWord_eq_ofNat (s : State) :
    s.statusWord = BitVec.ofNat 32 (s.busy.toNat + 2 * s.done.toNat + 4 * s.err.toNat + 8 * s.eq.toNat
      + 16 * s.ovf.toNat + 256 * s.code.toNat) := by
  have hflags : s.busy.toNat + 2 * s.done.toNat + 4 * s.err.toNat + 8 * s.eq.toNat + 16 * s.ovf.toNat < 2 ^ 8 := by
    have := s.busy.toNat_le; have := s.done.toNat_le; have := s.err.toNat_le
    have := s.eq.toNat_le; have := s.ovf.toNat_le
    omega
  rw [State.statusWord, statusFlags_eq_ofNat, statusCode_eq_ofNat, ← BitVec.ofNat_or, Nat.or_comm,
    Nat.add_comm _ (256 * s.code.toNat)]
  exact congrArg _ (Nat.two_pow_add_eq_or_of_lt hflags _).symm

/-- BUSY is bit 0 of STATUS (R38). -/
theorem State.statusWord_bit_zero (s : State) : s.statusWord.getLsbD 0 = s.busy := by
  simp [State.statusWord, flagAt]

/-! ### What a host write of one word does -/

/-- A data location is written while idle; while busy the write is dropped and sets OVF (R79, R80). -/
theorem State.writeLoc_of_isData (s : State) {loc : Loc} (w : Word) (h : loc.isData = true) :
    s.writeLoc loc w = if s.busy = true then { s with ovf := true } else s.writeData loc w := by
  cases loc
  case id | ctrl | status | cmd | errcmd | reserved => exact absurd h (by decide)
  all_goals rfl

theorem State.writeCtrl_of_not_srst (s : State) {w : Word} (h : w.getLsbD 1 = false) :
    s.writeCtrl w = { s with ie := w.getLsbD 0, tvalid := if s.busy = true then s.tvalid else w.getLsbD 2 } := by
  rw [State.writeCtrl, if_neg (ne_true_of_eq_false h)]

theorem State.writeCmd_idle (s : State) (w : Word) (h : s.busy = false) : s.writeCmd w = s.accept w := by
  simp [State.writeCmd, h]

theorem State.writeCmd_busy (s : State) (w : Word) (h : s.busy = true) : s.writeCmd w = { s with ovf := true } := by
  simp [State.writeCmd, h]

/-! ### The control registers, read and written -/

/-- The five control words read as they stand, busy or not (R81). -/
theorem step_read_control (s : State) {off : Offset} {loc : Loc} (rest : List Input) (h4 : off.toNat % 4 = 0)
    (hl : locate off = loc) (hd : loc.isData = false) :
    step { s with inputs := .read off :: rest }
      = .next { s with inputs := rest, rdata := ({ s with inputs := rest } : State).readLoc loc } := by
  subst hl
  exact step_read_defined s rest h4 (.inr hd)

/-- Settles O9: each of the five words is read as it stands, and stands as the number its bits make. -/
theorem controlRegistersReadBack : Obligations.ControlRegistersReadBack := by
  unfold Obligations.ControlRegistersReadBack
  intro s rest
  refine ⟨?_, ?_, ?_, ?_, ?_⟩
  · exact step_read_control s rest (by decide) locate_id rfl
  · rw [step_read_control s rest (by decide) locate_ctrl rfl, State.readLoc, State.ctrlWord_eq_ofNat]
  · rw [step_read_control s rest (by decide) locate_status rfl, State.readLoc, State.statusWord_eq_ofNat]
  · exact step_read_control s rest (by decide) locate_cmd rfl
  · exact step_read_control s rest (by decide) locate_errcmd rfl

/-- Settles O6: the step of a CMD write is `writeCmd`, and bit 0 of the STATUS word read after an acceptance is BUSY. -/
theorem commandWriteIsAcceptedOrDropped : Obligations.CommandWriteIsAcceptedOrDropped := by
  unfold Obligations.CommandWriteIsAcceptedOrDropped
  intro s w rest
  have hwrite : step { s with inputs := .write 0x00C w :: rest }
      = .next (({ s with inputs := rest } : State).writeCmd w) := step_write s w rest (by decide)
  refine ⟨fun hidle => ⟨?_, ?_⟩, fun hbusy => ?_, ?_, rfl⟩
  · exact hwrite.trans (congrArg _ (State.writeCmd_idle _ w hidle))
  · exact ⟨_, step_read_control (s.accept w) rest (by decide) locate_status rfl, State.statusWord_bit_zero _⟩
  · exact hwrite.trans (congrArg _ (State.writeCmd_busy _ w hbusy))
  · exact step_read_control s rest (by decide) locate_cmd rfl

/-- Settles O10: the step of a CTRL write is `writeCtrl`, that of a STATUS write is `writeStatus`. -/
theorem controlWritesTakeEffect : Obligations.ControlWritesTakeEffect := by
  unfold Obligations.ControlWritesTakeEffect
  intro s w rest
  refine ⟨fun hsrst => ?_, step_write s w rest (by decide)⟩
  rw [step_write s w rest (by decide), locate_ctrl, State.writeLoc, State.writeCtrl_of_not_srst _ hsrst]

/-! ### A write of a context's value word -/

/-- Word `j` of the `m`-th value of a context stands at `0x100 + 0x100 c + 0x20 m + 4 j` (R73). -/
theorem locate_ctxVal (c : CReg) (m : Fin 7) (j : Fin 8) :
    locate (BitVec.ofNat 15 (0x100 + 0x100 * c.val + 0x20 * m.val + 4 * j.val)) = .ctxVal c (ctxFieldAt m.val) j := by
  have h := locate_offset (.ctxVal c (ctxFieldAt m.val) j) (by simp)
  rwa [Loc.offset, index_ctxFieldAt m.isLt] at h

/-- Settles O15: the word stands at a data location, whose idle write is `writeCtxWord`. -/
theorem contextValueWriteClearsDomain : Obligations.ContextValueWriteClearsDomain := by
  unfold Obligations.ContextValueWriteClearsDomain
  intro s c m j w rest hidle
  have haligned : (BitVec.ofNat 15 (0x100 + 0x100 * c.val + 0x20 * m.val + 4 * j.val)).toNat % 4 = 0 := by
    rw [BitVec.toNat_ofNat]; omega
  rw [step_write s w rest haligned, locate_ctxVal, State.writeLoc_of_isData _ _ rfl, if_neg (ne_true_of_eq_false hidle)]
  rfl

/-! ### A context with a domain id holds the ROM's values (R28, R29, R251) -/

/-- The condition of `domainsHoldRom` on one context. -/
def Context.HoldsRom (k : Context) : Prop :=
  k.dom ≠ 0 →
    k.dom = 1 ∧ k.p = Config.secp256k1.p ∧ k.a = Config.secp256k1.a ∧ k.b = Config.secp256k1.b
    ∧ k.gx = Config.secp256k1.gx ∧ k.gy = Config.secp256k1.gy ∧ k.n = Config.secp256k1.n ∧ k.h = Config.secp256k1.h

theorem State.domainsHoldRom_iff (s : State) : s.domainsHoldRom ↔ ∀ c, (s.readCtx c).HoldsRom := Iff.rfl

theorem Context.holdsRom_of_dom_zero {k : Context} (h : k.dom = 0) : k.HoldsRom := fun hne => absurd h hne

/-- What CTXLD loads is the ROM's entry (R251). -/
theorem holdsRom_contextOf : (contextOf Config.secp256k1 Config.secp256k1Id).HoldsRom :=
  fun _ => ⟨rfl, rfl, rfl, rfl, rfl, rfl, rfl, rfl⟩

/-- The invariant speaks of CTX alone. -/
theorem State.domainsHoldRom.of_ctx_eq {s t : State} (h : s.domainsHoldRom) (e : t.ctx = s.ctx) : t.domainsHoldRom := by
  unfold State.domainsHoldRom State.readCtx at h ⊢
  rwa [e]

theorem State.domainsHoldRom_of_dom_zero {s : State} (h : ∀ c, (s.readCtx c).dom = 0) : s.domainsHoldRom :=
  s.domainsHoldRom_iff.2 fun c => Context.holdsRom_of_dom_zero (h c)

theorem State.domainsHoldRom.writeCtx {s : State} (h : s.domainsHoldRom) (c : CReg) {k : Context} (hk : k.HoldsRom) :
    (s.writeCtx c k).domainsHoldRom := by
  rw [State.domainsHoldRom_iff]
  intro c'
  by_cases hc : c = c'
  · subst hc; rwa [State.readCtx_writeCtx]
  · rw [State.readCtx_writeCtx_ne _ _ _ _ hc]; exact h c'

/-! #### The completion of a command -/

/-- CTXLD is the only command that writes CTX, and it writes the ROM's entry (R251, R284). -/
theorem Writes.domainsHoldRom {i : Instr} {s u : State} (hw : Writes i s u) (h : s.domainsHoldRom) :
    u.domainsHoldRom := by
  cases i
  case nop => obtain rfl := hw; exact h
  case ctxld c dom => obtain rfl := hw; exact h.writeCtx c holdsRom_contextOf
  all_goals obtain ⟨_, rfl⟩ := hw; exact h.of_ctx_eq rfl

theorem completeInFlight_domainsHoldRom {s t : State} (h : s.domainsHoldRom) (ht : completeInFlight s = .next t) :
    t.domainsHoldRom := by
  rcases completeInFlight_cases s with ⟨i, u, -, hu, hw⟩ | ⟨e, he, -⟩
  · obtain rfl := Host.Outcome.next.inj (hu.symm.trans ht)
    exact (hw.domainsHoldRom h).of_ctx_eq rfl
  · obtain rfl := Host.Outcome.next.inj (he.symm.trans ht)
    exact h.of_ctx_eq rfl

/-! #### The resets -/

/-- A reset draws the values of a context and gives it no domain id (R45, R321). -/
theorem State.dom_softReset (s : State) (c : CReg) : (s.softReset.readCtx c).dom = 0 := by
  simp only [State.readCtx, State.softReset, State.clearControl, State.drawRegisters, get_fileOf]

theorem State.domainsHoldRom_softReset (s : State) : s.softReset.domainsHoldRom :=
  State.domainsHoldRom_of_dom_zero s.dom_softReset

theorem State.domainsHoldRom_hardReset (s : State) : s.hardReset.domainsHoldRom :=
  s.domainsHoldRom_softReset.of_ctx_eq rfl

theorem State.domainsHoldRom_reset : State.reset.domainsHoldRom :=
  State.domainsHoldRom_of_dom_zero (by decide)

/-! #### The host's writes -/

theorem State.setWireByte_ctx (s : State) (j : Nat) (b : Byte) : (s.setWireByte j b).ctx = s.ctx := by
  unfold State.setWireByte
  split <;> rfl

theorem State.writeWireWord_ctx (s : State) (m : Fin 17) (w : Word) : (s.writeWireWord m w).ctx = s.ctx := by
  simp only [State.writeWireWord, State.setWireByte_ctx]

/-- Of the data writes a value word's takes the context's domain id away, and a META word's keeps id and values
(R29, R76). -/
theorem State.domainsHoldRom.writeData {s : State} (h : s.domainsHoldRom) (loc : Loc) (w : Word) :
    (s.writeData loc w).domainsHoldRom := by
  cases loc
  case ctxVal c fld j => exact h.writeCtx c (Context.holdsRom_of_dom_zero rfl)
  case ctxMeta c => exact h.writeCtx c (h c)
  case wire m => exact h.of_ctx_eq (s.writeWireWord_ctx m w)
  all_goals exact h.of_ctx_eq rfl

theorem State.domainsHoldRom.writeCtrl {s : State} (h : s.domainsHoldRom) (w : Word) :
    (s.writeCtrl w).domainsHoldRom := by
  unfold State.writeCtrl
  split
  · exact s.domainsHoldRom_softReset
  · exact h.of_ctx_eq rfl

theorem State.domainsHoldRom.writeCmd {s : State} (h : s.domainsHoldRom) (w : Word) :
    (s.writeCmd w).domainsHoldRom := by
  unfold State.writeCmd
  split <;> exact h.of_ctx_eq rfl

theorem State.domainsHoldRom.writeLoc {s : State} (h : s.domainsHoldRom) (loc : Loc) (w : Word) :
    (s.writeLoc loc w).domainsHoldRom := by
  by_cases hd : loc.isData = true
  · rw [State.writeLoc_of_isData s w hd]
    split
    · exact h.of_ctx_eq rfl
    · exact h.writeData loc w
  · cases loc
    case ctrl => exact h.writeCtrl w
    case cmd => exact h.writeCmd w
    case status => exact h.of_ctx_eq rfl
    case id | errcmd | reserved => exact h
    all_goals exact absurd rfl hd

/-! #### Every step -/

/-- Settles O23, by the cases of a step: CTX is written by CTXLD, by the host and by a reset, and each write leaves its
context with the ROM's values or with no domain id. -/
theorem loadedContextsAlwaysHoldTheRom : Obligations.LoadedContextsAlwaysHoldTheRom := by
  unfold Obligations.LoadedContextsAlwaysHoldTheRom
  intro s t h hstep
  have hin : ∀ rest, ({ s with inputs := rest } : State).domainsHoldRom := fun _ => h.of_ctx_eq rfl
  rcases step_cases hstep with ⟨-, rest, hc⟩ | ⟨_, _, _, _, -, rfl⟩ | ⟨off, w, rest, -, -, rfl⟩ | ⟨rest, -, rfl⟩
    | ⟨-, _, _, rfl⟩
  · exact completeInFlight_domainsHoldRom (hin rest) hc
  · exact h.of_ctx_eq rfl
  · exact (hin rest).writeLoc (locate off) w
  · exact State.domainsHoldRom_hardReset _
  · exact h.of_ctx_eq rfl

/-- Settles O26: after reset no context has a domain id, CODE is 0 and nothing is in flight. -/
theorem resetMeetsTheInvariants : Obligations.ResetMeetsTheInvariants := by
  unfold Obligations.ResetMeetsTheInvariants
  have hcode : State.reset.codeLegal := by unfold State.codeLegal; decide
  exact ⟨State.domainsHoldRom_reset, hcode, fun _ => rfl⟩

end Sys2Proof.Machine
end

section
/-! SUPPORT. The proofs of the statements about the host's accesses to the window: which accesses are defined, what each word
of the map reads as, what an idle write changes, and what a busy block drops or holds still (spec/20_memory.md R71 to R81,
R86; spec/70_reset_and_hazards.md R334). -/

namespace Sys2Proof.Machine

/-! ### The access at a place of the map -/

theorem Loc.offset_mod_four (loc : Loc) : loc.offset % 4 = 0 := by
  cases loc <;> simp only [Loc.offset] <;> omega

/-- `locate_offset` for an offset written in any form. -/
theorem locate_of_eq_offset {loc : Loc} {n : Nat} (hn : n = loc.offset) (h : loc ≠ .reserved) :
    locate (BitVec.ofNat 15 n) = loc := hn ▸ locate_offset loc h

theorem Loc.ne_reserved_of_isData {loc : Loc} (h : loc.isData = true) : loc ≠ .reserved := by
  rintro rfl; exact absurd h (by decide)

theorem Loc.isData_of_isValue {loc : Loc} (h : loc.isValue = true) : loc.isData = true := by
  cases loc
  case ctxVal | fVal | ptVal | kVal | tableX | tableY => rfl
  all_goals exact absurd h Bool.false_ne_true

/-- The inputs are no part of what a read shows. -/
theorem State.readLoc_with_inputs (s : State) (rest : List Input) (loc : Loc) :
    ({ s with inputs := rest } : State).readLoc loc = s.readLoc loc := by
  cases loc <;> rfl

theorem step_write_idle (s : State) {off : Offset} (w : Word) (rest : List Input) (h4 : off.toNat % 4 = 0)
    (hd : (locate off).isData = true) (hidle : s.busy = false) :
    step { s with inputs := .write off w :: rest }
      = .next (({ s with inputs := rest } : State).writeData (locate off) w) := by
  rw [step_write s w rest h4, State.writeLoc_of_isData _ _ hd, if_neg (ne_true_of_eq_false hidle)]

/-- `step_write_idle` at the offset of a given place. -/
theorem step_write_idle_at (s : State) {n : Nat} (w : Word) (rest : List Input) {loc : Loc} (hn : n = loc.offset)
    (hd : loc.isData = true) (hidle : s.busy = false) :
    step { s with inputs := .write (BitVec.ofNat 15 n) w :: rest }
      = .next (({ s with inputs := rest } : State).writeData loc w) := by
  have hloc : locate (BitVec.ofNat 15 n) = loc := locate_of_eq_offset hn (Loc.ne_reserved_of_isData hd)
  have h4 : (BitVec.ofNat 15 n).toNat % 4 = 0 := by
    have := loc.offset_mod_four
    rw [BitVec.toNat_ofNat]; omega
  rw [step_write_idle s w rest h4 (hloc ▸ hd) hidle, hloc]

/-! ### Accesses that are not defined (R71) -/

theorem hostRead_misaligned {off : Offset} (s : State) (h : off.toNat % 4 ≠ 0) :
    hostRead off s = .refused .undefinedAccess := by
  simp [hostRead, aligned, h]

theorem hostWrite_misaligned {off : Offset} (w : Word) (s : State) (h : off.toNat % 4 ≠ 0) :
    hostWrite off w s = .refused .undefinedAccess := by
  simp [hostWrite, aligned, h]

/-- Settles O19: the step of an access is the host's access, and the step of an irregular one is the refusal itself. -/
theorem undefinedAccessesAreRefused : Obligations.UndefinedAccessesAreRefused := by
  unfold Obligations.UndefinedAccessesAreRefused
  intro s off w n rest
  exact ⟨rfl, fun h => ⟨hostRead_misaligned _ h, hostWrite_misaligned w _ h⟩⟩

/-! ### Reads (R72 to R78) -/

/-- Settles O8: a read of a data location of a busy block draws a free value, and every other read shows what stands
there. -/
theorem readsChangeNothing : Obligations.ReadsChangeNothing := by
  unfold Obligations.ReadsChangeNothing
  intro s off rest h4
  by_cases hdefined : s.busy = false ∨ (locate off).isData = false
  · exact ⟨_, s.draws, step_read_defined s rest h4 hdefined⟩
  · obtain ⟨hbusy, hdata⟩ := not_or.1 hdefined
    exact ⟨_, _, step_read_busy s rest h4 (eq_true_of_ne_false hbusy) (eq_true_of_ne_false hdata)⟩

/-- What is read at the offset of a place is the word of that place. -/
theorem State.readLoc_at (s : State) {n : Nat} {loc : Loc} (hn : n = loc.offset) (h : loc ≠ .reserved) :
    s.readLoc (locate (BitVec.ofNat 15 n)) = s.readLoc loc := by
  rw [locate_of_eq_offset hn h]

/-- The words of a context's values, by the number of the value in its block (R73, R74). -/
theorem State.readLoc_ctxVal_at (s : State) (c : CReg) (fld : CtxField) (j : Fin 8) {n : Nat}
    (hn : n = 0x100 + 0x20 * fld.index + 0x100 * c.val + 4 * j.val) :
    s.readLoc (locate (BitVec.ofNat 15 n)) = ((s.readCtx c).field fld).extractLsb' (32 * j.val) 32 :=
  s.readLoc_at (loc := .ctxVal c fld j) (by rw [hn, Loc.offset]; omega) (by simp)

/-- The words of a point's coordinates, by the number of the coordinate in its block (R73, R74). -/
theorem State.readLoc_ptVal_at (s : State) (i : PReg) (co : Coord) (j : Fin 8) {n : Nat}
    (hn : n = 0x800 + 0x20 * co.index + 0x80 * i.val + 4 * j.val) :
    s.readLoc (locate (BitVec.ofNat 15 n)) = ((s.readPt i).coord co).extractLsb' (32 * j.val) 32 :=
  s.readLoc_at (loc := .ptVal i co j) (by rw [hn, Loc.offset]; omega) (by simp)

/-- Settles O13: each word of the map is the word of the place whose offset it stands at. -/
theorem valueWordsAreLeastSignificantFirst : Obligations.ValueWordsAreLeastSignificantFirst := by
  unfold Obligations.ValueWordsAreLeastSignificantFirst
  constructor
  · intro s off rest hidle h4
    rw [step_read_defined s rest h4 (.inl hidle), State.readLoc_with_inputs]
  intro s j
  refine ⟨fun i => ?_, fun i => ?_, fun i => ⟨?_, ?_, ?_⟩, fun i => ⟨?_, ?_⟩, fun c => ⟨?_, ?_, ?_, ?_, ?_, ?_, ?_⟩⟩
  · exact s.readLoc_at (loc := .fVal i j) rfl (by simp)
  · exact s.readLoc_at (loc := .kVal i j) rfl (by simp)
  · exact s.readLoc_ptVal_at i .x j rfl
  · exact s.readLoc_ptVal_at i .y j rfl
  · exact s.readLoc_ptVal_at i .z j rfl
  · exact s.readLoc_at (loc := .tableX i j) rfl (by simp)
  · exact s.readLoc_at (loc := .tableY i j) rfl (by simp)
  · exact s.readLoc_ctxVal_at c .p j rfl
  · exact s.readLoc_ctxVal_at c .a j rfl
  · exact s.readLoc_ctxVal_at c .b j rfl
  · exact s.readLoc_ctxVal_at c .gx j rfl
  · exact s.readLoc_ctxVal_at c .gy j rfl
  · exact s.readLoc_ctxVal_at c .n j rfl
  · exact s.readLoc_ctxVal_at c .h j rfl

/-! ### Writes of value words (R74) -/

theorem State.inputs_writeData (s : State) (loc : Loc) (w : Word) : (s.writeData loc w).inputs = s.inputs := by
  obtain ⟨-, -, -, -, -, -, -, -, -, -, hinputs, -, -⟩ := s.writeData_frame loc w
  exact hinputs

theorem isValue_locate {off : Offset} (h : valueOffset off.toNat) : (locate off).isValue = true := by
  rcases h with ⟨hr, hv⟩ | ⟨hr, hv⟩ | ⟨hr, hv⟩ | ⟨hr, hv⟩ | hr
  · rw [locate_ctx hr, if_pos (by omega)]; rfl
  · rw [locate_f hr, if_pos (by omega)]; rfl
  · rw [locate_pt hr, if_pos (by omega)]; rfl
  · rw [locate_k hr, if_pos (by omega)]; rfl
  · rw [locate_table hr.1]; split <;> rfl

/-- A value word of a context and the context's META word stand in one block of 0x100 bytes, the META word at 0xE0. -/
theorem offset_of_ctxVal_of_ctxMeta {off off' : Offset} {c : CReg} {fld : CtxField} {j : Fin 8}
    (h4 : off.toNat % 4 = 0) (h4' : off'.toNat % 4 = 0) (h : locate off = .ctxVal c fld j)
    (h' : locate off' = .ctxMeta c) :
    inRange off.toNat 0x100 0x200 ∧ off'.toNat = off.toNat / 0x100 * 0x100 + 0xE0 := by
  have hoff := offset_locate h4 (by simp [h])
  have hoff' := offset_locate h4' (by simp [h'])
  rw [h, Loc.offset] at hoff
  rw [h', Loc.offset] at hoff'
  have := fld.index_lt
  omega

/-- Settles O14: places of distinct offsets are distinct, so the write's frame over places is one over offsets. -/
theorem valueWordWriteChangesOnlyThatWord : Obligations.ValueWordWriteChangesOnlyThatWord := by
  unfold Obligations.ValueWordWriteChangesOnlyThatWord
  intro s off w rest hidle h4 hvalue
  have hv : (locate off).isValue = true := isValue_locate hvalue
  have hd : (locate off).isData = true := Loc.isData_of_isValue hv
  refine ⟨_, step_write_idle s w rest h4 hd hidle, State.inputs_writeData _ _ w,
    State.readLoc_writeData_self _ w hv, ?_⟩
  intro off' h4' hne hmeta
  have hplace : locate off' ≠ locate off := fun e => hne (locate_injective h4 h4' (Loc.ne_reserved_of_isData hd) e)
  rw [State.readLoc_writeData_ne _ w hv hplace fun c fld j e e' => hmeta (offset_of_ctxVal_of_ctxMeta h4 h4' e e'),
    State.readLoc_with_inputs]

/-! ### META words (R76) -/

theorem Context.metaWord_eq_ofNat (c : Context) :
    c.metaWord = BitVec.ofNat 32 (c.valid.toNat + 256 * c.dom.toNat) := by
  have hdom : c.dom.setWidth 32 <<< 8 = BitVec.ofNat 32 (2 ^ 8 * c.dom.toNat) := by
    apply BitVec.eq_of_toNat_eq
    simp [Nat.shiftLeft_eq, Nat.mul_comm]
  have hvalid : flagAt 0 c.valid = BitVec.ofNat 32 c.valid.toNat := by cases c.valid <;> rfl
  have hlt : c.valid.toNat < 2 ^ 8 := by have := c.valid.toNat_le; omega
  rw [Context.metaWord, hdom, hvalid, ← BitVec.ofNat_or, Nat.or_comm, Nat.add_comm]
  exact congrArg _ (Nat.two_pow_add_eq_or_of_lt hlt _).symm

theorem FieldReg.metaWord_eq_ofNat (r : FieldReg) : r.metaWord = BitVec.ofNat 32 (r.v.toNat + 256 * r.tag.val) := by
  have flags : ∀ (v : Bool) (tag : CReg),
      flagAt 0 v ||| flagAt 8 (tagBit tag) = BitVec.ofNat 32 (v.toNat + 256 * tag.val) := by
    decide
  exact flags r.v r.tag

theorem PointReg.metaWord_eq_ofNat (r : PointReg) :
    r.metaWord = BitVec.ofNat 32 (r.v.toNat + 256 * r.tag.val + (if r.rep = .jacobian then 65536 else 0)
      + 131072 * r.inf.toNat) := by
  have flags : ∀ (rep : Rep) (v inf : Bool) (tag : CReg),
      flagAt 0 v ||| flagAt 8 (tagBit tag) ||| flagAt 16 (repBit rep) ||| flagAt 17 inf
        = BitVec.ofNat 32 (v.toNat + 256 * tag.val + (if rep = .jacobian then 65536 else 0) + 131072 * inf.toNat) := by
    rintro (_ | _) <;> decide
  exact flags r.rep r.v r.inf r.tag

theorem ScalarReg.metaWord_eq_ofNat (r : ScalarReg) : r.metaWord = BitVec.ofNat 32 r.v.toNat := by
  unfold ScalarReg.metaWord
  cases r.v <;> rfl

/-- Settles O16: a META word reads as its register's `metaWord`, and its idle write is `writeData` at its place. -/
theorem metaWordsHoldTheirListedBits : Obligations.MetaWordsHoldTheirListedBits := by
  unfold Obligations.MetaWordsHoldTheirListedBits
  intro s w rest
  refine ⟨fun c => ⟨?_, ?_⟩, fun i => ⟨?_, ?_⟩, fun i => ⟨?_, ?_⟩, fun i => ⟨?_, ?_⟩⟩
  · exact (s.readLoc_at (loc := .ctxMeta c) rfl (by simp)).trans (Context.metaWord_eq_ofNat _)
  · exact step_write_idle_at s w rest (loc := .ctxMeta c) rfl rfl
  · exact (s.readLoc_at (loc := .fMeta i) rfl (by simp)).trans (FieldReg.metaWord_eq_ofNat _)
  · exact step_write_idle_at s w rest (loc := .fMeta i) rfl rfl
  · exact (s.readLoc_at (loc := .ptMeta i) rfl (by simp)).trans (PointReg.metaWord_eq_ofNat _)
  · exact step_write_idle_at s w rest (loc := .ptMeta i) rfl rfl
  · exact (s.readLoc_at (loc := .kMeta i) rfl (by simp)).trans (ScalarReg.metaWord_eq_ofNat _)
  · exact step_write_idle_at s w rest (loc := .kMeta i) rfl rfl

/-! ### WIRE words (R75, R85) -/

theorem State.wireByte_eq (s : State) (n : Nat) :
    s.wireByte n = if n < 65 then s.readWire (Fin.ofNat 65 n) else 0 := by
  unfold State.wireByte
  split
  · next h => rw [show Fin.ofNat 65 n = ⟨n, h⟩ from Fin.ext (Nat.mod_eq_of_lt h)]
  · rfl

/-- A lane above the lowest byte is a lane of what stands above that byte. -/
theorem extractLsb'_append_byte {n : Nat} (hi : BitVec n) (lo : Byte) (start : Nat) :
    (hi ++ lo).extractLsb' (start + 8) 8 = hi.extractLsb' start 8 := by
  rw [BitVec.extractLsb'_append_eq_of_le (Nat.le_add_left 8 start), Nat.add_sub_cancel]

/-- Byte `k` of a WIRE word is lane `k` of the concatenation: `k` bytes are dropped below it. -/
theorem State.extractLsb'_wireWord (s : State) (m : Fin 17) (k : Fin 4) :
    (s.wireWord m).extractLsb' (8 * k.val) 8 = s.wireByte (4 * m.val + k.val) := by
  unfold State.wireWord
  fin_cases k
  · exact BitVec.extractLsb'_append_eq_right
  · exact (extractLsb'_append_byte _ _ 0).trans BitVec.extractLsb'_append_eq_right
  · exact (extractLsb'_append_byte _ _ 8).trans
      ((extractLsb'_append_byte _ _ 0).trans BitVec.extractLsb'_append_eq_right)
  · exact (extractLsb'_append_byte _ _ 16).trans
      ((extractLsb'_append_byte _ _ 8).trans BitVec.extractLsb'_append_eq_left)

/-- A write of one wire byte changes WIRE alone, and there that byte. -/
theorem State.setWireByte_spec (s : State) (n : Nat) (b : Byte) :
    ∃ bytes : Vector Byte 65, s.setWireByte n b = { s with wire := bytes }
      ∧ ∀ j : Fin 65, bytes.get j = if j.val = n then b else s.wire.get j := by
  by_cases h : n < 65
  · refine ⟨s.wire.set n b h, by rw [State.setWireByte, dif_pos h]; rfl, fun j => ?_⟩
    by_cases hj : j = ⟨n, h⟩
    · rw [if_pos (congrArg Fin.val hj), hj]
      exact vector_get_set_eq s.wire ⟨n, h⟩ b
    · rw [if_neg fun e => hj (Fin.ext e)]
      exact vector_get_set_ne s.wire ⟨n, h⟩ j b (Ne.symm hj)
  · refine ⟨s.wire, by rw [State.setWireByte, dif_neg h], fun j => ?_⟩
    rw [if_neg (by omega)]

/-- A write of a WIRE word changes WIRE alone, and there the word's four bytes. -/
theorem State.writeWireWord_spec (s : State) (m : Fin 17) (w : Word) :
    ∃ bytes : Vector Byte 65, s.writeWireWord m w = { s with wire := bytes }
      ∧ ∀ j : Fin 65, bytes.get j = if j.val / 4 = m.val then w.extractLsb' (8 * (j.val % 4)) 8 else s.wire.get j := by
  obtain ⟨b0, e0, h0⟩ := s.setWireByte_spec (4 * m.val) (w.extractLsb' 0 8)
  obtain ⟨b1, e1, h1⟩ := State.setWireByte_spec { s with wire := b0 } (4 * m.val + 1) (w.extractLsb' 8 8)
  obtain ⟨b2, e2, h2⟩ := State.setWireByte_spec { s with wire := b1 } (4 * m.val + 2) (w.extractLsb' 16 8)
  obtain ⟨b3, e3, h3⟩ := State.setWireByte_spec { s with wire := b2 } (4 * m.val + 3) (w.extractLsb' 24 8)
  refine ⟨b3, by rw [State.writeWireWord, e0, e1, e2, e3], fun j => ?_⟩
  rw [h3, h2, h1, h0]
  by_cases hj : j.val / 4 = m.val
  · rw [if_pos hj]
    have hlane : j.val % 4 = 0 ∨ j.val % 4 = 1 ∨ j.val % 4 = 2 ∨ j.val % 4 = 3 := by omega
    rcases hlane with hk | hk | hk | hk <;> rw [hk] <;> simp (disch := omega) only [if_pos, if_neg]
  · simp (disch := omega) only [if_neg]

/-- Settles O17: the bytes of a WIRE word are its lanes, and its idle write is four writes of a byte. -/
theorem wireWordsAreLittleEndianBytes : Obligations.WireWordsAreLittleEndianBytes := by
  unfold Obligations.WireWordsAreLittleEndianBytes
  intro s m w rest
  refine ⟨fun k => ?_, fun hidle => ?_⟩
  · have hread : s.readLoc (locate (BitVec.ofNat 15 (0xD00 + 4 * m.val))) = s.wireWord m :=
      s.readLoc_at (loc := .wire m) rfl (by simp)
    rw [hread, State.extractLsb'_wireWord, State.wireByte_eq]
  · obtain ⟨bytes, hwrite, hbytes⟩ := State.writeWireWord_spec { s with inputs := rest } m w
    exact ⟨bytes, (step_write_idle_at s w rest (loc := .wire m) rfl rfl hidle).trans (congrArg _ hwrite), hbytes⟩

/-! ### Reserved offsets, ID and ERRCMD (R77) -/

/-- Settles O18: a reserved offset is one of the place `reserved`, which reads 0 and which no write changes. -/
theorem reservedOffsetsReadZeroIgnoreWrites : Obligations.ReservedOffsetsReadZeroIgnoreWrites := by
  unfold Obligations.ReservedOffsetsReadZeroIgnoreWrites
  intro s off w rest h4
  refine ⟨fun hr => step_read_control s rest h4 ((locate_reserved h4).2 hr) rfl, fun h => ?_⟩
  rw [step_write s w rest h4]
  rcases h with hr | rfl | rfl
  · rw [(locate_reserved h4).2 hr]; rfl
  · rw [locate_id]; rfl
  · rw [locate_errcmd]; rfl

/-! ### A busy block (R80, R86, R334) -/

theorem State.writeCtrl_of_srst (s : State) {w : Word} (h : w.getLsbD 1 = true) : s.writeCtrl w = s.softReset := by
  rw [State.writeCtrl, if_pos h]

theorem State.writeLoc_busy_of_isData {s : State} {loc : Loc} (w : Word) (h : loc.isData = true)
    (hbusy : s.busy = true) : s.writeLoc loc w = { s with ovf := true } := by
  rw [State.writeLoc_of_isData s w h, if_pos hbusy]

/-- Settles O7: the writes of CTRL and STATUS are those of O10, and SRST's is the soft reset. -/
theorem busyWritesAreDropped : Obligations.BusyWritesAreDropped := by
  unfold Obligations.BusyWritesAreDropped
  intro s off w rest hbusy
  obtain ⟨hctrl, hstatus⟩ := controlWritesTakeEffect s w rest
  refine ⟨fun h4 hoff => ?_, fun hsrst => ?_, fun hsrst => ?_, hstatus⟩
  · rw [step_write s w rest h4]
    rcases hoff with hdata | rfl
    · exact congrArg _ (State.writeLoc_busy_of_isData w ((isData_locate h4).2 hdata) hbusy)
    · exact congrArg _ (State.writeCmd_busy _ w hbusy)
  · rw [hctrl hsrst, if_pos hbusy]
  · have hstep := step_write s (off := 0x004) w rest (by decide)
    rw [locate_ctrl, State.writeLoc, State.writeCtrl_of_srst _ hsrst] at hstep
    exact ⟨_, hstep, rfl, rfl, rfl⟩

/-- What a command in flight reads or answers by, and what only its completion writes, is in `t` as it is in `s`
(R86, R284, R334). -/
def State.FrozenIn (s t : State) : Prop :=
  t.f = s.f ∧ t.pt = s.pt ∧ t.k = s.k ∧ t.ctx = s.ctx ∧ t.table = s.table ∧ t.wire = s.wire ∧ t.tvalid = s.tvalid
    ∧ t.cmd = s.cmd ∧ t.eq = s.eq ∧ t.code = s.code ∧ t.errcmd = s.errcmd

theorem State.FrozenIn.refl (s : State) : s.FrozenIn s := ⟨rfl, rfl, rfl, rfl, rfl, rfl, rfl, rfl, rfl, rfl, rfl⟩

/-- Completion ends the flight of the command, with success or with an error (R283, R285). -/
theorem busy_of_completeInFlight {s t : State} (h : completeInFlight s = .next t) : t.busy = false := by
  rcases completeInFlight_cases s with ⟨_, _, -, hok, -⟩ | ⟨_, herr, -⟩
  · obtain rfl := Host.Outcome.next.inj (hok.symm.trans h); rfl
  · obtain rfl := Host.Outcome.next.inj (herr.symm.trans h); rfl

/-- A host write to a busy block resets it or leaves all that the command in flight reads (R80, R334). -/
theorem State.writeLoc_ends_or_frozenIn (s : State) (loc : Loc) (w : Word) (hbusy : s.busy = true) :
    (s.writeLoc loc w).busy = false ∨ s.FrozenIn (s.writeLoc loc w) := by
  by_cases hd : loc.isData = true
  · rw [State.writeLoc_busy_of_isData w hd hbusy]; exact .inr (.refl s)
  cases loc
  case ctrl =>
    rw [State.writeLoc]
    cases hsrst : w.getLsbD 1 with
    | true => rw [State.writeCtrl_of_srst s hsrst]; exact .inl rfl
    | false => rw [State.writeCtrl_of_not_srst s hsrst, if_pos hbusy]; exact .inr (.refl s)
  case cmd => rw [State.writeLoc, State.writeCmd_busy s w hbusy]; exact .inr (.refl s)
  case status | id | errcmd | reserved => exact .inr (.refl s)
  all_goals exact absurd rfl hd

/-- Settles O22, by the cases of a step: completions and resets end the flight, reads and writes leave what it reads. -/
theorem operandsInFlightAreFrozen : Obligations.OperandsInFlightAreFrozen := by
  unfold Obligations.OperandsInFlightAreFrozen
  intro s t hbusy hstep hflight
  rcases step_cases hstep with ⟨-, _, hc⟩ | ⟨_, _, _, _, -, rfl⟩ | ⟨off, w, rest, -, -, rfl⟩ | ⟨_, -, rfl⟩ | ⟨hidle, -⟩
  · exact absurd hflight (ne_true_of_eq_false (busy_of_completeInFlight hc))
  · exact State.FrozenIn.refl s
  · rcases State.writeLoc_ends_or_frozenIn { s with inputs := rest } (locate off) w hbusy with hend | hfrozen
    · exact absurd hflight (ne_true_of_eq_false hend)
    · exact hfrozen
  · exact absurd hflight Bool.false_ne_true
  · exact absurd hbusy (ne_true_of_eq_false hidle)

end Sys2Proof.Machine
end

section
/-! SUPPORT. The proofs of the statements about command words: decode and encode are inverse, strict decode is the mask
and match of the opcode table field by field, every word is accepted and an illegal one completes with IllegalCommand,
and the pseudo-commands compute their effects (spec/30_encoding.md R101 to R110; spec/60_exceptions.md R301). -/

namespace Sys2Proof

/-! ### Decoding an encoding (R101 to R106) -/

/-- The family `FieldsFitTheShape` as one statement about every command. -/
theorem Instr.fieldsFitTheShape (i : Instr) : Laws.FieldsFitTheShape.Statement i := by
  cases i with
  | nop => exact Laws.FieldsFitTheShape.nop
  | fadd => exact Laws.FieldsFitTheShape.fadd ..
  | fsub => exact Laws.FieldsFitTheShape.fsub ..
  | fmul => exact Laws.FieldsFitTheShape.fmul ..
  | fneg => exact Laws.FieldsFitTheShape.fneg ..
  | finv => exact Laws.FieldsFitTheShape.finv ..
  | fdiv => exact Laws.FieldsFitTheShape.fdiv ..
  | fpow => exact Laws.FieldsFitTheShape.fpow ..
  | fred => exact Laws.FieldsFitTheShape.fred ..
  | pinf => exact Laws.FieldsFitTheShape.pinf ..
  | pmake => exact Laws.FieldsFitTheShape.pmake ..
  | pneg => exact Laws.FieldsFitTheShape.pneg ..
  | peq => exact Laws.FieldsFitTheShape.peq ..
  | padd => exact Laws.FieldsFitTheShape.padd ..
  | pdbl => exact Laws.FieldsFitTheShape.pdbl ..
  | ptoj => exact Laws.FieldsFitTheShape.ptoj ..
  | ptoa => exact Laws.FieldsFitTheShape.ptoa ..
  | smul => exact Laws.FieldsFitTheShape.smul ..
  | smulg => exact Laws.FieldsFitTheShape.smulg ..
  | ctxld => exact Laws.FieldsFitTheShape.ctxld ..
  | pdec => exact Laws.FieldsFitTheShape.pdec ..
  | penc => exact Laws.FieldsFitTheShape.penc ..

theorem opcodeOfByte_eq_some {b : Byte} {o : Opcode} : opcodeOfByte b = some o ↔ o.toByte = b :=
  ⟨toByte_of_opcodeOfByte, fun h => h ▸ opcodeOfByte_toByte o⟩

/-- When a word decodes, and to what (R104). -/
theorem decode_eq_ok {w : Word} {i : Instr} :
    decode w = .ok i ↔ ∃ o : Opcode, o.toByte = (fieldsOfWord w).op ∧ shapeCheck o.shape (fieldsOfWord w) = none
      ∧ instrOf o (fieldsOfWord w) = i := by
  simp only [← opcodeOfByte_eq_some, decode]
  cases opcodeOfByte (fieldsOfWord w).op with
  | none => simp
  | some o => cases h : shapeCheck o.shape (fieldsOfWord w) <;> simp [h]

/-- The operands a command's own fields name are its operands. -/
theorem instrOf_fieldsOf (i : Instr) : instrOf i.opcode (fieldsOf i) = i := by
  cases i <;> simp [instrOf, Instr.opcode, fieldsOf]

/-- Settles O1: the encoding's fields are the command's own, which fit its opcode's shape and name its operands. -/
theorem encodedCommandDecodesToItself : Obligations.EncodedCommandDecodesToItself := by
  unfold Obligations.EncodedCommandDecodesToItself
  intro i
  obtain ⟨hop, hshape⟩ := i.fieldsFitTheShape
  rw [decode_eq_ok, encode, fieldsOfWord_wordOfFields]
  exact ⟨i.opcode, hop.symm, hshape, instrOf_fieldsOf i⟩

/-! ### A word that decodes is its command's encoding -/

/-- The field a register operand of this class is encoded to after it was decoded from `x`. -/
def OperandClass.readBack : OperandClass → BitVec 4 → BitVec 4
  | .unused, _ => 0
  | .f, x => operandField (fOperand x)
  | .p, x => operandField (pOperand x)
  | .k, x => operandField (kOperand x)

/-- The fields of the command that an opcode of this shape decodes from `f`. -/
def Shape.readBack (sh : Shape) (op : Byte) (f : Fields) : Fields where
  op := op
  d := sh.d.readBack f.d
  s1 := sh.s1.readBack f.s1
  s2 := sh.s2.readBack f.s2
  c := if sh.usesC then contextField (cOperand f.c) else 0
  rsv := 0
  imm := if sh.usesImm then f.imm else 0

theorem fieldsOf_instrOf (o : Opcode) (f : Fields) : fieldsOf (instrOf o f) = o.shape.readBack o.toByte f := by
  cases o <;> rfl

/-- A register field that passes strict decode's checks reads back as it is (R102, R104). -/
theorem OperandClass.readBack_eq_self {cls : OperandClass} {x : BitVec 4} (hzero : zeroIfUnused cls x = true)
    (hclass : inClass cls x = true) : cls.readBack x = x := by
  cases cls with
  | unused => exact (beq_iff_eq.1 hzero).symm
  | f => exact operandField_fOperand x
  | p => exact operandField_pOperand hclass
  | k => exact operandField_kOperand hclass

/-- A field that is 0 where it is unused reads back as it is. -/
theorem ite_zero_eq_self {n : Nat} {used : Bool} {x : BitVec n} (h : used = true ∨ x = 0) :
    (if used then x else 0) = x := by
  rcases h with rfl | rfl
  · exact if_pos rfl
  · exact ite_self 0

/-- Strict decode drops nothing: the used fields read back, and the unused ones are 0 (R104). -/
theorem fieldsOf_instrOf_of_shapeCheck {o : Opcode} {f : Fields} (hop : o.toByte = f.op)
    (hshape : shapeCheck o.shape f = none) : fieldsOf (instrOf o f) = f := by
  obtain ⟨hrsv, ⟨hd, hs1, hs2, hc, himm⟩, cd, cs1, cs2⟩ := shapeCheck_eq_none.1 hshape
  rw [fieldsOf_instrOf, Shape.readBack, OperandClass.readBack_eq_self hd cd, OperandClass.readBack_eq_self hs1 cs1,
    OperandClass.readBack_eq_self hs2 cs2, contextField_cOperand, ite_zero_eq_self hc, ite_zero_eq_self himm,
    hop, ← hrsv]

/-- Settles O2: the command's fields are the word's fields, and a word is the word of its fields. -/
theorem decodedWordIsTheEncoding : Obligations.DecodedWordIsTheEncoding := by
  unfold Obligations.DecodedWordIsTheEncoding
  intro w i h
  obtain ⟨o, hop, hshape, rfl⟩ := decode_eq_ok.1 h
  rw [encode, fieldsOf_instrOf_of_shapeCheck hop hshape, wordOfFields_fieldsOfWord]

/-- Settles O4, by evaluation of the decoder. -/
theorem specExampleWordsDecode : Obligations.SpecExampleWordsDecode := by
  unfold Obligations.SpecExampleWordsDecode
  decide

/-! ### Strict decode is the opcode table (R104) -/

theorem opcode_instrOf (o : Opcode) (f : Fields) : (instrOf o f).opcode = o := by cases o <;> rfl

theorem exists_decode_iff {w : Word} {o : Opcode} :
    (∃ i, decode w = .ok i ∧ i.opcode = o) ↔
      o.toByte = (fieldsOfWord w).op ∧ shapeCheck o.shape (fieldsOfWord w) = none := by
  constructor
  · rintro ⟨i, hi, rfl⟩
    obtain ⟨o, hop, hshape, rfl⟩ := decode_eq_ok.1 hi
    rw [opcode_instrOf]
    exact ⟨hop, hshape⟩
  · rintro ⟨hop, hshape⟩
    exact ⟨_, decode_eq_ok.2 ⟨o, hop, hshape, rfl⟩, opcode_instrOf _ _⟩

/-- The must-be-0 bits of a register field of this class (R102). -/
def OperandClass.zeroBits : OperandClass → BitVec 4
  | .unused => 0xF
  | .f => 0x0
  | .p => 0x8
  | .k => 0xC

/-- The bits of each field that a command of this shape fixes: all of OP and RSV, all of an unused field, and the
must-be-0 bits of a register field (R102, R104). -/
def Shape.fixedBits (sh : Shape) : Fields where
  op := .allOnes 8
  d := sh.d.zeroBits
  s1 := sh.s1.zeroBits
  s2 := sh.s2.zeroBits
  c := if sh.usesC then 0 else .allOnes 1
  rsv := .allOnes 3
  imm := if sh.usesImm then 0 else .allOnes 8

/-- The mask of a row of the opcode table is the word of the bits its shape fixes. -/
theorem Opcode.row_mask (o : Opcode) : o.row.mask = wordOfFields o.shape.fixedBits := by cases o <;> decide

/-- The match of a row of the opcode table is its opcode number, with every other field 0. -/
theorem Opcode.row_pattern (o : Opcode) : o.row.pattern = wordOfFields ⟨o.toByte, 0, 0, 0, 0, 0, 0⟩ := by
  cases o <;> decide

/-- Masked to 0: the field passes strict decode's two checks of its class (R102, R104). -/
theorem and_zeroBits_eq_zero (cls : OperandClass) (x : BitVec 4) :
    x &&& cls.zeroBits = 0 ↔ zeroIfUnused cls x = true ∧ inClass cls x = true := by
  revert x
  cases cls <;> decide

/-- A field that is masked whole when it is unused is 0 or used. -/
theorem and_ite_allOnes_eq_zero {n : Nat} (used : Bool) (x : BitVec n) :
    x &&& (if used then 0 else .allOnes n) = 0 ↔ used = true ∨ x = 0 := by
  cases used <;> simp

theorem eq_iff_fieldsOfWord_eq {w v : Word} : w = v ↔ fieldsOfWord w = fieldsOfWord v :=
  ⟨congrArg _, fun h => by rw [← wordOfFields_fieldsOfWord w, h, wordOfFields_fieldsOfWord]⟩

/-- Masking a word masks each of its fields (R101). -/
theorem fieldsOfWord_and (w v : Word) :
    fieldsOfWord (w &&& v) =
      ⟨(fieldsOfWord w).op &&& (fieldsOfWord v).op, (fieldsOfWord w).d &&& (fieldsOfWord v).d,
        (fieldsOfWord w).s1 &&& (fieldsOfWord v).s1, (fieldsOfWord w).s2 &&& (fieldsOfWord v).s2,
        (fieldsOfWord w).c &&& (fieldsOfWord v).c, (fieldsOfWord w).rsv &&& (fieldsOfWord v).rsv,
        (fieldsOfWord w).imm &&& (fieldsOfWord v).imm⟩ := by
  simp only [fieldsOfWord, BitVec.extractLsb'_and]

/-- A row's mask and match is strict decode's test of the opcode and of its shape, field by field (R104). -/
theorem and_row_mask_eq_pattern_iff (o : Opcode) (w : Word) :
    w &&& o.row.mask = o.row.pattern ↔
      o.toByte = (fieldsOfWord w).op ∧ shapeCheck o.shape (fieldsOfWord w) = none := by
  rw [o.row_mask, o.row_pattern, eq_iff_fieldsOfWord_eq, fieldsOfWord_and, fieldsOfWord_wordOfFields,
    fieldsOfWord_wordOfFields, shapeCheck_eq_none]
  simp only [Shape.fixedBits, Fields.mk.injEq, and_zeroBits_eq_zero, and_ite_allOnes_eq_zero, BitVec.and_allOnes,
    eq_comm (a := o.toByte)]
  tauto

end Sys2Proof

namespace Sys2Proof.Machine

/-! ### The sequencer's turn (R301, R307) -/

theorem completeInFlight_of_illegal {s : State} (h : ∀ i, decode s.cmd ≠ .ok i) :
    completeInFlight s = .next (s.failed 16) := by
  unfold completeInFlight
  split
  · next i hi => exact absurd hi (h i)
  · rfl

/-- The command in flight completes when the host has nothing pending or waits. -/
theorem step_of_nil_or_wait {s : State} {rest : List Input} (hbusy : s.busy = true)
    (hin : s.inputs = [] ∨ s.inputs = .wait :: rest) : step s = completeInFlight s := by
  rcases hin with hin | hin <;> simp [step, nextStep, hin, hbusy]

theorem step_complete {s : State} {rest : List Input} (hbusy : s.busy = true) (hin : s.inputs = .complete :: rest) :
    step s = completeInFlight { s with inputs := rest } := by
  simp [step, nextStep, hin, hbusy]

/-- Settles O3: mask and match is strict decode's test, and a word that no row admits does not decode. -/
theorem strictDecodeIsTheOpcodeTable : Obligations.StrictDecodeIsTheOpcodeTable := by
  unfold Obligations.StrictDecodeIsTheOpcodeTable
  intro w
  have hrow (o : Opcode) : (∃ i, decode w = .ok i ∧ i.opcode = o) ↔ w &&& o.row.mask = o.row.pattern :=
    exists_decode_iff.trans (and_row_mask_eq_pattern_iff o w).symm
  refine ⟨hrow, fun s rest => ⟨?_, fun hnone hbusy hcmd => ?_⟩⟩
  · calc step { s with busy := false, inputs := .write 0x00C w :: rest }
        = .next (({ s with busy := false, inputs := rest } : State).writeCmd w) :=
          step_write { s with busy := false } w rest (by decide)
      _ = .next { s with busy := true, done := false, cmd := w, inputs := rest } :=
          congrArg _ (State.writeCmd_idle _ w rfl)
  · have hillegal (i : Instr) : decode s.cmd ≠ .ok i :=
      fun hi => hnone i.opcode ((hrow i.opcode).1 ⟨i, hcmd ▸ hi, rfl⟩)
    exact ⟨fun hin => (step_of_nil_or_wait hbusy hin).trans (completeInFlight_of_illegal hillegal),
      fun hin => (step_complete hbusy hin).trans (completeInFlight_of_illegal hillegal)⟩

/-! ### The pseudo-commands (R110) -/

section Pseudo

variable {s : State} {a : FReg}

/-- FPOW by an exponent of 0 to 127, on an operand it accepts (R146). -/
theorem exec_fpow_of_ready (d : FReg) {imm : Byte} (h : s.fieldReady a) (himm : imm.toNat < 128) :
    exec (.fpow d a imm) s
      = .next (s.withField d (s.fVal a ^ imm.toNat % s.fMod a) (s.readF a).tag).succeeded := by
  have hint : imm.toInt = imm.toNat := BitVec.toInt_eq_toNat_of_lt (by omega)
  have ⟨_, _, hlt⟩ := h
  have hp : 0 < s.fMod a := Nat.zero_lt_of_lt hlt
  change execFpow d a imm s = _
  rw [execFpow, hint, finish_ensure_bind, if_pos (by simp), fieldSingle_eq_ok.2 ⟨h, rfl⟩, ← fpow_eq hp]
  rfl

/-- An operand that a field command accepts is a pair of operands with itself (R140). -/
theorem fieldPair_self (h : s.fieldReady a) :
    s.fieldPair a a = .ok ⟨s.fMod a, s.fVal a, s.fVal a, (s.readF a).tag⟩ :=
  fieldPair_eq_ok.2 ⟨h, h, rfl, rfl⟩

theorem exec_fsub_self (d : FReg) (h : s.fieldReady a) :
    exec (.fsub d a a) s = .next (s.withField d 0 (s.readF a).tag).succeeded := by
  have hzero : fsub (s.fMod a) (s.fVal a) (s.fVal a) = 0 := by simp [fsub]
  change execFsub d a a s = _
  rw [execFsub, fieldPair_self h, ← hzero]
  rfl

theorem exec_fmul_self (d : FReg) (h : s.fieldReady a) :
    exec (.fmul d a a) s = .next (s.withField d (s.fVal a ^ 2 % s.fMod a) (s.readF a).tag).succeeded := by
  change execFmul d a a s = _
  rw [execFmul, fieldPair_self h, sq]
  rfl

end Pseudo

/-- Settles O37: FMOV and FONE are the powers by 1 and 0, FZERO and FSQR the difference and the product of equals. -/
theorem pseudoCommandsComputeTheirEffect : Obligations.PseudoCommandsComputeTheirEffect := by
  unfold Obligations.PseudoCommandsComputeTheirEffect
  intro s d a h
  have ⟨_, ⟨_, hp, _⟩, hlt⟩ := h
  refine ⟨?_, ?_, exec_fsub_self d h, exec_fmul_self d h⟩
  · have hpow : s.fVal a ^ (1 : Byte).toNat % s.fMod a = s.fVal a := by simpa using Nat.mod_eq_of_lt hlt
    rw [Instr.fmov, exec_fpow_of_ready d h (by decide), hpow]
  · have hpow : s.fVal a ^ (0 : Byte).toNat % s.fMod a = 1 := by simpa using Nat.mod_eq_of_lt hp
    rw [Instr.fone, exec_fpow_of_ready d h (by decide), hpow]

end Sys2Proof.Machine
end

section
/-! SUPPORT. The proofs of the statements about the field commands: each command is its checks in order and then the write
of one residue, so what it computes is what its arithmetic primitive computes on operands that pass the checks
(spec/41_field.md R130 to R150). -/

namespace Sys2Proof.Machine

/-! ### The values (R134, R136, R142 to R147) -/

/-- The subtractor's result as the residue of the difference of two integers (R134). -/
theorem fsub_eq_residue {p a b : Nat} (ha : a < p) (hb : b ≤ p) : fsub p a b = (((a : Int) - b) % p).toNat :=
  eq_residue (fsub_lt ha hb) (by rw [cast_fsub ha hb]; push_cast; rfl)

theorem toNat_emod_lt {p : Nat} (hp : 0 < p) (z : Int) : (z % (p : Int)).toNat < p := by
  have := Int.emod_lt_of_pos z (Int.natCast_pos.2 hp)
  omega

/-- For a prime modulus the product of a non-zero value and its Fermat power is 1 (R136). -/
theorem mul_fermat_mod {p a : Nat} (hp : p.Prime) (h0 : a ≠ 0) (ha : a < p) : a * (a ^ (p - 2) % p) % p = 1 := by
  have hexp : p - 2 + 1 = p - 1 := by have := hp.two_le; omega
  have hcoprime : a.Coprime p := (Nat.coprime_of_lt_prime h0 ha hp).symm
  calc a * (a ^ (p - 2) % p) % p
      = a ^ (p - 1) % p := by rw [Nat.mul_mod_mod, ← pow_succ', hexp]
    _ = 1 % p := Nat.ModEq.pow_card_sub_one_eq_one hp hcoprime
    _ = 1 := Nat.mod_eq_of_lt hp.one_lt

/-- The sign of FPOW's exponent is its bit 7 (R103, R146). -/
theorem toInt_nonneg_iff (imm : Byte) : 0 ≤ imm.toInt ↔ imm.toNat < 128 := by
  rw [BitVec.toInt_eq_toNat_cond]
  split <;> omega

/-! ### A command as the outcome of its checks (R282) -/

/-- Where the last step is the write of `F[d]`, no check is left. -/
theorem finish_setField (s : State) (d : FReg) {v w : Nat} (tag : CReg) (h : v = w) :
    s.finish (pure (s.setField d v tag)) = s.outcome [] (s.withField d w tag) := h ▸ rfl

theorem State.fMod_lt (s : State) (a : FReg) : s.fMod a < 2 ^ 256 := BitVec.isLt _

section Outcome

variable {s t : State} {a b : FReg} {k : FieldOperands → Except Err State} {rest : List (Bool × BitVec 5)}

/-- A binary field command is the outcome of its operand checks and of the checks its computation makes on operands that
pass them. -/
theorem finish_fieldPair_outcome
    (h : s.fieldReady a → s.fVal b < s.fMod a →
      s.finish (k ⟨s.fMod a, s.fVal a, s.fVal b, (s.readF a).tag⟩) = s.outcome rest t) :
    s.finish (s.fieldPair a b >>= k) = s.outcome (s.fieldPairChecks a b ++ rest) t := by
  rw [finish_fieldPair_bind]
  refine ite_congr rfl (fun hv => ite_congr rfl (fun hctx => ite_congr decide_eq_true_eq.symm (fun _ =>
    ite_congr rfl (fun hval => ?_) fun _ => rfl) fun _ => rfl) fun _ => rfl) fun _ => rfl
  simp only [Bool.and_eq_true, decide_eq_true_eq] at hv hctx hval
  exact h ⟨hv.1, hctx.1, hval.1⟩ hval.2

/-- As `finish_fieldPair_outcome`, for a unary field command. -/
theorem finish_fieldSingle_outcome
    (h : s.fieldReady a → s.finish (k ⟨s.fMod a, s.fVal a, 0, (s.readF a).tag⟩) = s.outcome rest t) :
    s.finish (s.fieldSingle a >>= k) = s.outcome (s.fieldChecks a ++ rest) t := by
  rw [finish_fieldSingle_bind]
  exact ite_congr rfl (fun hv => ite_congr decide_eq_true_eq.symm (fun hctx => ite_congr decide_eq_true_eq.symm
    (fun hval => h ⟨hv, of_decide_eq_true hctx, of_decide_eq_true hval⟩) fun _ => rfl) fun _ => rfl) fun _ => rfl

/-- The inverter is the check for 0 and then the Fermat power (R136). -/
theorem finish_finv_outcome {p x : Nat} {k : Nat → Except Err State} (hp : p < 2 ^ 256)
    (h : s.finish (k (x ^ (p - 2) % p)) = s.outcome rest t) :
    s.finish (finv p x >>= k) = s.outcome ((decide (x ≠ 0), 4) :: rest) t := by
  rcases finv_cases (b := x) hp with ⟨hx, e⟩ | ⟨hx, e⟩
  · rw [e, State.outcome, if_neg (by simp [hx])]; rfl
  · rw [e, State.outcome, if_pos (by simp [hx]), ← h]; rfl

end Outcome

/-! ### The commands (R140 to R147) -/

/-- Settles O31: the primitives are the modular operations on operands below the modulus. -/
theorem faddFsubFmulComputeModuloP : Obligations.FaddFsubFmulComputeModuloP := by
  unfold Obligations.FaddFsubFmulComputeModuloP
  intro s d a b
  refine ⟨finish_fieldPair_outcome fun ⟨_, _, ha⟩ hb => ?_, finish_fieldPair_outcome fun ⟨_, _, ha⟩ hb => ?_,
    finish_fieldPair_outcome fun _ _ => ?_⟩
  · exact finish_setField s d _ (fadd_eq ha hb)
  · exact finish_setField s d _ (fsub_eq_residue ha hb.le)
  · exact finish_setField s d _ rfl

/-- Settles O32: the subtractor takes the operand from 0. -/
theorem fnegNegatesModuloP : Obligations.FnegNegatesModuloP := by
  unfold Obligations.FnegNegatesModuloP
  intro s d a
  refine finish_fieldSingle_outcome fun ⟨_, _, ha⟩ => finish_setField s d _ ?_
  simpa using fsub_eq_residue (Nat.zero_lt_of_lt ha) ha.le

/-- Settles O33: the inverter's value is the Fermat power, and Fermat's little theorem makes it the inverse. -/
theorem finvInvertsModuloP : Obligations.FinvInvertsModuloP := by
  unfold Obligations.FinvInvertsModuloP
  intro s d a
  refine ⟨finish_fieldSingle_outcome fun _ => finish_finv_outcome (s.fMod_lt a) ?_, ?_⟩
  · exact finish_setField s d _ rfl
  · exact fun ⟨_, _, ha⟩ h0 hp => mul_fermat_mod hp h0 ha

/-- Settles O34: the multiplier takes the Fermat power of the divisor. -/
theorem fdivDividesModuloP : Obligations.FdivDividesModuloP := by
  unfold Obligations.FdivDividesModuloP
  intro s d a b
  refine finish_fieldPair_outcome fun _ _ => finish_finv_outcome (s.fMod_lt a) ?_
  exact finish_setField s d _ (Nat.mul_mod_mod _ _ _)

/-- Settles O35: the exponent's sign is checked first, and a non-negative exponent is the immediate itself. -/
theorem fpowRaisesToTheImmediate : Obligations.FpowRaisesToTheImmediate := by
  unfold Obligations.FpowRaisesToTheImmediate
  intro s d a imm
  refine (finish_ensure_bind s _ _ _).trans (ite_congr (by simp only [toInt_nonneg_iff]) (fun himm => ?_) fun _ => rfl)
  have hlt : imm.toNat < 128 := of_decide_eq_true himm
  have hint : imm.toInt = imm.toNat := BitVec.toInt_eq_toNat_of_lt (by omega)
  refine finish_fieldSingle_outcome (rest := []) fun ⟨_, _, ha⟩ => finish_setField s d _ ?_
  rw [hint, Int.toNat_natCast, fpow_eq (Nat.zero_lt_of_lt ha)]

/-- Settles O36: the reducer is the remainder, behind the checks of both registers and of the context. -/
theorem fredReducesDoubleWidth : Obligations.FredReducesDoubleWidth := by
  unfold Obligations.FredReducesDoubleWidth
  intro s d hi lo c
  change execFred d hi lo c s = _
  simp only [execFred, checkV, State.checkCtx, finish_ensure_bind, usable_iff, State.outcome, Bool.and_eq_true,
    decide_eq_true_eq, ite_and]
  rfl

/-! ### Results stay in the field (R150) -/

/-- A command that completes with CODE 0 has passed its checks and written its destination (R283, R285). -/
theorem outcome_of_code_zero {s t u : State} {l : List (Bool × BitVec 5)} (hl : ∀ c ∈ l, c.2 ≠ 0)
    (h : s.outcome l u = .next t) (h0 : t.code = 0) : (∀ c ∈ l, c.1 = true) ∧ t = u.succeeded := by
  induction l with
  | nil => exact ⟨by simp, (Host.Outcome.next.inj h).symm⟩
  | cons c l ih =>
    obtain ⟨holds, code⟩ := c
    obtain ⟨hcode, hl⟩ := List.forall_mem_cons.1 hl
    rw [State.outcome] at h
    split at h
    · next hc =>
      obtain ⟨hall, ht⟩ := ih hl h
      exact ⟨List.forall_mem_cons.2 ⟨hc, hall⟩, ht⟩
    · obtain rfl := Host.Outcome.next.inj h
      exact absurd h0 hcode

/-- A completed write of a value below the modulus is read back as that value (R22, R150). -/
theorem withField_inField {s : State} {d : FReg} {v : Nat} {tag : CReg} (hv : v < s.modulus tag) :
    ((s.withField d v tag).succeeded.readF d).v = true
      ∧ (s.withField d v tag).succeeded.fVal d < (s.withField d v tag).succeeded.fMod d := by
  have hread : (s.withField d v tag).succeeded.readF d = ⟨BitVec.ofNat 256 v, tag, true⟩ := s.readF_writeF d _
  have hfits : v < 2 ^ 256 := hv.trans (BitVec.isLt _)
  rw [State.fVal, State.fMod, hread, BitVec.toNat_ofNat, Nat.mod_eq_of_lt hfits]
  exact ⟨rfl, hv⟩

/-- The checks raise no code 0, and where they hold the value is below the modulus (R150, R283). -/
def GuardsResidue (checks : List (Bool × BitVec 5)) (p v : Nat) : Prop :=
  (∀ c ∈ checks, c.2 ≠ 0) ∧ ((∀ c ∈ checks, c.1 = true) → v < p)

section GuardsResidue

variable {l m : List (Bool × BitVec 5)} {p v : Nat} {s : State} {a b : FReg}

theorem GuardsResidue.cons {c : Bool × BitVec 5} (h : GuardsResidue l p v) (hc : c.2 ≠ 0) :
    GuardsResidue (c :: l) p v :=
  ⟨List.forall_mem_cons.2 ⟨hc, h.1⟩, fun hall => h.2 (List.forall_mem_cons.1 hall).2⟩

theorem GuardsResidue.append (h : GuardsResidue l p v) (hm : ∀ c ∈ m, c.2 ≠ 0) : GuardsResidue (l ++ m) p v :=
  ⟨List.forall_mem_append.2 ⟨h.1, hm⟩, fun hall => h.2 (List.forall_mem_append.1 hall).1⟩

/-- The checks of a field command's operands make the modulus positive. -/
theorem guardsResidue_fieldPairChecks (hv : 0 < s.fMod a → v < s.fMod a) :
    GuardsResidue (s.fieldPairChecks a b) (s.fMod a) v := by
  refine ⟨by simp [State.fieldPairChecks], fun hall => hv ?_⟩
  obtain ⟨-, -, -, hlt, -⟩ : (_ ∧ _) ∧ (_ ∧ _) ∧ _ ∧ s.fVal a < s.fMod a ∧ _ := by
    simpa [State.fieldPairChecks] using hall
  exact Nat.zero_lt_of_lt hlt

theorem guardsResidue_fieldChecks (hv : 0 < s.fMod a → v < s.fMod a) :
    GuardsResidue (s.fieldChecks a) (s.fMod a) v := by
  refine ⟨by simp [State.fieldChecks], fun hall => hv ?_⟩
  obtain ⟨-, -, hlt⟩ : _ ∧ _ ∧ s.fVal a < s.fMod a := by simpa [State.fieldChecks] using hall
  exact Nat.zero_lt_of_lt hlt

/-- A usable context has a positive modulus (R30). -/
theorem guardsResidue_fredChecks {hi lo : KReg} {c : CReg} (hv : 0 < s.modulus c → v < s.modulus c) :
    GuardsResidue [((s.readK hi).v && (s.readK lo).v, 17), (decide (s.ctxReady c), 18)] (s.modulus c) v := by
  refine ⟨by simp, fun hall => hv ?_⟩
  obtain ⟨-, -, htwo, -⟩ : _ ∧ s.ctxReady c := by simpa using hall
  exact Nat.zero_lt_of_lt htwo

end GuardsResidue

/-- The blocks of F are apart (R73). -/
theorem fReg_of_block_eq {d e : FReg} (h : (0x400 + 0x40 * e.val, 0x40) = (0x400 + 0x40 * d.val, 0x40)) : e = d := by
  rw [Prod.mk.injEq] at h
  exact Fin.ext (by omega)

/-- Every command whose destination is a block of F is the outcome of checks that guard the residue it writes there
(R140 to R147). -/
theorem exec_eq_outcome_of_destination_f {i : Instr} (s : State) (h : (destination i).2 = 0x40) :
    ∃ (e : FReg) (checks : List (Bool × BitVec 5)) (v : Nat) (tag : CReg), destination i = (0x400 + 0x40 * e.val, 0x40)
      ∧ exec i s = s.outcome checks (s.withField e v tag) ∧ GuardsResidue checks (s.modulus tag) v := by
  cases i
  case fadd d a b =>
    obtain ⟨hadd, -, -⟩ := faddFsubFmulComputeModuloP s d a b
    exact ⟨d, _, _, _, rfl, hadd, guardsResidue_fieldPairChecks (Nat.mod_lt _)⟩
  case fsub d a b =>
    obtain ⟨-, hsub, -⟩ := faddFsubFmulComputeModuloP s d a b
    exact ⟨d, _, _, _, rfl, hsub, guardsResidue_fieldPairChecks fun hp => toNat_emod_lt hp _⟩
  case fmul d a b =>
    obtain ⟨-, -, hmul⟩ := faddFsubFmulComputeModuloP s d a b
    exact ⟨d, _, _, _, rfl, hmul, guardsResidue_fieldPairChecks (Nat.mod_lt _)⟩
  case fneg d a =>
    exact ⟨d, _, _, _, rfl, fnegNegatesModuloP s d a, guardsResidue_fieldChecks fun hp => toNat_emod_lt hp _⟩
  case finv d a =>
    obtain ⟨hinv, -⟩ := finvInvertsModuloP s d a
    exact ⟨d, _, _, _, rfl, hinv, (guardsResidue_fieldChecks (Nat.mod_lt _)).append (by simp)⟩
  case fdiv d a b =>
    exact ⟨d, _, _, _, rfl, fdivDividesModuloP s d a b,
      (guardsResidue_fieldPairChecks (Nat.mod_lt _)).append (by simp)⟩
  case fpow d a imm =>
    exact ⟨d, _, _, _, rfl, fpowRaisesToTheImmediate s d a imm, (guardsResidue_fieldChecks (Nat.mod_lt _)).cons (by simp)⟩
  case fred d hi lo c =>
    exact ⟨d, _, _, _, rfl, fredReducesDoubleWidth s d hi lo c, guardsResidue_fredChecks (Nat.mod_lt _)⟩
  all_goals simp [destination] at h

/-- Settles O30: a command that completes with CODE 0 has passed the checks that guard its residue, and has written it. -/
theorem fieldResultsStayInTheField : Obligations.FieldResultsStayInTheField := by
  unfold Obligations.FieldResultsStayInTheField
  intro i d s t hd hexec hcode
  obtain ⟨e, checks, v, tag, he, hout, hcodes, hlt⟩ := exec_eq_outcome_of_destination_f s (congrArg Prod.snd hd)
  obtain rfl : e = d := fReg_of_block_eq (he.symm.trans hd)
  obtain ⟨hall, rfl⟩ := outcome_of_code_zero hcodes (hout.symm.trans hexec) hcode
  exact withField_inField (hlt hall)

end Sys2Proof.Machine
end

section
/-! SUPPORT. The proofs of the statements about the point commands: each command is its checks in order and then the write
of a point whose coordinates are residues modulo the context's modulus; the affine and the Jacobian forms agree over a
prime modulus because both are one point of the plane over a field (spec/42_point.md R170 to R198). -/

namespace Sys2Proof.Machine

/-! ### Residues: what the arithmetic primitives compute (R133 to R137) -/

/-- `n` is the field value, below `p`, of the element `z` of the integers modulo `p`. -/
structure IsResidue (p n : Nat) (z : ZMod p) : Prop where
  lt : n < p
  cast_eq : (n : ZMod p) = z

section IsResidue

variable {p m n : Nat} {x y : ZMod p}

theorem IsResidue.of_lt (h : n < p) : IsResidue p n n := ⟨h, rfl⟩

theorem IsResidue.congr (hn : IsResidue p n x) (h : x = y) : IsResidue p n y := h ▸ hn

theorem IsResidue.pos (h : IsResidue p n x) : 0 < p := Nat.zero_lt_of_lt h.lt

theorem IsResidue.fadd (hm : IsResidue p m x) (hn : IsResidue p n y) : IsResidue p (fadd p m n) (x + y) :=
  ⟨fadd_lt hm.lt hn.lt, by rw [cast_fadd hm.lt hn.lt, hm.cast_eq, hn.cast_eq]⟩

theorem IsResidue.fsub (hm : IsResidue p m x) (hn : IsResidue p n y) : IsResidue p (fsub p m n) (x - y) :=
  ⟨fsub_lt hm.lt hn.lt.le, by rw [cast_fsub hm.lt hn.lt.le, hm.cast_eq, hn.cast_eq]⟩

theorem IsResidue.fmul (hm : IsResidue p m x) (hn : IsResidue p n y) : IsResidue p (fmul p m n) (x * y) :=
  ⟨fmul_lt hm.pos _ _, by rw [cast_fmul, hm.cast_eq, hn.cast_eq]⟩

theorem IsResidue.fmulSmall (c : Nat) (hn : IsResidue p n y) : IsResidue p (fmulSmall p c n) (c * y) :=
  ⟨fmulSmall_lt hn.pos _ _, by rw [cast_fmulSmall, hn.cast_eq]⟩

theorem IsResidue.fermat (hn : IsResidue p n y) : IsResidue p (n ^ (p - 2) % p) (y ^ (p - 2)) :=
  ⟨Nat.mod_lt _ hn.pos, by rw [ZMod.natCast_mod, Nat.cast_pow, hn.cast_eq]⟩

theorem IsResidue.unique (hm : IsResidue p m x) (hn : IsResidue p n x) : m = n :=
  (cast_inj hm.lt hn.lt).1 (hm.cast_eq.trans hn.cast_eq.symm)

theorem IsResidue.eq_zero_iff (hn : IsResidue p n y) : n = 0 ↔ y = 0 := by
  rw [← cast_eq_zero hn.lt, hn.cast_eq]

theorem IsResidue.ofNat_eq_ofInt {z : Int} (hn : IsResidue p n z) : BitVec.ofNat 256 n = BitVec.ofInt 256 (z % p) := by
  have hz : z % p = n := by
    have := Int.emod_nonneg z (Int.natCast_pos.2 hn.pos).ne'
    have := eq_residue hn.lt hn.cast_eq
    omega
  rw [hz, BitVec.ofInt_natCast]

end IsResidue

/-! ### The group-law primitives by the coordinates they compute (R175 to R181) -/

/-- The finite affine point value has these coordinates modulo `p`. -/
def AffPoint.HasCoords (p : Nat) (x y : ZMod p) : AffPoint → Prop
  | .inf => False
  | .pt a b => IsResidue p a x ∧ IsResidue p b y

/-- The Jacobian triple has these coordinates modulo `p`. -/
structure JacPoint.HasCoords (p : Nat) (x y z : ZMod p) (P : JacPoint) : Prop where
  resX : IsResidue p P.x x
  resY : IsResidue p P.y y
  resZ : IsResidue p P.z z

/-- Every coordinate of the triple is below `p` (R171). -/
def JacPoint.InField (p : Nat) (P : JacPoint) : Prop := P.HasCoords p P.x P.y P.z

/-- The affine point is the third point, reflected, of the line of this slope through `(x1, y1)` and a point of abscissa
`x2` (R175, R178). -/
def AffPoint.IsLineSum (p : Nat) (slope x1 y1 x2 : ZMod p) (R : AffPoint) : Prop :=
  R.HasCoords p (slope ^ 2 - x1 - x2) (slope * (x1 - (slope ^ 2 - x1 - x2)) - y1)

theorem JacPoint.HasCoords.inField {p : Nat} {x y z : ZMod p} {P : JacPoint} (h : P.HasCoords p x y z) : P.InField p :=
  ⟨.of_lt h.resX.lt, .of_lt h.resY.lt, .of_lt h.resZ.lt⟩

theorem AffPoint.HasCoords.exists_pt {p : Nat} {x y : ZMod p} {P : AffPoint} (h : P.HasCoords p x y) :
    ∃ a b, P = .pt a b ∧ IsResidue p a x ∧ IsResidue p b y := by
  cases P with
  | inf => exact h.elim
  | pt a b => exact ⟨a, b, rfl, h⟩

theorem AffPoint.HasCoords.unique {p : Nat} {x y : ZMod p} {P Q : AffPoint} (hP : P.HasCoords p x y)
    (hQ : Q.HasCoords p x y) : P = Q := by
  obtain ⟨a, b, rfl, ha, hb⟩ := hP.exists_pt
  obtain ⟨c, d, rfl, hc, hd⟩ := hQ.exists_pt
  rw [ha.unique hc, hb.unique hd]

section Primitives

variable {p a x1 y1 x2 y2 : Nat} {P Q R : JacPoint}

/-- The denominator of the tangent's slope. -/
theorem fadd_self {y : Nat} (hy : y < p) : fadd p y y = 2 * y % p := by rw [fadd_eq hy hy, two_mul]

/-- What the affine doubler can do to a finite point (R178). -/
theorem affDbl_pt_cases (hp : p < 2 ^ 256) (ha : a < p) (hx : x1 < p) (hy : y1 < p) :
    (2 * y1 % p = 0 ∧ affDbl p a (.pt x1 y1) = .error .noInverse)
      ∨ (2 * y1 % p ≠ 0 ∧ ∃ S, affDbl p a (.pt x1 y1) = .ok S
        ∧ S.IsLineSum p ((3 * x1 ^ 2 + a) * (2 * y1) ^ (p - 2)) x1 y1 x1) := by
  have rx := IsResidue.of_lt hx
  have ry := IsResidue.of_lt hy
  rcases finv_cases (b := fadd p y1 y1) hp with ⟨h0, hinv⟩ | ⟨h0, hinv⟩
  · exact .inl ⟨fadd_self hy ▸ h0, by simp only [affDbl, hinv]; rfl⟩
  · refine .inr ⟨fadd_self hy ▸ h0, _, by simp only [affDbl, hinv]; rfl, ?_⟩
    have hslope := (((rx.fmul rx).fmulSmall 3).fadd (.of_lt ha)).fmul (ry.fadd ry).fermat
    have hxR := (hslope.fmul hslope).fsub (rx.fadd rx)
    have hyR := (hslope.fmul (rx.fsub hxR)).fsub ry
    exact ⟨hxR.congr (by push_cast; ring), hyR.congr (by push_cast; ring)⟩

/-- What the affine adder can do to two finite points that are neither equal nor opposite (R175). -/
theorem affAdd_chord_cases (hp : p < 2 ^ 256) (hx1 : x1 < p) (hy1 : y1 < p) (hx2 : x2 < p) (hy2 : y2 < p)
    (heq : ¬ (x1 = x2 ∧ y1 = y2)) (hopp : ¬ (x1 = x2 ∧ fadd p y1 y2 = 0)) :
    (x1 = x2 ∧ affAdd p a (.pt x1 y1) (.pt x2 y2) = .error .noInverse)
      ∨ (x1 ≠ x2 ∧ ∃ S, affAdd p a (.pt x1 y1) (.pt x2 y2) = .ok S
        ∧ S.IsLineSum p ((y2 - y1) * (x2 - x1) ^ (p - 2)) x1 y1 x2) := by
  have rx1 := IsResidue.of_lt hx1
  have ry1 := IsResidue.of_lt hy1
  have rx2 := IsResidue.of_lt hx2
  have ry2 := IsResidue.of_lt hy2
  have hden : fsub p x2 x1 = 0 ↔ x1 = x2 := by
    rw [(rx2.fsub rx1).eq_zero_iff, sub_eq_zero, eq_comm, cast_inj hx1 hx2]
  rcases finv_cases (b := fsub p x2 x1) hp with ⟨h0, hinv⟩ | ⟨h0, hinv⟩
  · exact .inl ⟨hden.1 h0, by simp only [affAdd, if_neg heq, if_neg hopp, hinv]; rfl⟩
  · refine .inr ⟨mt hden.2 h0, _, by simp only [affAdd, if_neg heq, if_neg hopp, hinv]; rfl, ?_⟩
    have hslope := (ry2.fsub ry1).fmul (rx2.fsub rx1).fermat
    have hxR := ((hslope.fmul hslope).fsub rx1).fsub rx2
    have hyR := (hslope.fmul (rx1.fsub hxR)).fsub ry1
    exact ⟨hxR.congr (by ring), hyR.congr (by ring)⟩

/-- A point plus itself (R175). -/
theorem affAdd_self (p a x y : Nat) : affAdd p a (.pt x y) (.pt x y) = affDbl p a (.pt x y) := if_pos ⟨rfl, rfl⟩

/-- A point plus its opposite (R175). -/
theorem affAdd_opposite (hx : x1 = x2) (hy : y1 ≠ y2) (hsum : fadd p y1 y2 = 0) :
    affAdd p a (.pt x1 y1) (.pt x2 y2) = .ok .inf := by
  rw [affAdd, if_neg fun h => hy h.2, if_pos ⟨hx, hsum⟩]

/-- The Jacobian doubler rejects `Y = 0` (R179). -/
theorem jacDbl_of_y_zero (h : P.y = 0) : jacDbl p a P = .error .selfNegationDouble := by simp [jacDbl, h]

/-- The Jacobian doubler's formula (R179). -/
theorem jacDbl_of_y_ne_zero (ha : a < p) (hP : P.InField p) (hy : P.y ≠ 0) :
    let m : ZMod p := 3 * P.x ^ 2 + a * P.z ^ 4
    let x3 : ZMod p := m ^ 2 - 8 * (P.x * P.y ^ 2)
    ∃ R, jacDbl p a P = .ok R
      ∧ R.HasCoords p x3 (m * (4 * (P.x * P.y ^ 2) - x3) - 8 * P.y ^ 4) (2 * P.y * P.z) := by
  intro m x3
  obtain ⟨rx, ry, rz⟩ := hP
  refine ⟨_, by rw [jacDbl, if_neg hy], ?_⟩
  have hD := ((rx.fmul rx).fmulSmall 3).fadd
    ((IsResidue.of_lt ha).fmul ((rz.fmul rz).fmul (rz.fmul rz)))
  have hS := rx.fmul (ry.fmul ry)
  have hxR := (hD.fmul hD).fsub (hS.fmulSmall 8)
  have hyR := (hD.fmul ((hS.fmulSmall 4).fsub hxR)).fsub (((ry.fmul ry).fmul (ry.fmul ry)).fmulSmall 8)
  have hzR := (ry.fmulSmall 2).fmul rz
  exact ⟨hxR.congr (by push_cast; ring), hyR.congr (by push_cast; ring), hzR.congr (by push_cast; ring)⟩

/-- What the mixed adder can do where its preconditions hold (R176, R177). -/
theorem jacMAdd_cases (hP : P.InField p) (hQ : Q.InField p) (hz1 : P.z ≠ 0) (hz2 : Q.z = 1) :
    let e : ZMod p := Q.x * P.z ^ 2 - P.x
    let f : ZMod p := Q.y * P.z ^ 3 - P.y
    let x3 : ZMod p := f ^ 2 - e ^ 3 - 2 * P.x * e ^ 2
    (e = 0 ∧ jacMAdd p P Q = .error .degenerateAdd)
      ∨ (e ≠ 0 ∧ ∃ R, jacMAdd p P Q = .ok R
        ∧ R.HasCoords p x3 (f * (P.x * e ^ 2 - x3) - P.y * e ^ 3) (P.z * e)) := by
  intro e f x3
  obtain ⟨rx1, ry1, rz1⟩ := hP
  obtain ⟨rx2, ry2, -⟩ := hQ
  have hA := rz1.fmul rz1
  have hE : IsResidue p _ e := ((rx2.fmul hA).fsub rx1).congr (by ring)
  have hF : IsResidue p _ f := ((ry2.fmul (rz1.fmul hA)).fsub ry1).congr (by ring)
  have hpre : ¬ (P.z = 0 ∨ Q.z ≠ 1) := by simp [hz1, hz2]
  by_cases he : e = 0
  · exact .inl ⟨he, by simp only [jacMAdd, if_neg hpre, if_pos (hE.eq_zero_iff.2 he)]⟩
  · refine .inr ⟨he, _, by simp only [jacMAdd, if_neg hpre, if_neg (mt hE.eq_zero_iff.1 he)]; rfl, ?_⟩
    have hG := hE.fmul hE
    have hH := hG.fmul hE
    have hI := rx1.fmul hG
    have hxR := ((hF.fmul hF).fsub hH).fsub (hI.fadd hI)
    have hyR := (hF.fmul (hI.fsub hxR)).fsub (ry1.fmul hH)
    exact ⟨hxR.congr (by ring), hyR.congr (by ring), rz1.fmul hE⟩

/-- The mixed adder's preconditions (R176). -/
theorem jacMAdd_of_precondition (h : ¬ (P.z ≠ 0 ∧ Q.z = 1)) : jacMAdd p P Q = .error .mixedAddPrecondition := by
  rw [jacMAdd, if_pos (by tauto)]

end Primitives

/-- What the Jacobian doubler returns (R179). -/
theorem hasCoords_of_jacDbl {p a : Nat} {P R : JacPoint} (ha : a < p) (hP : P.InField p) (h : jacDbl p a P = .ok R) :
    let m : ZMod p := 3 * P.x ^ 2 + a * P.z ^ 4
    let x3 : ZMod p := m ^ 2 - 8 * (P.x * P.y ^ 2)
    P.y ≠ 0 ∧ R.HasCoords p x3 (m * (4 * (P.x * P.y ^ 2) - x3) - 8 * P.y ^ 4) (2 * P.y * P.z) := by
  have hy : P.y ≠ 0 := fun h0 => by simp [jacDbl_of_y_zero h0] at h
  obtain ⟨R', hR', hcoords⟩ := jacDbl_of_y_ne_zero ha hP hy
  obtain rfl := Except.ok.inj (hR'.symm.trans h)
  exact ⟨hy, hcoords⟩

/-- What the mixed adder returns, and on which operands (R176, R177). -/
theorem hasCoords_of_jacMAdd {p : Nat} {P Q R : JacPoint} (hP : P.InField p) (hQ : Q.InField p)
    (h : jacMAdd p P Q = .ok R) :
    let e : ZMod p := Q.x * P.z ^ 2 - P.x
    let f : ZMod p := Q.y * P.z ^ 3 - P.y
    let x3 : ZMod p := f ^ 2 - e ^ 3 - 2 * P.x * e ^ 2
    P.z ≠ 0 ∧ Q.z = 1 ∧ e ≠ 0 ∧ R.HasCoords p x3 (f * (P.x * e ^ 2 - x3) - P.y * e ^ 3) (P.z * e) := by
  obtain ⟨hz1, hz2⟩ : P.z ≠ 0 ∧ Q.z = 1 := by
    by_contra hpre
    simp [jacMAdd_of_precondition hpre] at h
  rcases jacMAdd_cases hP hQ hz1 hz2 with ⟨-, h'⟩ | ⟨he, R', hR', hcoords⟩
  · simp [h'] at h
  · obtain rfl := Except.ok.inj (hR'.symm.trans h)
    exact ⟨hz1, hz2, he, hcoords⟩

theorem ne_jacInf_of_z_ne_zero {P : JacPoint} (h : P.z ≠ 0) : P ≠ jacInf := fun e => h (e ▸ rfl)

theorem fmul_fmul_self (p n z : Nat) : fmul p n (fmul p z z) = n * z ^ 2 % p := by
  rw [fmul, fmul, Nat.mul_mod_mod, sq]

theorem fmul_cube (p n z : Nat) : fmul p n (fmul p (fmul p z z) z) = n * z ^ 3 % p := by
  rw [fmul, fmul, fmul, Nat.mod_mul_mod, Nat.mul_mod_mod, ← sq, ← pow_succ]

/-- What the conversion to affine form can do (R181). -/
theorem toAff_cases {p : Nat} (hp : p < 2 ^ 256) (P : JacPoint) :
    (P = jacInf ∧ toAff p P = .ok .inf)
      ∨ (P ≠ jacInf ∧ P.z = 0 ∧ toAff p P = .error .noInverse)
      ∨ (P.z = 1 ∧ toAff p P = .ok (.pt P.x P.y))
      ∨ (P.z ≠ 0 ∧ P.z ≠ 1 ∧ toAff p P
          = .ok (.pt (P.x * (P.z ^ (p - 2) % p) ^ 2 % p) (P.y * (P.z ^ (p - 2) % p) ^ 3 % p))) := by
  by_cases hinf : P = jacInf
  · exact .inl ⟨hinf, by rw [toAff, if_pos hinf]⟩
  by_cases h1 : P.z = 1
  · exact .inr (.inr (.inl ⟨h1, by rw [toAff, if_neg hinf, if_pos h1]⟩))
  rcases finv_cases (b := P.z) hp with ⟨h0, hinv⟩ | ⟨h0, hinv⟩
  · exact .inr (.inl ⟨hinf, h0, by rw [toAff, if_neg hinf, if_neg h1, hinv]; rfl⟩)
  · refine .inr (.inr (.inr ⟨h0, h1, ?_⟩))
    rw [toAff, if_neg hinf, if_neg h1, hinv]
    simp only [bind, Except.bind, pure, Except.pure, fmul_fmul_self, fmul_cube]

theorem toAff_of_z_one {p : Nat} {P : JacPoint} (h : P.z = 1) : toAff p P = .ok (.pt P.x P.y) := by
  rw [toAff, if_neg (ne_jacInf_of_z_ne_zero (by simp [h])), if_pos h]

/-! ### Over a prime modulus: Jacobian and affine computation agree (R182) -/

section Prime

variable {p a : Nat} [Fact p.Prime] {P Q R : JacPoint} {A B C D : AffPoint}

/-- The Fermat power of a non-zero element is its inverse (R136). -/
theorem pow_sub_two_eq_inv {b : ZMod p} (hb : b ≠ 0) : b ^ (p - 2) = b⁻¹ := by
  have h2 : 2 ≤ p := (Fact.out : p.Prime).two_le
  refine eq_inv_of_mul_eq_one_left ?_
  rw [← pow_succ, show p - 2 + 1 = p - 1 by omega, ZMod.pow_card_sub_one_eq_one hb]

/-- What the conversion returns: infinity of `(1, 1, 0)`, and otherwise `(X / Z², Y / Z³)` (R181). -/
theorem toAff_eq_ok_cases (hp : p < 2 ^ 256) (hP : P.InField p) (h : toAff p P = .ok A) :
    (P = jacInf ∧ A = .inf) ∨ ((P.z : ZMod p) ≠ 0 ∧ A.HasCoords p (P.x / P.z ^ 2) (P.y / P.z ^ 3)) := by
  obtain ⟨rx, ry, rz⟩ := hP
  rcases toAff_cases hp P with ⟨hinf, e⟩ | ⟨-, -, e⟩ | ⟨h1, e⟩ | ⟨h0, -, e⟩ <;> rw [e] at h
  · exact .inl ⟨hinf, (Except.ok.inj h).symm⟩
  · exact absurd h (by simp)
  · obtain rfl := Except.ok.inj h
    exact .inr ⟨by simp [h1], rx.congr (by simp [h1]), ry.congr (by simp [h1])⟩
  · obtain rfl := Except.ok.inj h
    have hz : (P.z : ZMod p) ≠ 0 := mt rz.eq_zero_iff.2 h0
    refine .inr ⟨hz, ⟨Nat.mod_lt _ rx.pos, ?_⟩, ⟨Nat.mod_lt _ rx.pos, ?_⟩⟩ <;>
      simp [pow_sub_two_eq_inv hz, div_eq_mul_inv]

/-- The triple `(1, 1, 0)` is what these coordinates name. -/
theorem eq_jacInf (h : P.HasCoords p 1 1 0) : P = jacInf := by
  have one_lt : 1 < p := (Fact.out : p.Prime).one_lt
  have r1 : IsResidue p 1 1 := ⟨one_lt, Nat.cast_one⟩
  obtain ⟨x, y, z⟩ := P
  obtain ⟨hx, hy, hz⟩ := h
  obtain rfl := hx.unique r1
  obtain rfl := hy.unique r1
  obtain rfl := hz.eq_zero_iff.2 rfl
  rfl

theorem hasCoords_of_toAff (hp : p < 2 ^ 256) (hP : P.InField p) (hz : (P.z : ZMod p) ≠ 0) (h : toAff p P = .ok A) :
    A.HasCoords p (P.x / P.z ^ 2) (P.y / P.z ^ 3) := by
  rcases toAff_eq_ok_cases hp hP h with ⟨rfl, -⟩ | ⟨-, hA⟩
  · exact absurd Nat.cast_zero hz
  · exact hA

/-- The tangent's slope over a field (R178). -/
theorem isLineSum_of_affDbl {x y : Nat} (hp : p < 2 ^ 256) (ha : a < p) (hx : x < p) (hy : y < p)
    (h : affDbl p a (.pt x y) = .ok A) :
    (2 * y : ZMod p) ≠ 0 ∧ A.IsLineSum p ((3 * x ^ 2 + a) / (2 * y)) x y x := by
  rcases affDbl_pt_cases hp ha hx hy with ⟨-, e⟩ | ⟨h2y, S, e, hS⟩ <;> rw [e] at h
  · exact absurd h (by simp)
  · obtain rfl := Except.ok.inj h
    have hden : IsResidue p (2 * y % p) (2 * y) := ⟨Nat.mod_lt _ (by omega), by rw [ZMod.natCast_mod]; push_cast; rfl⟩
    have hne : (2 * y : ZMod p) ≠ 0 := mt hden.eq_zero_iff.2 h2y
    exact ⟨hne, by rwa [pow_sub_two_eq_inv hne, ← div_eq_mul_inv] at hS⟩

/-- The chord's slope over a field (R175). -/
theorem isLineSum_of_affAdd {x1 y1 x2 y2 : Nat} (hp : p < 2 ^ 256) (hx1 : x1 < p) (hy1 : y1 < p) (hx2 : x2 < p)
    (hy2 : y2 < p) (hne : (x2 - x1 : ZMod p) ≠ 0) (h : affAdd p a (.pt x1 y1) (.pt x2 y2) = .ok A) :
    A.IsLineSum p ((y2 - y1) / (x2 - x1)) x1 y1 x2 := by
  have hx : x1 ≠ x2 := fun e => hne (by rw [e, sub_self])
  rcases affAdd_chord_cases (a := a) hp hx1 hy1 hx2 hy2 (fun e => hx e.1) fun e => hx e.1 with
    ⟨e, -⟩ | ⟨-, S, e, hS⟩
  · exact absurd e hx
  · obtain rfl := Except.ok.inj (h.symm.trans e)
    rwa [pow_sub_two_eq_inv hne, ← div_eq_mul_inv] at hS

/-- Doubling in Jacobian form and converting is converting and doubling (R182): the tangent's slope at the converted point
is `m` over the `Z` of the doubled one. -/
theorem toAff_jacDbl (hp : p < 2 ^ 256) (ha : a < p) (hP : P.InField p) (hR : jacDbl p a P = .ok R)
    (hA : toAff p R = .ok A) (hB : toAff p P = .ok B) (hC : affDbl p a B = .ok C) : C = A := by
  obtain ⟨hy, hcoords⟩ := hasCoords_of_jacDbl ha hP hR
  rcases toAff_eq_ok_cases hp hP hB with ⟨rfl, rfl⟩ | ⟨hz, hBcoords⟩
  · obtain ⟨rx, ry, rz⟩ := hcoords
    obtain rfl : R = jacInf := eq_jacInf
      ⟨rx.congr (by norm_num [jacInf]), ry.congr (by norm_num [jacInf]), rz.congr (by norm_num [jacInf])⟩
    obtain rfl := Except.ok.inj (hA.symm.trans hB)
    exact (Except.ok.inj hC).symm
  · obtain ⟨x, y, rfl, ⟨hx, cx⟩, ⟨hy', cy⟩⟩ := hBcoords.exists_pt
    obtain ⟨h2y, hline⟩ := isLineSum_of_affDbl hp ha hx hy' hC
    have h2 : (2 : ZMod p) ≠ 0 := left_ne_zero_of_mul h2y
    have hY : (P.y : ZMod p) ≠ 0 := mt hP.resY.eq_zero_iff.2 hy
    have hslope : (3 * (x : ZMod p) ^ 2 + a) / (2 * y) = (3 * P.x ^ 2 + a * P.z ^ 4) / (2 * P.y * P.z) := by
      rw [cx, cy]; field_simp
    have hRin := hcoords.inField
    obtain ⟨⟨-, rx⟩, ⟨-, ry⟩, ⟨-, rz⟩⟩ := hcoords
    have hAcoords := hasCoords_of_toAff hp hRin (rz ▸ mul_ne_zero (mul_ne_zero h2 hY) hz) hA
    rw [rx, ry, rz] at hAcoords
    rw [hslope, cx, cy, AffPoint.IsLineSum] at hline
    refine hline.unique ?_
    convert hAcoords using 1 <;> field_simp <;> ring

/-- Mixed addition and converting is converting and affine addition (R182): the chord's slope at the converted points is
`f` over the `Z` of the sum. -/
theorem toAff_jacMAdd (hp : p < 2 ^ 256) (hP : P.InField p) (hQ : Q.InField p) (hR : jacMAdd p P Q = .ok R)
    (hA : toAff p R = .ok A) (hB : toAff p P = .ok B) (hC : toAff p Q = .ok C) (hD : affAdd p a B C = .ok D) :
    D = A := by
  obtain ⟨hz1, hz2, he, hcoords⟩ := hasCoords_of_jacMAdd hP hQ hR
  obtain rfl := Except.ok.inj (hC.symm.trans (toAff_of_z_one hz2))
  have hz : (P.z : ZMod p) ≠ 0 := mt hP.resZ.eq_zero_iff.2 hz1
  obtain ⟨x, y, rfl, ⟨hx, cx⟩, ⟨hy, cy⟩⟩ := (hasCoords_of_toAff hp hP hz hB).exists_pt
  have hdx : (Q.x - x : ZMod p) ≠ 0 := by
    intro h
    rw [sub_eq_zero.1 h, cx] at he
    exact he (by field_simp; ring)
  have hline := isLineSum_of_affAdd hp hx hy hQ.resX.lt hQ.resY.lt hdx hD
  have hRin := hcoords.inField
  obtain ⟨⟨-, rx⟩, ⟨-, ry⟩, ⟨-, rz⟩⟩ := hcoords
  have hAcoords := hasCoords_of_toAff hp hRin (rz ▸ mul_ne_zero hz he) hA
  rw [rx, ry, rz] at hAcoords
  generalize hedef : (Q.x * P.z ^ 2 - P.x : ZMod p) = e at he hAcoords
  generalize hfdef : (Q.y * P.z ^ 3 - P.y : ZMod p) = f at hAcoords
  have hqx : (Q.x : ZMod p) = (P.x + e) / P.z ^ 2 := by rw [← hedef]; field_simp; ring
  have hqy : (Q.y : ZMod p) = (P.y + f) / P.z ^ 3 := by rw [← hfdef]; field_simp; ring
  have hslope : (Q.y - y : ZMod p) / (Q.x - x) = f / (P.z * e) := by
    rw [div_eq_div_iff hdx (mul_ne_zero hz he), cx, cy, hqx, hqy]; field_simp; ring
  rw [hslope, cx, cy, hqx, AffPoint.IsLineSum] at hline
  refine hline.unique ?_
  convert hAcoords using 1 <;> field_simp <;> ring

end Prime

/-! ### A point command as the outcome of its checks (R282) -/

theorem State.ptMod_lt (s : State) (a : PReg) : s.ptMod a < 2 ^ 256 := BitVec.isLt _

/-- Points of one curve have one modulus, where a domain id stands for the ROM's values (R172). -/
theorem ptMod_eq_of_sameCurve {s : State} {a b : PReg} (h : s.domainsHoldRom)
    (hc : s.sameCurve (s.readPt a).tag (s.readPt b).tag) : s.ptMod b = s.ptMod a := by
  rcases hc with heq | ⟨hne, hdom⟩ | ⟨hp, -⟩
  · rw [State.ptMod, State.ptMod, heq]
  · obtain ⟨-, hpa, -⟩ := h _ hne
    obtain ⟨-, hpb, -⟩ := h _ (hdom ▸ hne)
    rw [State.ptMod, State.ptMod, hpa, hpb]
  · rw [State.ptMod, State.ptMod, hp]

theorem PointReg.affVal_of_inf {r : PointReg} (h : r.inf = true) : r.affVal = .inf := if_pos h

theorem PointReg.affVal_of_finite {r : PointReg} (h : ¬ r.inf = true) : r.affVal = .pt r.x.toNat r.y.toNat := if_neg h

@[simp] theorem PointReg.jacVal_x (r : PointReg) : r.jacVal.x = r.x.toNat := rfl
@[simp] theorem PointReg.jacVal_y (r : PointReg) : r.jacVal.y = r.y.toNat := rfl
@[simp] theorem PointReg.jacVal_z (r : PointReg) : r.jacVal.z = r.z.toNat := rfl

theorem PointReg.jacVal_eq_jacInf {r : PointReg} : r.jacVal = jacInf ↔ r.x = 1 ∧ r.y = 1 ∧ r.z = 0 := by
  simp [PointReg.jacVal, jacInf, ← BitVec.toNat_inj]

theorem toNat_eq_one_iff {v : Value} : v.toNat = 1 ↔ v = 1 := by simp [← BitVec.toNat_inj]

theorem toNat_eq_zero_iff {v : Value} : v.toNat = 0 ↔ v = 0 := by simp [← BitVec.toNat_inj]

/-- An accepted finite affine point has coordinates below the modulus (R171). -/
theorem State.coordsInField.affine {s : State} {a : PReg} (h : s.coordsInField a) (hinf : ¬ (s.readPt a).inf = true) :
    (s.readPt a).x.toNat < s.ptMod a ∧ (s.readPt a).y.toNat < s.ptMod a := by
  rcases h with ⟨-, h⟩ | ⟨hx, hy, -⟩
  · exact absurd h hinf
  · exact ⟨hx, hy⟩

/-- An accepted Jacobian point has coordinates below the modulus (R171). -/
theorem State.coordsInField.jacobian {s : State} {a : PReg} (h : s.coordsInField a)
    (hrep : (s.readPt a).rep = .jacobian) : (s.readPt a).jacVal.InField (s.ptMod a) := by
  simp only [State.coordsInField, hrep, reduceCtorEq, false_and, false_or] at h
  obtain ⟨hx, hy, hz⟩ := h
  exact ⟨.of_lt hx, .of_lt hy, .of_lt hz⟩

section Outcome

variable {s t : State} {a b : PReg} {k : Unit → Except Err State} {rest : List (Bool × BitVec 5)}

theorem finish_ensure_outcome {holds : Bool} {e : Err} (h : holds = true → s.finish (k ()) = s.outcome rest t) :
    s.finish (ensure holds e >>= k) = s.outcome ((holds, e.code) :: rest) t :=
  (finish_ensure_bind s holds e k).trans (ite_congr rfl h fun _ => rfl)

theorem finish_checkPt_outcome (h : s.coordsInField a → s.finish (k ()) = s.outcome rest t) :
    s.finish (s.checkPt (s.readPt a) >>= k) = s.outcome ((decide (s.coordsInField a), 3) :: rest) t :=
  (finish_checkPt_bind s a k).trans (ite_congr decide_eq_true_eq.symm (fun hc => h (of_decide_eq_true hc)) fun _ => rfl)

theorem finish_checkPoint_outcome
    (h : (s.readPt a).v = true → s.ctxReady (s.readPt a).tag → s.finish (k ()) = s.outcome rest t) :
    s.finish (s.checkPoint (s.readPt a) >>= k)
      = s.outcome (((s.readPt a).v, 17) :: (decide (s.ctxReady (s.readPt a).tag), 18) :: rest) t :=
  (finish_checkPoint_bind s _ k).trans (ite_congr rfl (fun hv => ite_congr decide_eq_true_eq.symm
    (fun hc => h hv (of_decide_eq_true hc)) fun _ => rfl) fun _ => rfl)

/-- A one-operand point command with no check of its operand's representation is the outcome of its operand checks and of
the checks its computation makes (R196). -/
theorem finish_point_outcome (h : s.pointReady a → s.finish (k ()) = s.outcome rest t) :
    s.finish (s.checkPoint (s.readPt a) >>= fun _ => s.checkPt (s.readPt a) >>= k)
      = s.outcome (s.pointChecks a [] ++ rest) t :=
  finish_checkPoint_outcome fun hv hctx => finish_checkPt_outcome fun hc => h ⟨hv, hctx, hc⟩

/-- As `finish_point_outcome`, for a command of one representation (R192, R197, R198). -/
theorem finish_pointOfRep_outcome {rep : Rep} {e : Err}
    (h : s.pointReady a → (s.readPt a).rep = rep → s.finish (k ()) = s.outcome rest t) :
    s.finish (s.checkPoint (s.readPt a) >>= fun _ =>
        ensure ((s.readPt a).rep == rep) e >>= fun _ => s.checkPt (s.readPt a) >>= k)
      = s.outcome (s.pointChecks a [(decide ((s.readPt a).rep = rep), e.code)] ++ rest) t :=
  finish_checkPoint_outcome fun hv hctx => finish_ensure_outcome fun hrep => finish_checkPt_outcome fun hc =>
    h ⟨hv, hctx, hc⟩ (of_decide_eq_true hrep)

/-- As `finish_point_outcome`, for a two-operand point command (R194, R195). -/
theorem finish_pointPair_outcome (h : s.pointsReady a b → s.finish (k ()) = s.outcome rest t) :
    s.finish (s.checkPointPair (s.readPt a) (s.readPt b) >>= k) = s.outcome (s.pointPairChecks a b ++ rest) t := by
  rw [finish_checkPointPair_bind]
  refine ite_congr rfl (fun hv => ite_congr rfl (fun hctx => ite_congr decide_eq_true_eq.symm (fun hcurve =>
    ite_congr decide_eq_true_eq.symm (fun hrep => ite_congr rfl (fun hc => ?_) fun _ => rfl) fun _ => rfl) fun _ => rfl)
    fun _ => rfl) fun _ => rfl
  simp only [Bool.and_eq_true, decide_eq_true_eq] at hv hctx hcurve hrep hc
  exact h ⟨⟨hv.1, hctx.1, hc.1⟩, ⟨hv.2, hctx.2, hc.2⟩, hcurve, hrep⟩

/-- Where the last step is the write of `PT[d]`, no check is left. -/
theorem finish_pure_outcome {u : State} (h : u = t) : s.finish (pure u) = s.outcome [] t := h ▸ rfl

end Outcome

/-! ### Destination writes (R183) -/

/-- The third point of a line is written as its residues. -/
theorem writeAff_of_isLineSum {p : Nat} {slope x1 y1 x2 : Int} {R : AffPoint} (s : State) (d : PReg) (tag : CReg)
    (h : R.IsLineSum p slope x1 y1 x2) : s.writeAff d R tag = s.withLineSum d p slope x1 y1 x2 tag := by
  obtain ⟨x, y, rfl, hx, hy⟩ := AffPoint.HasCoords.exists_pt h
  have hx' : IsResidue p x ((slope ^ 2 - x1 - x2 : Int) : ZMod p) := hx.congr (by push_cast; rfl)
  have hy' : IsResidue p y ((slope * (x1 - (slope ^ 2 - x1 - x2) % p) - y1 : Int) : ZMod p) :=
    hy.congr (by push_cast [ZMod.intCast_mod]; rfl)
  simp only [State.writeAff, State.withLineSum, State.writePt, hx'.ofNat_eq_ofInt, hy'.ofNat_eq_ofInt]

/-- A Jacobian triple is written as its residues. -/
theorem writeJac_of_hasCoords {p : Nat} {x y z : Int} {R : JacPoint} (s : State) (d : PReg) (tag : CReg)
    (h : R.HasCoords p x y z) : s.writeJac d R tag = s.withResidues d p x y z tag := by
  obtain ⟨hx, hy, hz⟩ := h
  simp only [State.writeJac, State.withResidues, State.writePt, hx.ofNat_eq_ofInt, hy.ofNat_eq_ofInt,
    hz.ofNat_eq_ofInt]

/-! ### The commands (R190 to R198) -/

/-- Settles O38: the one check is that of the context. -/
theorem pinfLoadsInfinity : Obligations.PinfLoadsInfinity := by
  unfold Obligations.PinfLoadsInfinity
  intro s d c
  change execPinf d c s = _
  simp only [execPinf, State.checkCtx, finish_ensure_bind, usable_iff, State.outcome, decide_eq_true_eq]
  rfl

/-- Settles O39: each pair of checks of one code is one check. -/
theorem pmakeBuildsAnAffinePoint : Obligations.PmakeBuildsAnAffinePoint := by
  unfold Obligations.PmakeBuildsAnAffinePoint
  intro s d x y c
  change execPmake d x y c s = _
  simp only [execPmake, checkV, State.checkCtx, finish_ensure_bind, finish_checkVal_bind, usable_iff, State.outcome,
    Bool.and_eq_true, beq_iff_eq, decide_eq_true_eq, ite_and]
  rfl

/-- Settles O40: the subtractor takes `y` from 0. -/
theorem pnegNegatesAffinePoints : Obligations.PnegNegatesAffinePoints := by
  unfold Obligations.PnegNegatesAffinePoints
  intro s d a
  refine finish_pointOfRep_outcome (rest := []) fun ⟨_, _, hc⟩ _ => finish_pure_outcome ?_
  split
  · next hinf => rw [PointReg.affVal_of_inf hinf]; rfl
  · next hinf =>
    obtain ⟨-, hy⟩ := hc.affine hinf
    have hneg := fsub_eq_residue (Nat.zero_lt_of_lt hy) hy.le
    rw [Nat.cast_zero, zero_sub] at hneg
    rw [PointReg.affVal_of_finite hinf, ← hneg]; rfl

/-- The affine comparison on registers (R193). -/
theorem affEq_affVal (r q : PointReg) :
    affEq r.affVal q.affVal
      = ((r.inf && q.inf) || (!r.inf && !q.inf && decide (r.x = q.x) && decide (r.y = q.y))) := by
  cases hr : r.inf <;> cases hq : q.inf <;> simp [affEq, PointReg.affVal, hr, hq, BitVec.toNat_inj, beq_eq_decide]

/-- The Jacobian comparison on registers (R193). -/
theorem jacEq_jacVal (r q : PointReg) :
    jacEq r.jacVal q.jacVal = (decide (r.x = q.x) && decide (r.y = q.y) && decide (r.z = q.z)) := by
  simp [jacEq, PointReg.jacVal, BitVec.toNat_inj, beq_eq_decide, Bool.and_assoc]

/-- Settles O41: equal values of one representation are equal fields of the registers. -/
theorem peqComparesRawValues : Obligations.PeqComparesRawValues := by
  unfold Obligations.PeqComparesRawValues
  intro s a b
  refine finish_pointPair_outcome (rest := []) fun ⟨_, _, _, _⟩ => finish_pure_outcome ?_
  cases hrep : (s.readPt a).rep with
  | affine => simp only [ptEq, hrep, affEq_affVal]
  | jacobian => simp only [ptEq, hrep, jacEq_jacVal]

/-- Settles O45: the conversion is total. -/
theorem ptojConvertsToJacobian : Obligations.PtojConvertsToJacobian := by
  unfold Obligations.PtojConvertsToJacobian
  intro s d a
  refine finish_pointOfRep_outcome (rest := []) fun _ _ => finish_pure_outcome ?_
  split
  · next hinf => rw [PointReg.affVal_of_inf hinf]; rfl
  · next hinf => rw [PointReg.affVal_of_finite hinf]; rfl

/-! ### The commands with a formula behind their checks (R195, R196, R198) -/

section Formulas

variable {s : State} {d a b : PReg} {p c : Nat} {tag : CReg}

/-- PADD of affine points is its operand checks and then the affine adder (R195). -/
theorem exec_padd_of_affine (hrep : (s.readPt a).rep = .affine) :
    exec (.padd d a b) s = s.finish (s.checkPointPair (s.readPt a) (s.readPt b) >>= fun _ =>
      affAdd (s.ptMod a) (s.ptCoeffA a) (s.readPt a).affVal (s.readPt b).affVal >>= fun R =>
      pure (s.writeAff d R (s.readPt a).tag)) := by
  change execPadd d a b s = _
  simp only [execPadd, hrep]; rfl

/-- PADD of Jacobian points is its operand checks and then the mixed adder (R195). -/
theorem exec_padd_of_jacobian (hrep : (s.readPt a).rep = .jacobian) :
    exec (.padd d a b) s = s.finish (s.checkPointPair (s.readPt a) (s.readPt b) >>= fun _ =>
      jacMAdd (s.ptMod a) (s.readPt a).jacVal (s.readPt b).jacVal >>= fun R =>
      pure (s.writeJac d R (s.readPt a).tag)) := by
  change execPadd d a b s = _
  simp only [execPadd, hrep]; rfl

/-- PDBL of an affine point is its operand checks and then the affine doubler (R196). -/
theorem exec_pdbl_of_affine (hrep : (s.readPt a).rep = .affine) :
    exec (.pdbl d a) s = s.finish (s.checkPoint (s.readPt a) >>= fun _ => s.checkPt (s.readPt a) >>= fun _ =>
      affDbl (s.ptMod a) (s.ptCoeffA a) (s.readPt a).affVal >>= fun R =>
      pure (s.writeAff d R (s.readPt a).tag)) := by
  change execPdbl d a s = _
  simp only [execPdbl, hrep]; rfl

/-- PDBL of a Jacobian point is its operand checks and then the Jacobian doubler (R196). -/
theorem exec_pdbl_of_jacobian (hrep : (s.readPt a).rep = .jacobian) :
    exec (.pdbl d a) s = s.finish (s.checkPoint (s.readPt a) >>= fun _ => s.checkPt (s.readPt a) >>= fun _ =>
      jacDbl (s.ptMod a) (s.ptCoeffA a) (s.readPt a).jacVal >>= fun R =>
      pure (s.writeJac d R (s.readPt a).tag)) := by
  change execPdbl d a s = _
  simp only [execPdbl, hrep]; rfl

/-- The affine doubler is the check of its denominator and then the tangent (R178). -/
theorem finish_affDbl_outcome {x y : Nat} (hp : p < 2 ^ 256) (hc : c < p) (hx : x < p) (hy : y < p) :
    s.finish (affDbl p c (.pt x y) >>= fun R => pure (s.writeAff d R tag))
      = s.outcome [(decide (2 * y % p ≠ 0), 4)] (s.withLineSum d p (tangentSlope p c x y) x y x tag) := by
  rcases affDbl_pt_cases hp hc hx hy with ⟨h0, e⟩ | ⟨h0, R, e, hR⟩
  · rw [e, State.outcome, if_neg (by simp [h0])]; rfl
  · have hline : R.IsLineSum p ((tangentSlope p c x y : Int) : ZMod p) (x : Int) (y : Int) (x : Int) := by
      simpa [tangentSlope] using hR
    rw [e, State.outcome, if_pos (by simp [h0]), ← writeAff_of_isLineSum s d tag hline]; rfl

/-- The affine adder of points neither equal nor opposite is the check of its denominator and then the chord (R175). -/
theorem finish_affAdd_chord_outcome {x1 y1 x2 y2 : Nat} (hp : p < 2 ^ 256) (hx1 : x1 < p)
    (hy1 : y1 < p) (hx2 : x2 < p) (hy2 : y2 < p) (heq : ¬ (x1 = x2 ∧ y1 = y2))
    (hopp : ¬ (x1 = x2 ∧ fadd p y1 y2 = 0)) :
    s.finish (affAdd p c (.pt x1 y1) (.pt x2 y2) >>= fun R => pure (s.writeAff d R tag))
      = s.outcome [(decide (x1 ≠ x2), 4)] (s.withLineSum d p (chordSlope p x1 y1 x2 y2) x1 y1 x2 tag) := by
  rcases affAdd_chord_cases (a := c) hp hx1 hy1 hx2 hy2 heq hopp with ⟨h0, e⟩ | ⟨h0, R, e, hR⟩
  · rw [e, State.outcome, if_neg (by simp [h0])]; rfl
  · have hline : R.IsLineSum p ((chordSlope p x1 y1 x2 y2 : Int) : ZMod p) (x1 : Int) (y1 : Int) (x2 : Int) := by
      simpa [chordSlope] using hR
    rw [e, State.outcome, if_pos (by simp [h0]), ← writeAff_of_isLineSum s d tag hline]; rfl

/-- The mixed adder is the check of its preconditions, of the degenerate case, and then its formula (R176, R177). -/
theorem finish_jacMAdd_outcome {r q : PointReg} (hr : r.jacVal.InField p) (hq : q.jacVal.InField p) :
    let x1 : Int := r.x.toNat
    let y1 : Int := r.y.toNat
    let z1 : Int := r.z.toNat
    let e : Int := q.x.toNat * z1 ^ 2 - x1
    let f : Int := q.y.toNat * z1 ^ 3 - y1
    let x3 : Int := f ^ 2 - e ^ 3 - 2 * x1 * e ^ 2
    s.finish (jacMAdd p r.jacVal q.jacVal >>= fun R => pure (s.writeJac d R tag))
      = s.outcome [(decide (r.z ≠ 0 ∧ q.z = 1), 15), (decide (e % p ≠ 0), 14)]
          (s.withResidues d p x3 (f * (x1 * e ^ 2 - x3) - y1 * e ^ 3) (z1 * e) tag) := by
  intro x1 y1 z1 e f x3
  by_cases hpre : r.z ≠ 0 ∧ q.z = 1
  · have hz1 : r.jacVal.z ≠ 0 := mt toNat_eq_zero_iff.1 hpre.1
    have hz2 : q.jacVal.z = 1 := toNat_eq_one_iff.2 hpre.2
    have he : ((e : Int) : ZMod p) = q.jacVal.x * r.jacVal.z ^ 2 - r.jacVal.x := by simp [e, x1, z1]
    have hdvd : (e : ZMod p) = 0 ↔ e % p = 0 := by
      rw [ZMod.intCast_zmod_eq_zero_iff_dvd, Int.dvd_iff_emod_eq_zero]
    rw [State.outcome, if_pos (decide_eq_true hpre)]
    rcases jacMAdd_cases hr hq hz1 hz2 with ⟨h0, h⟩ | ⟨h0, R, h, hR⟩
    · rw [h, State.outcome, if_neg (by simpa using hdvd.1 (he.trans h0))]; rfl
    · have hcoords : R.HasCoords p (x3 : ZMod p) ((f * (x1 * e ^ 2 - x3) - y1 * e ^ 3 : Int) : ZMod p)
          ((z1 * e : Int) : ZMod p) := by
        simpa [x3, f, e, x1, y1, z1] using hR
      have hne : e % p ≠ 0 := mt hdvd.2 (he ▸ h0)
      rw [h, State.outcome, if_pos (decide_eq_true hne), ← writeJac_of_hasCoords s d tag hcoords]; rfl
  · have hval : ¬ (r.jacVal.z ≠ 0 ∧ q.jacVal.z = 1) :=
      fun h => hpre ⟨mt toNat_eq_zero_iff.2 h.1, toNat_eq_one_iff.1 h.2⟩
    rw [State.outcome, if_neg (by simpa using hpre), jacMAdd_of_precondition hval]; rfl

/-- The Jacobian doubler is the check of `Y` and then its formula (R179). -/
theorem finish_jacDbl_outcome {r : PointReg} (hc : c < p) (hr : r.jacVal.InField p) :
    let x : Int := r.x.toNat
    let y : Int := r.y.toNat
    let z : Int := r.z.toNat
    let m : Int := 3 * x ^ 2 + c * z ^ 4
    let x3 : Int := m ^ 2 - 8 * (x * y ^ 2)
    s.finish (jacDbl p c r.jacVal >>= fun R => pure (s.writeJac d R tag))
      = s.outcome [(decide (r.y ≠ 0), 8)]
          (s.withResidues d p x3 (m * (4 * (x * y ^ 2) - x3) - 8 * y ^ 4) (2 * y * z) tag) := by
  intro x y z m x3
  by_cases hy : r.y = 0
  · rw [State.outcome, if_neg (by simpa using hy), jacDbl_of_y_zero (P := r.jacVal) (toNat_eq_zero_iff.2 hy)]; rfl
  · obtain ⟨R, h, hR⟩ := jacDbl_of_y_ne_zero hc hr (mt toNat_eq_zero_iff.1 hy)
    have hcoords : R.HasCoords p (x3 : ZMod p) ((m * (4 * (x * y ^ 2) - x3) - 8 * y ^ 4 : Int) : ZMod p)
        ((2 * y * z : Int) : ZMod p) := by
      simpa [x3, m, x, y, z] using hR
    rw [h, State.outcome, if_pos (by simpa using hy), ← writeJac_of_hasCoords s d tag hcoords]; rfl

/-- The conversion to affine form is the check of `Z` and then its value (R181). -/
theorem finish_toAff_outcome {r : PointReg} (hp : p < 2 ^ 256) :
    let zi := r.z.toNat ^ (p - 2) % p
    s.finish (toAff p r.jacVal >>= fun R => pure (s.writeAff d R tag))
      = s.outcome [(decide ((r.x = 1 ∧ r.y = 1 ∧ r.z = 0) ∨ r.z ≠ 0), 4)]
          (if r.x = 1 ∧ r.y = 1 ∧ r.z = 0 then s.withInfinity d tag
          else if r.z = 1 then s.withAffine d r.x.toNat r.y.toNat tag
          else s.withAffine d (r.x.toNat * zi ^ 2 % p) (r.y.toNat * zi ^ 3 % p) tag) := by
  intro zi
  have hcheck (hz : r.z ≠ 0) : decide ((r.x = 1 ∧ r.y = 1 ∧ r.z = 0) ∨ r.z ≠ 0) = true := decide_eq_true (.inr hz)
  have hfin (hz : r.z ≠ 0) : ¬ (r.x = 1 ∧ r.y = 1 ∧ r.z = 0) := fun ⟨_, _, h⟩ => hz h
  rcases toAff_cases hp r.jacVal with ⟨hinf, e⟩ | ⟨hinf, hz, e⟩ | ⟨h1, e⟩ | ⟨h0, h1, e⟩
  · have hr := PointReg.jacVal_eq_jacInf.1 hinf
    rw [State.outcome, if_pos (decide_eq_true (.inl hr)), if_pos hr, e]; rfl
  · have hr : ¬ ((r.x = 1 ∧ r.y = 1 ∧ r.z = 0) ∨ r.z ≠ 0) :=
      not_or.2 ⟨mt PointReg.jacVal_eq_jacInf.2 hinf, not_not.2 (toNat_eq_zero_iff.1 hz)⟩
    rw [State.outcome, if_neg (by simpa using hr), e]; rfl
  · have h1' : r.z = 1 := toNat_eq_one_iff.1 h1
    have hz : r.z ≠ 0 := by rw [h1']; decide
    rw [State.outcome, if_pos (hcheck hz), if_neg (hfin hz), if_pos h1', e]; rfl
  · have hz : r.z ≠ 0 := mt toNat_eq_zero_iff.2 h0
    rw [State.outcome, if_pos (hcheck hz), if_neg (hfin hz), if_neg (mt toNat_eq_one_iff.2 h1), e]; rfl

end Formulas

/-- Settles O42: the six cases of the affine adder, in its order. -/
theorem paddAddsAffinePoints : Obligations.PaddAddsAffinePoints := by
  unfold Obligations.PaddAddsAffinePoints
  intro s d a b hrom hrep r q p
  rw [exec_padd_of_affine hrep]
  split_ifs with hinf hr hq heq hopp
  · refine finish_pointPair_outcome (rest := []) fun _ => ?_
    rw [PointReg.affVal_of_inf hinf.1, PointReg.affVal_of_inf hinf.2]; rfl
  · refine finish_pointPair_outcome (rest := []) fun _ => ?_
    rw [PointReg.affVal_of_inf hr, PointReg.affVal_of_finite fun hq => hinf ⟨hr, hq⟩]; rfl
  · refine finish_pointPair_outcome (rest := []) fun _ => ?_
    rw [PointReg.affVal_of_finite hr, PointReg.affVal_of_inf hq]; rfl
  · obtain ⟨hx, hy⟩ := heq
    refine finish_pointPair_outcome fun ⟨⟨_, ⟨_, _, hA⟩, ha⟩, _⟩ => ?_
    obtain ⟨hx1, hy1⟩ := ha.affine hr
    rw [PointReg.affVal_of_finite hr, PointReg.affVal_of_finite hq, ← hx, ← hy, affAdd_self]
    exact finish_affDbl_outcome (s.ptMod_lt a) hA hx1 hy1
  · obtain ⟨hx, hsum⟩ := hopp
    refine finish_pointPair_outcome (rest := []) fun ⟨⟨_, _, ha⟩, ⟨_, _, hb⟩, hcurve, _⟩ => ?_
    obtain ⟨-, hy1⟩ := ha.affine hr
    obtain ⟨-, hy2⟩ := hb.affine hq
    rw [ptMod_eq_of_sameCurve hrom hcurve] at hy2
    rw [PointReg.affVal_of_finite hr, PointReg.affVal_of_finite hq,
      affAdd_opposite (congrArg _ hx) (fun hy => heq ⟨hx, BitVec.toNat_inj.1 hy⟩) ((fadd_eq hy1 hy2).trans hsum)]
    rfl
  · refine finish_pointPair_outcome fun ⟨⟨_, _, ha⟩, ⟨_, _, hb⟩, hcurve, _⟩ => ?_
    obtain ⟨hx1, hy1⟩ := ha.affine hr
    obtain ⟨hx2, hy2⟩ := hb.affine hq
    rw [ptMod_eq_of_sameCurve hrom hcurve] at hx2 hy2
    rw [PointReg.affVal_of_finite hr, PointReg.affVal_of_finite hq,
      finish_affAdd_chord_outcome (s.ptMod_lt a) hx1 hy1 hx2 hy2 (by simpa [BitVec.toNat_inj] using heq)
        (by simpa [BitVec.toNat_inj, fadd_eq hy1 hy2] using hopp)]
    simp only [ne_eq, BitVec.toNat_inj]; rfl

/-- Settles O43: the preconditions, the degenerate case, and the formula on residues. -/
theorem paddMixedAddsJacobianPoints : Obligations.PaddMixedAddsJacobianPoints := by
  unfold Obligations.PaddMixedAddsJacobianPoints
  intro s d a b hrom hrep
  rw [exec_padd_of_jacobian hrep]
  refine finish_pointPair_outcome fun ⟨⟨_, _, ha⟩, ⟨_, _, hb⟩, hcurve, hrepb⟩ => ?_
  have hQ := hb.jacobian (hrepb ▸ hrep)
  rw [ptMod_eq_of_sameCurve hrom hcurve] at hQ
  exact finish_jacMAdd_outcome (ha.jacobian hrep) hQ

/-- Settles O44: the tangent, or the Jacobian formula on residues. -/
theorem pdblDoublesPoints : Obligations.PdblDoublesPoints := by
  unfold Obligations.PdblDoublesPoints
  intro s d a r p x y z m x3
  cases hrep : r.rep with
  | affine =>
    rw [exec_pdbl_of_affine hrep]
    dsimp only
    split
    · next hinf =>
      refine finish_point_outcome (rest := []) fun _ => ?_
      rw [PointReg.affVal_of_inf hinf]; rfl
    · next hinf =>
      refine finish_point_outcome fun ⟨_, ⟨_, _, hA⟩, hc⟩ => ?_
      obtain ⟨hx, hy⟩ := hc.affine hinf
      rw [PointReg.affVal_of_finite hinf]
      exact finish_affDbl_outcome (s.ptMod_lt a) hA hx hy
  | jacobian =>
    rw [exec_pdbl_of_jacobian hrep]
    exact finish_point_outcome fun ⟨_, ⟨_, _, hA⟩, hc⟩ => finish_jacDbl_outcome hA (hc.jacobian hrep)

/-- Settles O46: the four cases of the conversion. -/
theorem ptoaConvertsToAffine : Obligations.PtoaConvertsToAffine := by
  unfold Obligations.PtoaConvertsToAffine
  intro s d a
  exact finish_pointOfRep_outcome fun _ _ => finish_toAff_outcome (s.ptMod_lt a)

/-! ### The registers the commands write, and the values they read as (R183) -/

/-- The register that holds an affine value. -/
def AffPoint.toReg (tag : CReg) : AffPoint → PointReg
  | .inf => { x := 0, y := 0, z := 0, tag := tag, rep := .affine, inf := true, v := true }
  | .pt x y =>
    { x := BitVec.ofNat 256 x, y := BitVec.ofNat 256 y, z := 0, tag := tag, rep := .affine, inf := false, v := true }

/-- The register that holds a Jacobian value. -/
def JacPoint.toReg (tag : CReg) (R : JacPoint) : PointReg where
  x := BitVec.ofNat 256 R.x
  y := BitVec.ofNat 256 R.y
  z := BitVec.ofNat 256 R.z
  tag := tag
  rep := .jacobian
  inf := false
  v := true

theorem State.writeAff_eq_writePt (s : State) (d : PReg) (R : AffPoint) (tag : CReg) :
    s.writeAff d R tag = s.writePt d (R.toReg tag) := by cases R <;> rfl

theorem State.writeJac_eq_writePt (s : State) (d : PReg) (R : JacPoint) (tag : CReg) :
    s.writeJac d R tag = s.writePt d (R.toReg tag) := rfl

@[simp] theorem AffPoint.toReg_tag (R : AffPoint) (tag : CReg) : (R.toReg tag).tag = tag := by cases R <;> rfl
@[simp] theorem AffPoint.toReg_rep (R : AffPoint) (tag : CReg) : (R.toReg tag).rep = .affine := by cases R <;> rfl
@[simp] theorem JacPoint.toReg_tag (R : JacPoint) (tag : CReg) : (R.toReg tag).tag = tag := rfl
@[simp] theorem JacPoint.toReg_rep (R : JacPoint) (tag : CReg) : (R.toReg tag).rep = .jacobian := rfl

section ReadBack

variable {p : Nat}

theorem toNat_ofNat_of_lt {n : Nat} (hp : p < 2 ^ 256) (h : n < p) : (BitVec.ofNat 256 n).toNat = n := by
  rw [BitVec.toNat_ofNat, Nat.mod_eq_of_lt (h.trans hp)]

theorem JacPoint.InField.jacVal_toReg {R : JacPoint} (h : R.InField p) (hp : p < 2 ^ 256) (tag : CReg) :
    (R.toReg tag).jacVal = R := by
  obtain ⟨⟨hx, -⟩, ⟨hy, -⟩, ⟨hz, -⟩⟩ := h
  simp only [PointReg.jacVal, JacPoint.toReg, toNat_ofNat_of_lt hp hx, toNat_ofNat_of_lt hp hy, toNat_ofNat_of_lt hp hz]

theorem AffPoint.HasCoords.affVal_toReg {A : AffPoint} {x y : ZMod p} (h : A.HasCoords p x y) (hp : p < 2 ^ 256)
    (tag : CReg) : (A.toReg tag).affVal = A := by
  obtain ⟨a, b, rfl, ⟨ha, -⟩, ⟨hb, -⟩⟩ := h.exists_pt
  rw [PointReg.affVal_of_finite (by simp [AffPoint.toReg])]
  simp only [AffPoint.toReg, toNat_ofNat_of_lt hp ha, toNat_ofNat_of_lt hp hb]

/-- Writing the value of an affine register again keeps its point (R183). -/
theorem toReg_affVal (r : PointReg) (tag : CReg) :
    (r.affVal.toReg tag).inf = r.inf
      ∧ (r.inf = false → (r.affVal.toReg tag).x = r.x ∧ (r.affVal.toReg tag).y = r.y) := by
  cases h : r.inf with
  | true => rw [PointReg.affVal_of_inf h]; exact ⟨rfl, by simp⟩
  | false => rw [PointReg.affVal_of_finite (by simp [h])]; simp [AffPoint.toReg]

/-- A converted value is read back as itself (R181, R183). -/
theorem affVal_toReg_of_toAff {A : AffPoint} {P : JacPoint} [Fact p.Prime] (hp : p < 2 ^ 256) (hP : P.InField p)
    (h : toAff p P = .ok A) (tag : CReg) : (A.toReg tag).affVal = A := by
  rcases toAff_eq_ok_cases hp hP h with ⟨-, rfl⟩ | ⟨-, hA⟩
  · rfl
  · exact hA.affVal_toReg hp tag

end ReadBack

/-! ### When a point command completes without an error, and with what state (R283, R285) -/

/-- `t` is `s` after a command that completed with CODE 0 and left `r` in `PT[d]`. -/
def State.Wrote (s : State) (d : PReg) (r : PointReg) (t : State) : Prop := t = (s.writePt d r).completeOk

section Wrote

variable {s t : State} {d i : PReg} {r : PointReg}

theorem State.Wrote.readPt (h : s.Wrote d r t) : t.readPt d = r := by rw [h, readPt_completeOk, readPt_writePt]

theorem State.Wrote.readPt_ne (h : s.Wrote d r t) (hi : d ≠ i) : t.readPt i = s.readPt i := by
  rw [h, readPt_completeOk, readPt_writePt_ne _ _ _ _ hi]

theorem State.Wrote.readCtx (h : s.Wrote d r t) (c : CReg) : t.readCtx c = s.readCtx c := h ▸ rfl

theorem State.Wrote.ptMod (h : s.Wrote d r t) : t.ptMod d = s.modulus r.tag := by
  rw [State.ptMod, h.readPt, h.readCtx]; rfl

end Wrote

section Completes

variable {s t : State} {d a b : PReg}

theorem finish_pure_iff {u : State} : s.finish (pure u) = .next t ∧ t.code = 0 ↔ t = u.completeOk := by
  constructor
  · exact fun ⟨h, _⟩ => (Host.Outcome.next.inj h).symm
  · rintro rfl
    exact ⟨rfl, rfl⟩

/-- A command completes with CODE 0 iff each of its computations answers a value (R283, R285). -/
theorem finish_bind_iff {α : Type} {x : Except Err α} {k : α → Except Err State} :
    s.finish (x >>= k) = .next t ∧ t.code = 0 ↔ ∃ v, x = .ok v ∧ s.finish (k v) = .next t ∧ t.code = 0 := by
  cases x with
  | ok v => simp [bind, Except.bind]
  | error e =>
    refine ⟨fun ⟨h, h0⟩ => ?_, fun ⟨_, h, _⟩ => by simp at h⟩
    obtain rfl := Host.Outcome.next.inj h
    exact absurd h0 e.code_ne_zero

theorem checkPoint_eq_ok {r : PointReg} {u : Unit} : s.checkPoint r = .ok u ↔ r.v = true ∧ s.ctxReady r.tag := by
  simp [State.checkPoint, checkV, State.checkCtx, bind_eq_ok, ensure_eq_ok, usable_iff]

theorem checkPointPair_eq_ok {u : Unit} : s.checkPointPair (s.readPt a) (s.readPt b) = .ok u ↔ s.pointsReady a b := by
  simp only [State.checkPointPair, checkV, State.checkCtx, bind_eq_ok, ensure_eq_ok, usable_iff, curveEq_iff,
    checkPt_eq_ok, exists_const, beq_iff_eq]
  constructor
  · rintro ⟨va, vb, ca, cb, hcurve, hrep, ha, hb⟩
    exact ⟨⟨va, ca, ha⟩, ⟨vb, cb, hb⟩, hcurve, hrep⟩
  · rintro ⟨⟨va, ca, ha⟩, ⟨vb, cb, hb⟩, hcurve, hrep⟩
    exact ⟨va, vb, ca, cb, hcurve, hrep, ha, hb⟩

/-- A one-operand point command completes iff its operand is accepted and its computation does (R196). -/
theorem finish_point_iff {k : Unit → Except Err State} :
    s.finish (s.checkPoint (s.readPt a) >>= fun _ => s.checkPt (s.readPt a) >>= k) = .next t ∧ t.code = 0 ↔
      s.pointReady a ∧ s.finish (k ()) = .next t ∧ t.code = 0 := by
  simp only [finish_bind_iff, checkPoint_eq_ok, checkPt_eq_ok]
  constructor
  · exact fun ⟨_, ⟨hv, hctx⟩, _, hc, h⟩ => ⟨⟨hv, hctx, hc⟩, h⟩
  · exact fun ⟨⟨hv, hctx, hc⟩, h⟩ => ⟨(), ⟨hv, hctx⟩, (), hc, h⟩

/-- As `finish_point_iff`, for a command of one representation (R192, R197, R198). -/
theorem finish_pointOfRep_iff {rep : Rep} {e : Err} {k : Unit → Except Err State} :
    s.finish (s.checkPoint (s.readPt a) >>= fun _ =>
        ensure ((s.readPt a).rep == rep) e >>= fun _ => s.checkPt (s.readPt a) >>= k) = .next t ∧ t.code = 0 ↔
      s.pointReady a ∧ (s.readPt a).rep = rep ∧ s.finish (k ()) = .next t ∧ t.code = 0 := by
  simp only [finish_bind_iff, checkPoint_eq_ok, ensure_eq_ok, checkPt_eq_ok, beq_iff_eq]
  constructor
  · exact fun ⟨_, ⟨hv, hctx⟩, _, hrep, _, hc, h⟩ => ⟨⟨hv, hctx, hc⟩, hrep, h⟩
  · exact fun ⟨⟨hv, hctx, hc⟩, hrep, h⟩ => ⟨(), ⟨hv, hctx⟩, (), hrep, (), hc, h⟩

theorem exec_ptoj_iff :
    exec (.ptoj d a) s = .next t ∧ t.code = 0 ↔
      s.pointReady a ∧ (s.readPt a).rep = .affine
        ∧ s.Wrote d ((toJac (s.readPt a).affVal).toReg (s.readPt a).tag) t :=
  finish_pointOfRep_iff.trans (by simp only [finish_pure_iff, State.writeJac_eq_writePt, State.Wrote])

theorem exec_ptoa_iff :
    exec (.ptoa d a) s = .next t ∧ t.code = 0 ↔
      s.pointReady a ∧ (s.readPt a).rep = .jacobian
        ∧ ∃ A, toAff (s.ptMod a) (s.readPt a).jacVal = .ok A
          ∧ s.Wrote d (A.toReg (s.readPt a).tag) t :=
  finish_pointOfRep_iff.trans
    (by simp only [finish_bind_iff, finish_pure_iff, State.writeAff_eq_writePt, State.Wrote]; rfl)

theorem exec_pdbl_jacobian_iff (hrep : (s.readPt a).rep = .jacobian) :
    exec (.pdbl d a) s = .next t ∧ t.code = 0 ↔
      s.pointReady a
        ∧ ∃ R, jacDbl (s.ptMod a) (s.ptCoeffA a) (s.readPt a).jacVal = .ok R
          ∧ s.Wrote d (R.toReg (s.readPt a).tag) t := by
  rw [exec_pdbl_of_jacobian hrep, finish_point_iff]
  simp only [finish_bind_iff, finish_pure_iff, State.writeJac_eq_writePt, State.Wrote]

theorem exec_pdbl_affine_iff (hrep : (s.readPt a).rep = .affine) :
    exec (.pdbl d a) s = .next t ∧ t.code = 0 ↔
      s.pointReady a
        ∧ ∃ R, affDbl (s.ptMod a) (s.ptCoeffA a) (s.readPt a).affVal = .ok R
          ∧ s.Wrote d (R.toReg (s.readPt a).tag) t := by
  rw [exec_pdbl_of_affine hrep, finish_point_iff]
  simp only [finish_bind_iff, finish_pure_iff, State.writeAff_eq_writePt, State.Wrote]

theorem exec_padd_jacobian_iff (hrep : (s.readPt a).rep = .jacobian) :
    exec (.padd d a b) s = .next t ∧ t.code = 0 ↔
      s.pointsReady a b
        ∧ ∃ R, jacMAdd (s.ptMod a) (s.readPt a).jacVal (s.readPt b).jacVal = .ok R
          ∧ s.Wrote d (R.toReg (s.readPt a).tag) t := by
  rw [exec_padd_of_jacobian hrep]
  simp only [finish_bind_iff, checkPointPair_eq_ok, exists_const, finish_pure_iff, State.writeJac_eq_writePt,
    State.Wrote]

theorem exec_padd_affine_iff (hrep : (s.readPt a).rep = .affine) :
    exec (.padd d a b) s = .next t ∧ t.code = 0 ↔
      s.pointsReady a b
        ∧ ∃ R, affAdd (s.ptMod a) (s.ptCoeffA a) (s.readPt a).affVal (s.readPt b).affVal = .ok R
          ∧ s.Wrote d (R.toReg (s.readPt a).tag) t := by
  rw [exec_padd_of_affine hrep]
  simp only [finish_bind_iff, checkPointPair_eq_ok, exists_const, finish_pure_iff, State.writeAff_eq_writePt,
    State.Wrote]

end Completes

/-! ### Conversion and the group law (R182) -/

/-- Converting to Jacobian form and back is the identity, infinity included (R180, R181). -/
theorem toAff_toJac (p : Nat) (P : AffPoint) : toAff p (toJac P) = .ok P := by
  cases P with
  | inf => rfl
  | pt x y => exact toAff_of_z_one rfl

/-- The Jacobian form of an accepted affine point is in the field (R180). -/
theorem toJac_inField {s : State} {a : PReg} (hp : 2 ≤ s.ptMod a) (h : s.coordsInField a) :
    (toJac (s.readPt a).affVal).InField (s.ptMod a) := by
  by_cases hinf : (s.readPt a).inf = true
  · rw [PointReg.affVal_of_inf hinf]
    exact ⟨.of_lt hp, .of_lt hp, .of_lt (Nat.zero_lt_of_lt hp)⟩
  · obtain ⟨hx, hy⟩ := h.affine hinf
    rw [PointReg.affVal_of_finite hinf]
    exact ⟨.of_lt hx, .of_lt hy, .of_lt hp⟩

/-- A register that holds a triple of the field of its context is accepted (R170, R171). -/
theorem pointReady_of_toReg {s : State} {d : PReg} {R : JacPoint} {tag : CReg} (hread : s.readPt d = R.toReg tag)
    (hctx : s.ctxReady tag) (hR : R.InField (s.modulus tag)) : s.pointReady d := by
  obtain ⟨⟨hx, -⟩, ⟨hy, -⟩, ⟨hz, -⟩⟩ := hR
  have hfits {n : Nat} (h : n < s.modulus tag) : (BitVec.ofNat 256 n).toNat < s.modulus tag :=
    (toNat_ofNat_of_lt (BitVec.isLt _) h).symm ▸ h
  rw [State.pointReady, State.coordsInField, State.ptMod, hread]
  exact ⟨rfl, hctx, .inr ⟨hfits hx, hfits hy, .inr (hfits hz)⟩⟩

/-- Settles O47: the triple that PTOJ writes is one that PTOA accepts and converts back. -/
theorem jacobianRoundTripKeepsThePoint : Obligations.JacobianRoundTripKeepsThePoint := by
  unfold Obligations.JacobianRoundTripKeepsThePoint
  intro s d e a hv hctx hrep hc
  have ⟨_, htwo, _⟩ := hctx
  have hin := toJac_inField htwo hc
  obtain ⟨t, hwt⟩ : ∃ t, s.Wrote d ((toJac (s.readPt a).affVal).toReg (s.readPt a).tag) t := ⟨_, rfl⟩
  obtain ⟨u, hwu⟩ : ∃ u, t.Wrote e ((s.readPt a).affVal.toReg (s.readPt a).tag) u := ⟨_, rfl⟩
  obtain ⟨ht, -⟩ := exec_ptoj_iff.2 ⟨⟨hv, hctx, hc⟩, hrep, hwt⟩
  have hready : t.pointReady d := pointReady_of_toReg hwt.readPt
    (by simpa only [State.ctxReady, hwt.readCtx] using hctx) (by simpa only [State.modulus, hwt.readCtx] using hin)
  have hval : (t.readPt d).jacVal = toJac (s.readPt a).affVal := by
    rw [hwt.readPt, hin.jacVal_toReg (s.ptMod_lt a)]
  obtain ⟨hu, hu0⟩ := exec_ptoa_iff.2
    ⟨hready, by rw [hwt.readPt]; rfl, _, by rw [hval]; exact toAff_toJac _ _, by rw [hwt.readPt]; exact hwu⟩
  refine ⟨t, u, ht, hu, hu0, ?_⟩
  rw [hwu.readPt]
  obtain ⟨hinf, hxy⟩ := toReg_affVal (s.readPt a) (s.readPt a).tag
  exact ⟨AffPoint.toReg_rep _ _, hinf, AffPoint.toReg_tag _ _, hxy⟩

/-- Settles O48: the two pairs of commands compute what `toAff_jacDbl` equates. -/
theorem doublingCommutesWithConversion : Obligations.DoublingCommutesWithConversion := by
  unfold Obligations.DoublingCommutesWithConversion
  intro s t u v w a d e hprime ht ht0 hu hu0 hv hv0 hw hw0 hrep
  have : Fact (s.ptMod a).Prime := ⟨hprime⟩
  have hp := s.ptMod_lt a
  obtain ⟨⟨_, ⟨_, _, hcoeff⟩, hc⟩, R, hR, hwt⟩ := (exec_pdbl_jacobian_iff hrep).1 ⟨ht, ht0⟩
  obtain ⟨-, -, A, hA, hwu⟩ := exec_ptoa_iff.1 ⟨hu, hu0⟩
  obtain ⟨-, -, B, hB, hwv⟩ := exec_ptoa_iff.1 ⟨hv, hv0⟩
  obtain ⟨-, C, hC, hww⟩ := (exec_pdbl_affine_iff (by rw [hwv.readPt, AffPoint.toReg_rep])).1 ⟨hw, hw0⟩
  have hP := hc.jacobian hrep
  obtain ⟨-, hcoords⟩ := hasCoords_of_jacDbl hcoeff hP hR
  rw [hwt.ptMod, hwt.readPt, JacPoint.toReg_tag, hcoords.inField.jacVal_toReg hp] at hA
  rw [hwv.ptMod, State.ptCoeffA, hwv.readCtx, hwv.readPt, AffPoint.toReg_tag, affVal_toReg_of_toAff hp hP hB] at hC
  rw [hww.readPt, hwu.readPt, hwv.readPt, hwt.readPt, AffPoint.toReg_tag, JacPoint.toReg_tag,
    toAff_jacDbl hp hcoeff hP hR hA hB hC]

/-- Settles O49: the two chains of commands compute what `toAff_jacMAdd` equates. -/
theorem mixedAdditionCommutesWithConversion : Obligations.MixedAdditionCommutesWithConversion := by
  unfold Obligations.MixedAdditionCommutesWithConversion
  intro s t u v w x a b d e f hrom hprime heb hef hrep ht ht0 hu hu0 hv hv0 hw hw0 hx hx0
  have : Fact (s.ptMod a).Prime := ⟨hprime⟩
  have hp := s.ptMod_lt a
  obtain ⟨⟨⟨_, _, hca⟩, ⟨_, _, hcb⟩, hcurve, hrepb⟩, R, hR, hwt⟩ := (exec_padd_jacobian_iff hrep).1 ⟨ht, ht0⟩
  obtain ⟨-, -, A, hA, hwu⟩ := exec_ptoa_iff.1 ⟨hu, hu0⟩
  obtain ⟨-, -, B, hB, hwv⟩ := exec_ptoa_iff.1 ⟨hv, hv0⟩
  obtain ⟨-, -, C, hC, hww⟩ := exec_ptoa_iff.1 ⟨hw, hw0⟩
  have hreade : w.readPt e = B.toReg (s.readPt a).tag := (hww.readPt_ne hef.symm).trans hwv.readPt
  obtain ⟨-, D, hD, hwx⟩ := (exec_padd_affine_iff (by rw [hreade, AffPoint.toReg_rep])).1 ⟨hx, hx0⟩
  have hP := hca.jacobian hrep
  have hQ := hcb.jacobian (hrepb ▸ hrep)
  have hmod : v.ptMod b = s.ptMod a := by
    rw [State.ptMod, hwv.readPt_ne heb, hwv.readCtx, ← State.ptMod, ptMod_eq_of_sameCurve hrom hcurve]
  rw [ptMod_eq_of_sameCurve hrom hcurve] at hQ
  obtain ⟨-, -, -, hcoords⟩ := hasCoords_of_jacMAdd hP hQ hR
  rw [hwt.ptMod, hwt.readPt, JacPoint.toReg_tag, hcoords.inField.jacVal_toReg hp] at hA
  rw [hmod, hwv.readPt_ne heb] at hC
  rw [State.ptMod, State.ptCoeffA, hreade, hww.readCtx, hwv.readCtx, hww.readPt, AffPoint.toReg_tag,
    affVal_toReg_of_toAff hp hP hB, affVal_toReg_of_toAff hp hQ hC] at hD
  rw [hwx.readPt, hwu.readPt, hreade, hwt.readPt, AffPoint.toReg_tag, JacPoint.toReg_tag,
    toAff_jacMAdd hp hP hQ hR hA hB hC hD]

end Sys2Proof.Machine
end

section
/-! SUPPORT. The routed operations over a prime modulus: a Jacobian tally that reads as an affine value, the affine sum that
the routed mixed addition computes, and its meaning in the library's group of points (spec/43_scalar.md R220, R221, R225). -/

namespace Sys2Proof.Machine

/-! ### Values of the field (R171) -/

/-- Every coordinate of the affine value is below `p`. -/
def AffPoint.InField (p : Nat) : AffPoint → Prop
  | .inf => True
  | .pt x y => x < p ∧ y < p

/-- The tally reads as this affine value: its triple is in the field, it is infinity only as `(1, 1, 0)`, and it converts
(R181, R221). -/
structure JacPoint.Reads (p : Nat) (T : JacPoint) (A : AffPoint) : Prop where
  inField : T.InField p
  infOrFinite : T = jacInf ∨ T.z ≠ 0
  toAff_eq : toAff p T = .ok A

/-- The affine addition that the routed mixed addition computes in Jacobian form: the sum on the chord, the routed double of
equal points, and infinity for two points of one abscissa (R221). -/
def affSum (p a : Nat) : (A P : AffPoint) → Except Err AffPoint
  | .inf, P => .ok P
  | .pt x1 y1, .inf => .ok (.pt x1 y1)
  | .pt x1 y1, .pt x2 y2 =>
    if x1 = x2 ∧ y1 = y2 then routedDbl p a (.pt x2 y2)
    else if x1 = x2 then .ok .inf
    else affAdd p a (.pt x1 y1) (.pt x2 y2)

theorem affSum_inf_right (p a : Nat) (A : AffPoint) : affSum p a A .inf = .ok A := by cases A <;> rfl

theorem AffPoint.HasCoords.inField {p : Nat} {x y : ZMod p} {P : AffPoint} (h : P.HasCoords p x y) : P.InField p := by
  obtain ⟨a, b, rfl, ha, hb⟩ := h.exists_pt
  exact ⟨ha.lt, hb.lt⟩

/-- The routed doubling completes, and its result is in the field (R220). -/
theorem routedDbl_inField {p a : Nat} {P : AffPoint} (hp : p < 2 ^ 256) (ha : a < p) (hP : P.InField p) :
    ∃ R, routedDbl p a P = .ok R ∧ R.InField p := by
  cases P with
  | inf => exact ⟨.inf, rfl, trivial⟩
  | pt x y =>
    obtain ⟨hx, hy⟩ := hP
    by_cases h0 : fadd p y y = 0
    · exact ⟨.inf, if_pos h0, trivial⟩
    · rcases affDbl_pt_cases hp ha hx hy with ⟨h, -⟩ | ⟨-, S, hS, hline⟩
      · exact absurd ((fadd_self hy).trans h) h0
      · exact ⟨S, (if_neg h0).trans hS, hline.inField⟩

theorem JacPoint.Reads.exists_of_z_ne_zero {p : Nat} {T : JacPoint} (hp : p < 2 ^ 256) (hT : T.InField p) (hz : T.z ≠ 0) :
    ∃ A, T.Reads p A := by
  rcases toAff_cases hp T with ⟨rfl, -⟩ | ⟨-, h0, -⟩ | ⟨-, e⟩ | ⟨-, -, e⟩
  · exact absurd rfl hz
  · exact absurd h0 hz
  · exact ⟨_, hT, .inr hz, e⟩
  · exact ⟨_, hT, .inr hz, e⟩

theorem JacPoint.Reads.eq_inf {p : Nat} {A : AffPoint} (h : jacInf.Reads p A) : A = .inf := (Except.ok.inj h.toAff_eq).symm

section Prime

variable {p a : Nat} [Fact p.Prime] {T : JacPoint} {A P : AffPoint} {x1 y1 x2 y2 : Nat}

theorem reads_toJac (hA : A.InField p) : (toJac A).Reads p A := by
  have one_lt : 1 < p := (Fact.out : p.Prime).one_lt
  cases A with
  | inf => exact ⟨⟨.of_lt one_lt, .of_lt one_lt, .of_lt (Nat.zero_lt_of_lt one_lt)⟩, .inl rfl, rfl⟩
  | pt x y => exact ⟨⟨.of_lt hA.1, .of_lt hA.2, .of_lt one_lt⟩, .inr Nat.one_ne_zero, toAff_toJac p _⟩

/-- A tally that is not infinity reads as the point `(X / Z², Y / Z³)`. -/
theorem JacPoint.Reads.hasCoords (h : T.Reads p A) (hp : p < 2 ^ 256) (hinf : T ≠ jacInf) :
    (T.z : ZMod p) ≠ 0 ∧ A.HasCoords p (T.x / T.z ^ 2) (T.y / T.z ^ 3) := by
  rcases toAff_eq_ok_cases hp h.inField h.toAff_eq with ⟨e, -⟩ | hA
  · exact absurd e hinf
  · exact hA

/-- The routed mixed addition into a finite tally, by the affine coordinates the tally reads as: `E` is 0 iff the abscissas
agree, and `F` iff the ordinates do (R221). -/
theorem routedAdd_of_finite (hp : p < 2 ^ 256) (hT : T.Reads p (.pt x1 y1)) (hx2 : x2 < p) (hy2 : y2 < p) :
    routedAdd p a T (.pt x2 y2)
      = if x1 = x2 ∧ y1 = y2 then routedDbl p a (.pt x2 y2) >>= fun R => pure (toJac R)
        else if x1 = x2 then .ok jacInf
        else jacMAdd p T (toJac (.pt x2 y2)) := by
  have hinf : T ≠ jacInf := by rintro rfl; exact AffPoint.noConfusion hT.eq_inf
  obtain ⟨hz, rx1, ry1⟩ := hT.hasCoords hp hinf
  obtain ⟨rx, ry, rz⟩ := hT.inField
  have hA := rz.fmul rz
  have hE := ((IsResidue.of_lt hx2).fmul hA).fsub rx
  have hF := ((IsResidue.of_lt hy2).fmul (rz.fmul hA)).fsub ry
  have hE0 : fsub p (fmul p x2 (fmul p T.z T.z)) T.x = 0 ↔ x1 = x2 := by
    rw [hE.eq_zero_iff, ← cast_inj rx1.lt hx2, rx1.cast_eq, div_eq_iff (pow_ne_zero 2 hz), sub_eq_zero, sq, eq_comm]
  have hF0 : fsub p (fmul p y2 (fmul p T.z (fmul p T.z T.z))) T.y = 0 ↔ y1 = y2 := by
    rw [hF.eq_zero_iff, ← cast_inj ry1.lt hy2, ry1.cast_eq, div_eq_iff (pow_ne_zero 3 hz), sub_eq_zero, pow_succ', sq,
      eq_comm]
  simp only [routedAdd, if_neg hinf, if_neg (mt rz.eq_zero_iff.1 hz), hE0, hF0]

/-- The routed mixed addition of values in the field completes, and its tally reads as the affine sum (R221). -/
theorem routedAdd_reads (hp : p < 2 ^ 256) (ha : a < p) (hT : T.Reads p A) (hP : P.InField p) :
    ∃ R B, routedAdd p a T P = .ok R ∧ affSum p a A P = .ok B ∧ R.Reads p B := by
  cases P with
  | inf => exact ⟨T, A, rfl, affSum_inf_right p a A, hT⟩
  | pt x2 y2 =>
    obtain ⟨hx2, hy2⟩ := hP
    by_cases hinf : T = jacInf
    · subst hinf
      obtain rfl := hT.eq_inf
      exact ⟨_, _, by rw [routedAdd, if_pos rfl], rfl, reads_toJac ⟨hx2, hy2⟩⟩
    obtain ⟨hz, hA⟩ := hT.hasCoords hp hinf
    obtain ⟨x1, y1, rfl, rx1, ry1⟩ := hA.exists_pt
    rw [routedAdd_of_finite hp hT hx2 hy2, affSum]
    split_ifs with heq hx
    · obtain ⟨R, hR, hin⟩ := routedDbl_inField hp ha (P := .pt x2 y2) ⟨hx2, hy2⟩
      exact ⟨toJac R, R, by rw [hR]; rfl, hR, reads_toJac hin⟩
    · exact ⟨jacInf, .inf, rfl, rfl, reads_toJac (A := .inf) trivial⟩
    · have hQ := reads_toJac (p := p) (A := .pt x2 y2) ⟨hx2, hy2⟩
      have hz0 : T.z ≠ 0 := mt hT.inField.resZ.eq_zero_iff.1 hz
      obtain ⟨S, hS⟩ : ∃ S, affAdd p a (.pt x1 y1) (.pt x2 y2) = .ok S := by
        rcases affAdd_chord_cases (a := a) hp rx1.lt ry1.lt hx2 hy2 (fun h => hx h.1) (fun h => hx h.1) with
          ⟨h, -⟩ | ⟨-, S, hS, -⟩
        · exact absurd h hx
        · exact ⟨S, hS⟩
      rcases jacMAdd_cases hT.inField hQ.inField hz0 rfl with ⟨he, -⟩ | ⟨he, R, hR, hcoords⟩
      · refine absurd ((cast_inj rx1.lt hx2).1 ?_) hx
        rw [rx1.cast_eq, div_eq_iff (pow_ne_zero 2 hz)]
        exact (sub_eq_zero.1 he).symm
      · have hRz : R.z ≠ 0 := mt hcoords.resZ.eq_zero_iff.1 (mul_ne_zero hz he)
        obtain ⟨B, hB⟩ := JacPoint.Reads.exists_of_z_ne_zero hp hcoords.inField hRz
        obtain rfl := toAff_jacMAdd hp hT.inField hQ.inField hR hB.toAff_eq hT.toAff_eq hQ.toAff_eq hS
        exact ⟨R, S, hR, hS, hB⟩

end Prime

/-! ### The points of the curve (R225) -/

/-- The affine value is this point of the curve. -/
def AffPoint.Represents {p : Nat} {W : WeierstrassCurve.Affine (ZMod p)} (A : AffPoint) : W.Point → Prop
  | .zero => A = .inf
  | .some x y _ => A.HasCoords p x y

/-- The tally reads as this point of the curve. -/
def JacPoint.Represents {p : Nat} {W : WeierstrassCurve.Affine (ZMod p)} (T : JacPoint) (Q : W.Point) : Prop :=
  ∃ A : AffPoint, T.Reads p A ∧ A.Represents Q

theorem AffPoint.Represents.inField {p : Nat} {W : WeierstrassCurve.Affine (ZMod p)} {A : AffPoint} {Q : W.Point}
    (h : A.Represents Q) : A.InField p := by
  cases Q with
  | zero => obtain rfl : A = .inf := h; trivial
  | some x y _ => exact AffPoint.HasCoords.inField h

section Group

variable {p : Nat} {c : Context}

/-- The third point of a line, reflected, in the library's terms: a context's curve has no other coefficients. -/
theorem AffPoint.IsLineSum.hasCoords {slope x1 y1 x2 : ZMod p} {R : AffPoint} (h : R.IsLineSum p slope x1 y1 x2) :
    R.HasCoords p ((curveOf p c).addX x1 x2 slope) ((curveOf p c).addY x1 x2 y1 slope) := by
  obtain ⟨x, y, rfl, hx, hy⟩ := AffPoint.HasCoords.exists_pt h
  refine ⟨hx.congr ?_, hy.congr ?_⟩ <;>
    simp only [WeierstrassCurve.Affine.addX, WeierstrassCurve.Affine.addY, WeierstrassCurve.Affine.negAddY,
      WeierstrassCurve.Affine.negY, curveOf] <;> ring

theorem negY_curveOf (x y : ZMod p) : (curveOf p c).negY x y = -y := by simp [WeierstrassCurve.Affine.negY, curveOf]

variable [Fact p.Prime] {Q Q1 Q2 : (curveOf p c).Point} {T : JacPoint} {A B P : AffPoint}

/-- The routed doubling doubles in the group: `2y = 0` is the case of a point that is its own opposite (R220). -/
theorem represents_of_routedDbl (hp : p < 2 ^ 256) (ha : c.a.toNat < p) (hP : P.Represents Q)
    (hB : routedDbl p c.a.toNat P = .ok B) : B.Represents (Q + Q) := by
  cases Q with
  | zero =>
    obtain rfl : P = .inf := hP
    exact (Except.ok.inj hB).symm
  | some x y hns =>
    obtain ⟨m, n, rfl, hm, hn⟩ := AffPoint.HasCoords.exists_pt hP
    have hsum := (hn.fadd hn).eq_zero_iff
    have hopp : y = (curveOf p c).negY x y ↔ y + y = 0 := by rw [negY_curveOf, eq_neg_iff_add_eq_zero]
    rw [routedDbl] at hB
    split_ifs at hB with h0
    · rw [WeierstrassCurve.Affine.Point.add_self_of_Y_eq (hopp.2 (hsum.1 h0))]
      exact (Except.ok.inj hB).symm
    · have hne : y ≠ (curveOf p c).negY x y := mt hopp.1 (mt hsum.2 h0)
      obtain ⟨-, hline⟩ := isLineSum_of_affDbl hp ha hm.lt hn.lt hB
      rw [hm.cast_eq, hn.cast_eq] at hline
      have hslope : (curveOf p c).slope x x y y = (3 * x ^ 2 + c.a.toNat) / (2 * y) := by
        rw [WeierstrassCurve.Affine.slope_of_Y_ne rfl hne, negY_curveOf]
        simp [curveOf, two_mul]
      rw [WeierstrassCurve.Affine.Point.add_self_of_Y_ne hne]
      show B.HasCoords p _ _
      rw [hslope]
      exact hline.hasCoords

/-- The affine sum adds in the group (R221). -/
theorem represents_of_affSum (hp : p < 2 ^ 256) (ha : c.a.toNat < p) (hA : A.Represents Q1) (hP : P.Represents Q2)
    (hB : affSum p c.a.toNat A P = .ok B) : B.Represents (Q1 + Q2) := by
  cases Q1 with
  | zero =>
    obtain rfl : A = .inf := hA
    obtain rfl := Except.ok.inj hB
    rw [← WeierstrassCurve.Affine.Point.zero_def, zero_add]
    exact hP
  | some x1 y1 h1 =>
    cases Q2 with
    | zero =>
      obtain rfl : P = .inf := hP
      obtain rfl := Except.ok.inj ((affSum_inf_right _ _ A).symm.trans hB)
      rw [← WeierstrassCurve.Affine.Point.zero_def, add_zero]
      exact hA
    | some x2 y2 h2 =>
      obtain ⟨m1, n1, rfl, hm1, hn1⟩ := AffPoint.HasCoords.exists_pt hA
      obtain ⟨m2, n2, rfl, hm2, hn2⟩ := AffPoint.HasCoords.exists_pt hP
      have hx : m1 = m2 ↔ x1 = x2 := by rw [← cast_inj hm1.lt hm2.lt, hm1.cast_eq, hm2.cast_eq]
      have hy : n1 = n2 ↔ y1 = y2 := by rw [← cast_inj hn1.lt hn2.lt, hn1.cast_eq, hn2.cast_eq]
      rw [affSum] at hB
      simp only [hx, hy] at hB
      split_ifs at hB with heq hxeq
      · obtain ⟨rfl, rfl⟩ := heq
        exact represents_of_routedDbl hp ha hP hB
      · have hyopp := (WeierstrassCurve.Affine.Y_eq_of_X_eq h1.1 h2.1 hxeq).resolve_left fun h => heq ⟨hxeq, h⟩
        rw [WeierstrassCurve.Affine.Point.add_of_Y_eq hxeq hyopp]
        exact (Except.ok.inj hB).symm
      · have hline := isLineSum_of_affAdd hp hm1.lt hn1.lt hm2.lt hn2.lt
          (by rw [hm1.cast_eq, hm2.cast_eq]; exact sub_ne_zero.2 (Ne.symm hxeq)) hB
        rw [hm1.cast_eq, hn1.cast_eq, hm2.cast_eq, hn2.cast_eq] at hline
        have hslope : (curveOf p c).slope x1 x2 y1 y2 = (y2 - y1) / (x2 - x1) := by
          rw [WeierstrassCurve.Affine.slope_of_X_ne hxeq, ← neg_div_neg_eq, neg_sub, neg_sub]
        rw [WeierstrassCurve.Affine.Point.add_of_X_ne hxeq]
        show B.HasCoords p _ _
        rw [hslope]
        exact hline.hasCoords

/-- The routed doubling completes with the double in the group (R220). -/
theorem AffPoint.Represents.routedDbl (hP : P.Represents Q) (hp : p < 2 ^ 256) (ha : c.a.toNat < p) :
    ∃ B, routedDbl p c.a.toNat P = .ok B ∧ B.Represents (Q + Q) := by
  obtain ⟨B, hB, -⟩ := routedDbl_inField hp ha hP.inField
  exact ⟨B, hB, represents_of_routedDbl hp ha hP hB⟩

/-- The routed mixed addition completes with the sum in the group (R221). -/
theorem JacPoint.Represents.routedAdd (hT : T.Represents Q1) (hP : P.Represents Q2) (hp : p < 2 ^ 256)
    (ha : c.a.toNat < p) : ∃ R, routedAdd p c.a.toNat T P = .ok R ∧ R.Represents (Q1 + Q2) := by
  obtain ⟨A, hread, hA⟩ := hT
  obtain ⟨R, B, hR, hB, hRB⟩ := routedAdd_reads hp ha hread hP.inField
  exact ⟨R, hR, B, hRB, represents_of_affSum hp ha hA hP hB⟩

end Group

end Sys2Proof.Machine
end

section
/-! SUPPORT. The two paths of scalar multiplication as loops that keep an invariant: the tally is the multiple by the bits of
the scalar so far, in the library's group of points (spec/43_scalar.md R222, R223, R225). -/

namespace Sys2Proof.Machine

/-! ### The bits of the scalar (R222, R223) -/

theorem lt_two_pow_bitlen (k : Nat) : k < 2 ^ bitlen k := by
  unfold bitlen
  split
  · next h => simp [h]
  · exact Nat.lt_log2_self

theorem ne_zero_of_testBit {k i : Nat} (h : k.testBit i = true) : k ≠ 0 := by
  rintro rfl
  simp at h

section Bits

variable {M : Type} [AddMonoid M] {k i : Nat} (Q : M)

/-- A set bit adds its weight to the multiple below it. -/
theorem mod_smul_add_of_testBit (h : k.testBit i = true) : (k % 2 ^ i) • Q + 2 ^ i • Q = (k % 2 ^ (i + 1)) • Q := by
  rw [Nat.mod_pow_succ, ← Nat.toNat_testBit, h, ← add_nsmul, Bool.toNat_true, mul_one]

theorem mod_smul_of_not_testBit (h : ¬ k.testBit i = true) : (k % 2 ^ i) • Q = (k % 2 ^ (i + 1)) • Q := by
  rw [Nat.mod_pow_succ, ← Nat.toNat_testBit, Bool.eq_false_iff.2 h, Bool.toNat_false, mul_zero, add_zero]

end Bits

/-! ### The fast path's loop (R223) -/

section TableLoop

variable {p a k i n : Nat} {e : TableEntry} {entry entry' : Nat → TableEntry} {T : JacPoint}

theorem tableStep_of_unselected (h : ¬ k.testBit i = true) : tableStep p a k i e T = .ok T := if_neg h

theorem tableStep_of_inField (h : k.testBit i = true) (hx : e.x.toNat < p) (hy : e.y.toNat < p) :
    tableStep p a k i e T = routedAdd p a T (.pt e.x.toNat e.y.toNat) := by
  rw [tableStep, if_pos h, checkVal_of_lt hx, checkVal_of_lt hy]; rfl

theorem tableStep_of_not_inField (h : k.testBit i = true) (he : ¬ (e.x.toNat < p ∧ e.y.toNat < p)) :
    tableStep p a k i e T = .error .invalidFieldElement := by
  rw [tableStep, if_pos h]
  by_cases hx : e.x.toNat < p
  · rw [checkVal_of_lt hx, checkVal_of_le fun hy => he ⟨hx, hy⟩]; rfl
  · rw [checkVal_of_le hx]; rfl

/-- The loop over `n + m` entries is the loop over the first `n` and then over the next `m`. -/
theorem smulTableLoop_add (n m : Nat) : ∀ (i : Nat) (T : JacPoint),
    smulTableLoop p a k entry (n + m) i T
      = smulTableLoop p a k entry n i T >>= smulTableLoop p a k entry m (i + n) := by
  induction n with
  | zero => intro i T; rw [Nat.zero_add]; rfl
  | succ n ih =>
    intro i T
    rw [Nat.succ_add, smulTableLoop, smulTableLoop, bind_assoc]
    simp only [ih, Nat.succ_add_eq_add_succ, Nat.succ_eq_add_one]

/-- What every step keeps, the loop from the lowest entry reaches. -/
theorem smulTableLoop_invariant {Inv : Nat → JacPoint → Prop}
    (hstep : ∀ j < n, ∀ T, Inv j T → ∃ T', tableStep p a k j (entry j) T = .ok T' ∧ Inv (j + 1) T') (h0 : Inv 0 T) :
    ∃ R, smulTableLoop p a k entry n 0 T = .ok R ∧ Inv n R := by
  induction n with
  | zero => exact ⟨T, rfl, h0⟩
  | succ n ih =>
    obtain ⟨R, hR, hinv⟩ := ih fun j hj => hstep j (hj.trans n.lt_succ_self)
    obtain ⟨R', hR', hinv'⟩ := hstep n n.lt_succ_self R hinv
    refine ⟨R', ?_, hinv'⟩
    rw [smulTableLoop_add, hR, Nat.zero_add]
    change tableStep p a k n (entry n) R >>= _ = _
    rw [hR']; rfl

/-- The loop reads the selected entries alone (R223). -/
theorem smulTableLoop_congr (h : ∀ j, k.testBit j = true → entry j = entry' j) (n : Nat) : ∀ (i : Nat) (T : JacPoint),
    smulTableLoop p a k entry n i T = smulTableLoop p a k entry' n i T := by
  induction n with
  | zero => exact fun _ _ => rfl
  | succ n ih =>
    intro i T
    have hstep : tableStep p a k i (entry i) T = tableStep p a k i (entry' i) T := by
      by_cases hi : k.testBit i = true
      · rw [h i hi]
      · rw [tableStep_of_unselected hi, tableStep_of_unselected hi]
    simp only [smulTableLoop, hstep, ih]

/-- A selected entry out of range ends the loop, where every lower step completes (R223, R288). -/
theorem smulTableLoop_of_not_inField {Inv : JacPoint → Prop} (hi : i < n)
    (hstep : ∀ j < i, ∀ T, Inv T → ∃ T', tableStep p a k j (entry j) T = .ok T' ∧ Inv T') (h0 : Inv T)
    (hsel : k.testBit i = true) (hbad : ¬ ((entry i).x.toNat < p ∧ (entry i).y.toNat < p)) :
    smulTableLoop p a k entry n 0 T = .error .invalidFieldElement := by
  obtain ⟨m, rfl⟩ := Nat.exists_eq_add_of_lt hi
  obtain ⟨R, hR, -⟩ := smulTableLoop_invariant (Inv := fun _ => Inv) hstep h0
  rw [Nat.add_assoc, smulTableLoop_add, hR, Nat.zero_add]
  change tableStep p a k i (entry i) R >>= _ = _
  rw [tableStep_of_not_inField hsel hbad]; rfl

end TableLoop

/-! ### Both paths compute the multiple in the group (R225) -/

theorem represents_jacInf {p : Nat} [Fact p.Prime] {W : WeierstrassCurve.Affine (ZMod p)} :
    jacInf.Represents (0 : W.Point) := ⟨.inf, reads_toJac (A := .inf) trivial, rfl⟩

theorem JacPoint.Represents.toAff {p : Nat} {W : WeierstrassCurve.Affine (ZMod p)} {T : JacPoint} {Q : W.Point}
    (h : T.Represents Q) : ∃ A, toAff p T = .ok A ∧ A.Represents Q := by
  obtain ⟨A, hread, hA⟩ := h
  exact ⟨A, hread.toAff_eq, hA⟩

/-- A register that holds a point of the curve reads as it. -/
theorem represents_affVal {p : Nat} {W : WeierstrassCurve.Affine (ZMod p)} {r : PointReg} {Q : W.Point}
    (h : holdsPoint r Q) : r.affVal.Represents Q := by
  obtain ⟨-, ⟨hinf, rfl⟩ | ⟨hinf, hx, hy, hns, rfl⟩⟩ := h
  · exact PointReg.affVal_of_inf hinf
  · rw [PointReg.affVal_of_finite (by simp [hinf])]
    exact ⟨.of_lt hx, .of_lt hy⟩

/-- The register written with the value of a point of the curve holds it (R183). -/
theorem holdsPoint_toReg {p : Nat} {W : WeierstrassCurve.Affine (ZMod p)} {A : AffPoint} {Q : W.Point}
    (hp : p < 2 ^ 256) (h : A.Represents Q) (tag : CReg) : holdsPoint (A.toReg tag) Q := by
  refine ⟨AffPoint.toReg_rep A tag, ?_⟩
  cases Q with
  | zero =>
    obtain rfl : A = .inf := h
    exact .inl ⟨rfl, rfl⟩
  | some x y hns =>
    obtain ⟨m, n, rfl, ⟨hm, rfl⟩, ⟨hn, rfl⟩⟩ := AffPoint.HasCoords.exists_pt h
    have hmv := toNat_ofNat_of_lt hp hm
    have hnv := toNat_ofNat_of_lt hp hn
    refine .inr ⟨rfl, hmv.trans_lt hm, hnv.trans_lt hn, ?_⟩
    simp only [AffPoint.toReg, hmv, hnv]
    exact ⟨hns, trivial⟩

theorem represents_of_entryHoldsPoint {p : Nat} {W : WeierstrassCurve.Affine (ZMod p)} {e : TableEntry} {Q : W.Point}
    (h : entryHoldsPoint e Q) : (AffPoint.pt e.x.toNat e.y.toNat).Represents Q := by
  obtain ⟨hx, hy, hns, rfl⟩ := h
  exact ⟨.of_lt hx, .of_lt hy⟩

section Paths

variable {p k i : Nat} [Fact p.Prime] {c : Context} {Q : (curveOf p c).Point} {T : JacPoint} {I P : AffPoint}
  {e : TableEntry}

/-- The addition of one iteration keeps the tally at the multiple by the bits so far (R222). -/
theorem tallyStep_represents (hp : p < 2 ^ 256) (ha : c.a.toNat < p) (hT : T.Represents ((k % 2 ^ i) • Q))
    (hI : I.Represents (2 ^ i • Q)) :
    ∃ R, tallyStep p c.a.toNat k i T I = .ok R ∧ R.Represents ((k % 2 ^ (i + 1)) • Q) := by
  unfold tallyStep
  split
  · next h => exact mod_smul_add_of_testBit Q h ▸ hT.routedAdd hI hp ha
  · next h => exact ⟨T, rfl, mod_smul_of_not_testBit Q h ▸ hT⟩

/-- The general path's loop: the tally is the multiple by the bits so far, the increment the multiple by the bit's weight
(R222). -/
theorem smulLoop_represents (hp : p < 2 ^ 256) (ha : c.a.toNat < p) (left : Nat) : ∀ (i : Nat) (T : JacPoint)
    (I : AffPoint), T.Represents ((k % 2 ^ i) • Q) → I.Represents (2 ^ i • Q) →
    ∃ R, smulLoop p c.a.toNat k left i T I = .ok R ∧ R.Represents ((k % 2 ^ (i + left)) • Q) := by
  induction left with
  | zero => exact fun i T I hT _ => ⟨T, rfl, hT⟩
  | succ left ih =>
    intro i T I hT hI
    obtain ⟨T', hT', hTrep⟩ := tallyStep_represents hp ha hT hI
    rw [smulLoop, hT']
    cases left with
    | zero => exact ⟨T', rfl, hTrep⟩
    | succ left =>
      obtain ⟨I', hI', hIrep⟩ := hI.routedDbl hp ha
      rw [← two_nsmul, ← mul_nsmul, ← pow_succ] at hIrep
      obtain ⟨R, hR, hRrep⟩ := ih (i + 1) T' I' hTrep hIrep
      rw [show i + (left + 1 + 1) = i + 1 + (left + 1) by omega]
      exact ⟨R, bind_eq_ok.2 ⟨T', rfl, bind_eq_ok.2 ⟨I', hI', hR⟩⟩, hRrep⟩

/-- The general path computes the multiple (R222, R225). -/
theorem smulGeneral_represents (hp : p < 2 ^ 256) (ha : c.a.toNat < p) (hP : P.Represents Q) :
    ∃ A, smulGeneral p c.a.toNat k P = .ok A ∧ A.Represents (k • Q) := by
  obtain ⟨T, hT, hTrep⟩ := smulLoop_represents (k := k) (Q := Q) hp ha (bitlen k) 0 jacInf P
    (by rw [pow_zero, Nat.mod_one, zero_nsmul]; exact represents_jacInf) (by rwa [pow_zero, one_nsmul])
  rw [Nat.zero_add, Nat.mod_eq_of_lt (lt_two_pow_bitlen k)] at hTrep
  obtain ⟨A, hA, hArep⟩ := hTrep.toAff
  exact ⟨A, bind_eq_ok.2 ⟨T, hT, hA⟩, hArep⟩

/-- One iteration of the fast path keeps the tally at the multiple by the bits so far (R223). -/
theorem tableStep_represents (hp : p < 2 ^ 256) (ha : c.a.toNat < p) (he : entryHoldsPoint e (2 ^ i • Q))
    (hT : T.Represents ((k % 2 ^ i) • Q)) :
    ∃ R, tableStep p c.a.toNat k i e T = .ok R ∧ R.Represents ((k % 2 ^ (i + 1)) • Q) := by
  by_cases h : k.testBit i = true
  · rw [tableStep_of_inField h he.1 he.2.1, ← mod_smul_add_of_testBit Q h]
    exact hT.routedAdd (represents_of_entryHoldsPoint he) hp ha
  · exact ⟨T, tableStep_of_unselected h, mod_smul_of_not_testBit Q h ▸ hT⟩

end Paths

section Results

variable {s : State} {p : Nat} [Fact p.Prime] {c : CReg} {o : ScalarOperands}

/-- The fast path computes the multiple from a table of the doublings (R223, R225). -/
theorem smulTable_represents {k : Nat} {G : (curveOf p (s.readCtx c)).Point} (hmod : s.modulus c = p)
    (ha : (s.readCtx c).a.toNat < p) (hk : k < 2 ^ 256)
    (htable : ∀ i : Fin 256, entryHoldsPoint (s.readTable i) (2 ^ i.val • G)) :
    ∃ A, s.smulTable k c = .ok A ∧ A.Represents (k • G) := by
  have hp : p < 2 ^ 256 := hmod ▸ BitVec.isLt _
  obtain ⟨T, hT, hTrep⟩ := smulTableLoop_invariant (p := p) (a := s.coeffA c) (k := k) (n := 256) (T := jacInf)
    (entry := fun i => s.readTable (Fin.ofNat 256 i)) (Inv := fun j T => T.Represents ((k % 2 ^ j) • G))
    (fun j hj T hT => by
      have he := htable (Fin.ofNat 256 j)
      rw [Fin.val_ofNat, Nat.mod_eq_of_lt hj] at he
      exact tableStep_represents hp ha he hT)
    (by rw [pow_zero, Nat.mod_one, zero_nsmul]; exact represents_jacInf)
  rw [Nat.mod_eq_of_lt hk] at hTrep
  obtain ⟨A, hA, hArep⟩ := hTrep.toAff
  rw [State.smulTable, hmod]
  exact ⟨A, bind_eq_ok.2 ⟨T, hT, hA⟩, hArep⟩

/-- SMULG's result is the multiple (R227, R225). -/
theorem smulgResult_represents {G : (curveOf p (s.readCtx o.c)).Point} (hmod : s.modulus o.c = p)
    (ha : (s.readCtx o.c).a.toNat < p) (hk : o.k < 2 ^ 256)
    (htable : ∀ i : Fin 256, entryHoldsPoint (s.readTable i) (2 ^ i.val • G)) :
    ∃ A, s.smulgResult o = .ok A ∧ A.Represents (o.k • G) := by
  unfold State.smulgResult
  split
  · next h => exact ⟨.inf, rfl, by rw [h, zero_nsmul]; rfl⟩
  · exact smulTable_represents hmod ha hk htable

/-- SMUL's result is the multiple, on each of its paths (R226, R225). -/
theorem smulResult_represents {Q : (curveOf p (s.readCtx o.c)).Point} (hmod : s.modulus o.c = p)
    (ha : (s.readCtx o.c).a.toNat < p) (hk : o.k < 2 ^ 256) (hP : o.P.Represents Q)
    (htable : s.isG o.P o.c = true →
      s.tvalid = true ∧ ∀ i : Fin 256, entryHoldsPoint (s.readTable i) (2 ^ i.val • Q)) :
    ∃ A, s.smulResult o = .ok A ∧ A.Represents (o.k • Q) := by
  have hp : p < 2 ^ 256 := hmod ▸ BitVec.isLt _
  unfold State.smulResult
  rw [hmod]
  split_ifs with h0 hinf h2 hG
  · exact ⟨.inf, rfl, by rw [h0, zero_nsmul]; rfl⟩
  · have hQ : Q = 0 := by
      cases Q with
      | zero => rfl
      | some x y hns => rw [hinf] at hP; exact hP.elim
    exact ⟨.inf, rfl, by rw [hQ, nsmul_zero]; rfl⟩
  · rw [h2, two_nsmul]
    exact hP.routedDbl hp ha
  · obtain ⟨htv, hentries⟩ := htable hG
    rw [htv]
    exact smulTable_represents hmod ha hk hentries
  · exact smulGeneral_represents hp ha hP

end Results

end Sys2Proof.Machine
end

section
/-! SUPPORT. The proofs of the statements about SMUL and SMULG: each command is its checks in order and then the result of
its path, whose errors and whose use of the table are said once (spec/43_scalar.md R223 to R228; spec/60_exceptions.md
R288, R295). -/

namespace Sys2Proof.Machine

/-! ### SMUL and SMULG on operands they accept (R226, R227) -/

/-- What the operands of SMUL and SMULG read as. -/
def State.scalarValues (s : State) (k : KReg) (a : PReg) : ScalarOperands :=
  ⟨(s.readK k).val.toNat, (s.readPt a).affVal, (s.readPt a).tag⟩

section Commands

variable {s t : State} {d : PReg} {k : KReg} {a : PReg} {rest : List (Bool × BitVec 5)}

/-- SMUL and SMULG are the outcome of their operand checks and of what their computation does on operands that pass
them. -/
theorem finish_scalar_outcome {f : ScalarOperands → Except Err State}
    (h : s.scalarReady k a → s.finish (f (s.scalarValues k a)) = s.outcome rest t) :
    s.finish (s.scalarOperands k a >>= f) = s.outcome (s.scalarChecks k a ++ rest) t := by
  rw [finish_scalarOperands_bind]
  refine ite_congr rfl (fun hv => ite_congr decide_eq_true_eq.symm (fun hctx => ite_congr decide_eq_true_eq.symm
    (fun hrep => ite_congr decide_eq_true_eq.symm (fun hc => ?_) fun _ => rfl) fun _ => rfl) fun _ => rfl) fun _ => rfl
  rw [Bool.and_eq_true] at hv
  exact h ⟨hv.1, hv.2, of_decide_eq_true hctx, of_decide_eq_true hrep, of_decide_eq_true hc⟩

/-- The generator check on the operands is the one on the registers (R224). -/
theorem isG_scalarValues (s : State) (k : KReg) (a : PReg) :
    s.isG (s.scalarValues k a).P (s.scalarValues k a).c = decide (s.holdsGenerator a) := by
  rw [Bool.eq_iff_iff, decide_eq_true_eq]
  cases hinf : (s.readPt a).inf <;>
    simp [State.isG, State.scalarValues, State.holdsGenerator, PointReg.affVal, hinf, BitVec.toNat_inj,
      Config.secp256k1Id]

/-- SMUL is its operand checks and then its result (R226). -/
theorem exec_smul_outcome
    (h : s.scalarReady k a →
      s.finish (s.smulResult (s.scalarValues k a) >>= fun R => pure (s.writeAff d R (s.readPt a).tag))
        = s.outcome rest t) :
    exec (.smul d k a) s = s.outcome (s.scalarChecks k a ++ rest) t := finish_scalar_outcome h

/-- SMULG is its operand checks, the check of the generator and of TVALID, and then its result (R227). -/
theorem exec_smulg_outcome
    (h : s.scalarReady k a → s.holdsGenerator a → s.tvalid = true →
      s.finish (s.smulgResult (s.scalarValues k a) >>= fun R => pure (s.writeAff d R (s.readPt a).tag))
        = s.outcome rest t) :
    exec (.smulg d k a) s
      = s.outcome (s.scalarChecks k a ++ (decide (s.holdsGenerator a), 10) :: (s.tvalid, 13) :: rest) t := by
  refine finish_scalar_outcome fun hready => ?_
  rw [isG_scalarValues]
  exact finish_ensure_outcome fun hG => finish_ensure_outcome fun htv => h hready (of_decide_eq_true hG) htv

theorem scalarChecks_hold (h : s.scalarReady k a) : ∀ c ∈ s.scalarChecks k a, c.1 = true := by
  obtain ⟨hk, hv, hctx, hrep, hc⟩ := h
  simp [State.scalarChecks, hk, hv, hctx, hrep, hc]

theorem scalarOperands_of_ready (h : s.scalarReady k a) : s.scalarOperands k a = .ok (s.scalarValues k a) := by
  obtain ⟨hk, hv, hctx, hrep, hc⟩ := h
  exact scalarOperands_eq_ok.2 ⟨hk, hv, hctx, hrep, hc, rfl⟩

/-- SMUL of accepted operands completes with its result (R226). -/
theorem exec_smul_of_ready (h : s.scalarReady k a) :
    exec (.smul d k a) s
      = s.finish (s.smulResult (s.scalarValues k a) >>= fun R => pure (s.writeAff d R (s.readPt a).tag)) := by
  change execSmul d k a s = _
  rw [execSmul, scalarOperands_of_ready h]; rfl

/-- SMULG of accepted operands, with a valid table, completes with its result (R227). -/
theorem exec_smulg_of_ready (h : s.scalarReady k a) (hG : s.holdsGenerator a) (htv : s.tvalid = true) :
    exec (.smulg d k a) s
      = s.finish (s.smulgResult (s.scalarValues k a) >>= fun R => pure (s.writeAff d R (s.readPt a).tag)) := by
  change execSmulg d k a s = _
  rw [execSmulg, scalarOperands_of_ready h]
  change s.finish (ensure (s.isG (s.scalarValues k a).P (s.scalarValues k a).c) _ >>= _) = _
  rw [isG_scalarValues, decide_eq_true hG, htv]; rfl

/-- A computed point of the curve is written to `PT[d]`, and nothing else changes (R183, R285). -/
theorem finish_writeAff_holdsPoint {p : Nat} {W : WeierstrassCurve.Affine (ZMod p)} {X : Except Err AffPoint}
    {Q : W.Point} {tag : CReg} (hp : p < 2 ^ 256) (hX : ∃ A, X = .ok A ∧ A.Represents Q) :
    ∃ r : PointReg,
      s.finish (X >>= fun A => pure (s.writeAff d A tag))
        = .next (State.succeeded { s with pt := s.pt.set d.val r d.isLt })
      ∧ r.v = true ∧ r.tag = tag ∧ holdsPoint r Q := by
  obtain ⟨A, rfl, hA⟩ := hX
  refine ⟨A.toReg tag, ?_, by cases A <;> rfl, AffPoint.toReg_tag A tag, holdsPoint_toReg hp hA tag⟩
  change s.finish (pure (s.writeAff d A tag)) = _
  rw [State.writeAff_eq_writePt]; rfl

end Commands

/-! ### The branches of the two results (R226, R227) -/

section Branches

variable {s : State} {o : ScalarOperands} {x y : Nat}

theorem smulResult_of_zero (h : o.k = 0) : s.smulResult o = .ok .inf := if_pos h

theorem smulResult_of_inf (h : o.P = .inf) : s.smulResult o = .ok .inf := by
  rw [State.smulResult, if_pos h, ite_self]

theorem smulResult_of_two (h : o.k = 2) (hP : o.P = .pt x y) :
    s.smulResult o = routedDbl (s.modulus o.c) (s.coeffA o.c) (.pt x y) := by
  simp [State.smulResult, h, hP]

theorem smulResult_of_general (h0 : o.k ≠ 0) (h2 : o.k ≠ 2) (hP : o.P = .pt x y) (hG : s.isG o.P o.c = false) :
    s.smulResult o = smulGeneral (s.modulus o.c) (s.coeffA o.c) o.k (.pt x y) := by
  rw [State.smulResult, if_neg h0, if_neg (by simp [hP]), if_neg h2, hG, hP]; rfl

/-- The fast path of SMUL (R226). -/
theorem smulResult_of_isG (h0 : o.k ≠ 0) (h2 : o.k ≠ 2) (hG : s.isG o.P o.c = true) (htv : s.tvalid = true) :
    s.smulResult o = s.smulTable o.k o.c := by
  have hP : o.P ≠ .inf := fun h => by simp [State.isG, h] at hG
  rw [State.smulResult, if_neg h0, if_neg hP, if_neg h2, if_pos hG, htv]; rfl

theorem smulgResult_of_zero (h : o.k = 0) : s.smulgResult o = .ok .inf := if_pos h

theorem smulgResult_of_ne_zero (h : o.k ≠ 0) : s.smulgResult o = s.smulTable o.k o.c := if_neg h

/-- The general path by 1: the point is put into the tally and converted back. -/
theorem smulGeneral_one (p a x y : Nat) : smulGeneral p a 1 (.pt x y) = .ok (.pt x y) := by
  have h1 : bitlen 1 = 1 := rfl
  rw [smulGeneral, h1]
  exact toAff_toJac p (.pt x y)

end Branches

/-! ### Small scalars (R226) -/

/-- Settles O50: each clause is one branch of SMUL's choice of path. -/
theorem smulSmallScalars : Obligations.SmulSmallScalars := by
  unfold Obligations.SmulSmallScalars
  intro s d k a r p
  refine ⟨fun h => ?_, fun hk hinf => ?_, fun hk hinf hG => ?_⟩
  · refine exec_smul_outcome (rest := []) fun _ => ?_
    have hres : s.smulResult (s.scalarValues k a) = .ok .inf := by
      rcases h with h | h
      · exact smulResult_of_zero (toNat_eq_zero_iff.2 h)
      · exact smulResult_of_inf (PointReg.affVal_of_inf h)
    rw [hres]; rfl
  · have hP : (s.scalarValues k a).P = .pt r.x.toNat r.y.toNat := PointReg.affVal_of_finite (by simp [r, hinf])
    refine exec_smul_outcome (rest := []) fun ⟨_, _, ⟨_, _, hA⟩, _, hc⟩ => ?_
    obtain ⟨hx, hy⟩ := hc.affine (by simp [r, hinf])
    rw [smulResult_of_two (by rw [State.scalarValues, hk]; rfl) hP, routedDbl]
    change s.finish ((if fadd p r.y.toNat r.y.toNat = 0 then _ else affDbl p (s.ptCoeffA a) _) >>= _) = _
    rw [fadd_self hy]
    split
    · rfl
    · next h2y =>
      exact (finish_affDbl_outcome (s.ptMod_lt a) hA hx hy).trans (if_pos (decide_eq_true h2y))
  · have hP : (s.scalarValues k a).P = .pt r.x.toNat r.y.toNat := PointReg.affVal_of_finite (by simp [r, hinf])
    have h1 : (s.scalarValues k a).k = 1 := toNat_eq_one_iff.2 hk
    refine exec_smul_outcome (rest := []) fun _ => ?_
    rw [smulResult_of_general (by simp [h1]) (by simp [h1]) hP (by rw [isG_scalarValues]; exact decide_eq_false hG), h1,
      smulGeneral_one]
    rfl

/-! ### The errors of the two paths (R220 to R223) -/

/-- The errors that scalar multiplication raises behind its operand checks. -/
abbrev Err.OfPath (e : Err) : Prop :=
  e ∈ [Err.noInverse, .mixedAddPrecondition, .degenerateAdd, .invalidFieldElement, .tableUnavailable]

/-- TableDomainMismatch is none of them (R295). -/
theorem Err.OfPath.code_ne_ten {e : Err} (h : e.OfPath) : e.code ≠ 10 := by
  revert h
  cases e <;> decide

/-- The computation raises errors of the two paths alone. -/
def RaisesOfPath {α : Type} (r : Except Err α) : Prop := ∀ e, r = .error e → e.OfPath

section RaisesOfPath

variable {α β : Type}

theorem RaisesOfPath.ok (x : α) : RaisesOfPath (.ok x : Except Err α) := fun _ h => nomatch h

theorem RaisesOfPath.error {e : Err} (h : e.OfPath) : RaisesOfPath (.error e : Except Err α) := by
  rintro e' ⟨⟩
  exact h

theorem RaisesOfPath.bind {x : Except Err α} {k : α → Except Err β} (hx : RaisesOfPath x)
    (hk : ∀ a, RaisesOfPath (k a)) : RaisesOfPath (x >>= k) := by
  cases x with
  | ok a => exact hk a
  | error e => exact .error (hx e rfl)

theorem RaisesOfPath.ite {c : Prop} [Decidable c] {x y : Except Err α} (hx : RaisesOfPath x) (hy : RaisesOfPath y) :
    RaisesOfPath (if c then x else y) := by
  split
  · exact hx
  · exact hy

theorem raisesOfPath_checkVal (x p : Nat) : RaisesOfPath (checkVal x p) := .ite (.ok _) (.error (by decide))

theorem raisesOfPath_finv (p b : Nat) : RaisesOfPath (finv p b) := .ite (.error (by decide)) (.ok _)

theorem raisesOfPath_routedDbl (p a : Nat) (P : AffPoint) : RaisesOfPath (routedDbl p a P) := by
  cases P with
  | inf => exact .ok _
  | pt x y => exact .ite (.ok _) (.bind (raisesOfPath_finv _ _) fun _ => .ok _)

theorem raisesOfPath_jacMAdd (p : Nat) (P Q : JacPoint) : RaisesOfPath (jacMAdd p P Q) :=
  .ite (.error (by decide)) (.ite (.error (by decide)) (.ok _))

theorem raisesOfPath_routedAdd (p a : Nat) (T : JacPoint) (P : AffPoint) : RaisesOfPath (routedAdd p a T P) := by
  cases P with
  | inf => exact .ok _
  | pt x y =>
    exact .ite (.ok _) (.ite (.error (by decide))
      (.ite (.bind (raisesOfPath_routedDbl _ _ _) fun _ => .ok _) (.ite (.ok _) (raisesOfPath_jacMAdd _ _ _))))

theorem raisesOfPath_toAff (p : Nat) (P : JacPoint) : RaisesOfPath (toAff p P) :=
  .ite (.ok _) (.ite (.ok _) (.bind (raisesOfPath_finv _ _) fun _ => .ok _))

theorem raisesOfPath_smulLoop (p a k left : Nat) : ∀ i T I, RaisesOfPath (smulLoop p a k left i T I) := by
  induction left with
  | zero => exact fun _ _ _ => .ok _
  | succ left ih =>
    exact fun i T I => .bind (.ite (raisesOfPath_routedAdd _ _ _ _) (.ok _)) fun _ =>
      .bind (.ite (.ok _) (raisesOfPath_routedDbl _ _ _)) fun _ => ih _ _ _

theorem raisesOfPath_smulTableLoop (p a k : Nat) (entry : Nat → TableEntry) (left : Nat) :
    ∀ i T, RaisesOfPath (smulTableLoop p a k entry left i T) := by
  induction left with
  | zero => exact fun _ _ => .ok _
  | succ left ih =>
    exact fun i T => .bind (.ite (.bind (raisesOfPath_checkVal _ _) fun _ => .bind (raisesOfPath_checkVal _ _) fun _ =>
      raisesOfPath_routedAdd _ _ _ _) (.ok _)) fun _ => ih _ _

theorem raisesOfPath_smulResult (s : State) (o : ScalarOperands) : RaisesOfPath (s.smulResult o) :=
  .ite (.ok _) (.ite (.ok _) (.ite (raisesOfPath_routedDbl _ _ _) (.ite
    (.bind (.ite (.ok _) (.error (by decide))) fun _ =>
      .bind (raisesOfPath_smulTableLoop _ _ _ _ _ _ _) fun _ => raisesOfPath_toAff _ _)
    (.bind (raisesOfPath_smulLoop _ _ _ _ _ _ _) fun _ => raisesOfPath_toAff _ _))))

end RaisesOfPath

/-- An outcome's code is 0 or that of a check. -/
theorem code_ne_of_outcome {s t u : State} {l : List (Bool × BitVec 5)} {n : BitVec 5} (hn : n ≠ 0)
    (hl : ∀ c ∈ l, c.2 ≠ n) (h : s.outcome l u = .next t) : t.code ≠ n := by
  induction l with
  | nil =>
    obtain rfl := Host.Outcome.next.inj h
    exact hn.symm
  | cons c l ih =>
    obtain ⟨holds, code⟩ := c
    obtain ⟨hcode, hl⟩ := List.forall_mem_cons.1 hl
    rw [State.outcome] at h
    split at h
    · exact ih hl h
    · obtain rfl := Host.Outcome.next.inj h
      exact hcode

/-- SMUL is the outcome of its operand checks, and of one error of its path where there is one. -/
theorem exec_smul_eq_outcome (s : State) (d : PReg) (k : KReg) (a : PReg) :
    ∃ (l : List Err) (t : State), (∀ e ∈ l, e.OfPath)
      ∧ exec (.smul d k a) s = s.outcome (s.scalarChecks k a ++ l.map fun e => (false, e.code)) t := by
  cases h : s.smulResult (s.scalarValues k a) with
  | ok R => exact ⟨[], s.writeAff d R (s.readPt a).tag, by simp, exec_smul_outcome fun _ => by rw [h]; rfl⟩
  | error e =>
    exact ⟨[e], s, by simpa using raisesOfPath_smulResult s _ e h, exec_smul_outcome fun _ => by rw [h]; rfl⟩

/-- Settles O52: SMULG is the outcome of its checks, and no check of SMUL and no error of its paths has code 10. -/
theorem smulgChecksItsPoint : Obligations.SmulgChecksItsPoint := by
  unfold Obligations.SmulgChecksItsPoint
  intro s d k a checks
  refine ⟨fun hk => ?_, fun hfails => ?_, fun t ht => ?_⟩
  · refine exec_smulg_outcome (rest := []) fun _ _ _ => ?_
    rw [smulgResult_of_zero (toNat_eq_zero_iff.2 hk)]; rfl
  · refine exec_smulg_outcome (rest := []) fun hready hG htv => ?_
    have hall : ∀ c ∈ checks, c.1 = true :=
      List.forall_mem_append.2 ⟨scalarChecks_hold hready, by simp [hG, htv]⟩
    obtain ⟨c, hc, hfalse⟩ := hfails
    exact Bool.noConfusion (hfalse.symm.trans (hall c hc))
  · obtain ⟨l, u, hl, hout⟩ := exec_smul_eq_outcome s d k a
    refine code_ne_of_outcome (by decide) (List.forall_mem_append.2 ⟨by simp [State.scalarChecks], ?_⟩)
      (hout.symm.trans ht)
    simpa using fun e he => (hl e he).code_ne_ten

/-! ### The table entries that are used (R223, R288) -/

section Entries

variable {s : State} {d : PReg} {c : CReg} {n : Nat} {entries : Vector TableEntry 256}

theorem finOfNat_eq {j : Nat} (hj : j < 256) : Fin.ofNat 256 j = ⟨j, hj⟩ := Fin.ext (Nat.mod_eq_of_lt hj)

/-- The fast path reads the selected entries of the table alone (R223). -/
theorem smulTable_withTable (hn : n < 2 ^ 256)
    (h : ∀ i : Fin 256, n.testBit i.val = true → entries.get i = s.readTable i) :
    { s with table := entries }.smulTable n c = s.smulTable n c := by
  have hentry (j : Nat) (hj : n.testBit j = true) : entries.get (Fin.ofNat 256 j) = s.readTable (Fin.ofNat 256 j) := by
    have hlt : j < 256 := by
      by_contra hge
      rw [Nat.testBit_lt_two_pow (hn.trans_le (Nat.pow_le_pow_right (by decide) (Nat.le_of_not_lt hge)))] at hj
      exact Bool.noConfusion hj
    exact h _ (by rwa [Fin.val_ofNat, Nat.mod_eq_of_lt hlt])
  exact congrArg (· >>= toAff (s.modulus c)) (smulTableLoop_congr hentry 256 0 jacInf)

/-- A command that computes the same point from another table leaves the same state but for the table. -/
theorem finish_withTable {x : Except Err ScalarOperands} {f g : ScalarOperands → Except Err AffPoint}
    (hfg : ∀ o, x = .ok o → g o = f o) :
    ∃ t, s.finish (x >>= fun o => f o >>= fun R => pure (s.writeAff d R o.c)) = .next t
      ∧ { s with table := entries }.finish
          (x >>= fun o => g o >>= fun R => pure ({ s with table := entries }.writeAff d R o.c))
        = .next { t with table := entries } := by
  cases x with
  | error e => exact ⟨_, rfl, rfl⟩
  | ok o =>
    change ∃ t, s.finish (f o >>= _) = _ ∧ State.finish _ (g o >>= _) = _
    rw [hfg o rfl]
    cases f o with
    | error e => exact ⟨_, rfl, rfl⟩
    | ok R => cases R <;> exact ⟨_, rfl, rfl⟩

/-- A selected entry out of range ends the fast path, where the lower selected ones are in range and the modulus is prime,
or there are none (R223, R288). -/
theorem smulTable_of_not_inField {i : Fin 256} (ha : s.coeffA c < s.modulus c) (hsel : n.testBit i.val = true)
    (hbad : ¬ ((s.readTable i).x.toNat < s.modulus c ∧ (s.readTable i).y.toNat < s.modulus c))
    (hlower : ∀ j < i, n.testBit j.val = true →
      (s.readTable j).x.toNat < s.modulus c ∧ (s.readTable j).y.toNat < s.modulus c)
    (hprime : (s.modulus c).Prime ∨ ∀ j < i, ¬ n.testBit j.val = true) :
    s.smulTable n c = .error .invalidFieldElement := by
  have hbad' : ¬ ((s.readTable (Fin.ofNat 256 i.val)).x.toNat < s.modulus c
      ∧ (s.readTable (Fin.ofNat 256 i.val)).y.toNat < s.modulus c) := by rwa [finOfNat_eq i.isLt]
  have hloop : smulTableLoop (s.modulus c) (s.coeffA c) n (fun i => s.readTable (Fin.ofNat 256 i)) 256 0 jacInf
      = .error .invalidFieldElement := by
    rcases hprime with hprime | hnone
    · have : Fact (s.modulus c).Prime := ⟨hprime⟩
      refine smulTableLoop_of_not_inField (Inv := fun T => ∃ A, T.Reads (s.modulus c) A) i.isLt
        (fun j hj T ⟨A, hT⟩ => ?_) ⟨.inf, reads_toJac (A := .inf) trivial⟩ hsel hbad'
      by_cases hjsel : n.testBit j = true
      · obtain ⟨hx, hy⟩ := hlower ⟨j, hj.trans i.isLt⟩ hj hjsel
        rw [finOfNat_eq (hj.trans i.isLt), tableStep_of_inField hjsel hx hy]
        obtain ⟨R, B, hR, -, hB⟩ := routedAdd_reads (p := s.modulus c) (P := .pt _ _) (BitVec.isLt _) ha hT ⟨hx, hy⟩
        exact ⟨R, hR, B, hB⟩
      · exact ⟨T, tableStep_of_unselected hjsel, A, hT⟩
    · exact smulTableLoop_of_not_inField (Inv := fun _ => True) i.isLt
        (fun j hj T _ => ⟨T, tableStep_of_unselected (hnone ⟨j, hj.trans i.isLt⟩ hj), trivial⟩) trivial hsel hbad'
  rw [State.smulTable, hloop]; rfl

end Entries

/-- Settles O53: the loop reads the selected entries alone, and stops at the first that is out of range. -/
theorem onlySelectedTableEntriesAreUsed : Obligations.OnlySelectedTableEntriesAreUsed := by
  unfold Obligations.OnlySelectedTableEntriesAreUsed
  intro s d k a entries selected inField
  refine ⟨fun hagree => ?_, fun hready hG htv i hsel hbad hlower hprime => ?_⟩
  · have htable (o : ScalarOperands) (ho : s.scalarOperands k a = .ok o) :
        { s with table := entries }.smulTable o.k o.c = s.smulTable o.k o.c := by
      obtain ⟨-, -, -, -, -, rfl⟩ := scalarOperands_eq_ok.1 ho
      exact smulTable_withTable (BitVec.isLt _) hagree
    obtain ⟨t, ht, ht'⟩ := finish_withTable (s := s) (d := d) (entries := entries) (x := s.scalarOperands k a)
      (f := s.smulResult) (g := { s with table := entries }.smulResult)
      fun o ho => by rw [State.smulResult, State.smulResult, htable o ho]; rfl
    obtain ⟨u, hu, hu'⟩ := finish_withTable (s := s) (d := d) (entries := entries) (x := s.scalarOperands k a)
      (f := fun o => ensure (s.isG o.P o.c) .tableDomainMismatch >>= fun _ =>
        ensure s.tvalid .tableUnavailable >>= fun _ => s.smulgResult o)
      (g := fun o => ensure (s.isG o.P o.c) .tableDomainMismatch >>= fun _ =>
        ensure s.tvalid .tableUnavailable >>= fun _ => { s with table := entries }.smulgResult o)
      fun o ho => by rw [State.smulgResult, State.smulgResult, htable o ho]
    simp only [bind_assoc] at hu hu'
    exact ⟨t, u, ht, hu, ht', hu'⟩
  · have ⟨_, _, ⟨_, _, hA⟩, _⟩ := hready
    have htable : s.smulTable (s.scalarValues k a).k (s.scalarValues k a).c = .error .invalidFieldElement :=
      smulTable_of_not_inField hA hsel hbad hlower hprime
    have h0 : (s.scalarValues k a).k ≠ 0 := ne_zero_of_testBit hsel
    rw [exec_smulg_of_ready hready hG htv, exec_smul_of_ready hready, smulgResult_of_ne_zero h0, htable]
    refine ⟨rfl, fun h2 => ?_⟩
    rw [smulResult_of_isG h0 (fun h => h2 (BitVec.eq_of_toNat_eq h)) (by rw [isG_scalarValues]; exact decide_eq_true hG)
      htv, htable]
    rfl

/-! ### The multiple in the group (R225) -/

/-- Settles O54: SMUL's result is the multiple, and no table is read. -/
theorem smulComputesTheGroupMultiple : Obligations.SmulComputesTheGroupMultiple := by
  unfold Obligations.SmulComputesTheGroupMultiple
  intro p _ s d k a hready hmod hG Q hQ
  have ⟨_, _, ⟨_, _, hA⟩, _⟩ := hready
  rw [exec_smul_of_ready hready]
  refine finish_writeAff_holdsPoint (hmod ▸ s.ptMod_lt a) (smulResult_represents (o := s.scalarValues k a) hmod
    (hmod ▸ hA) (BitVec.isLt _) (represents_affVal hQ) fun h => absurd ?_ hG)
  rwa [isG_scalarValues, decide_eq_true_eq] at h

/-- Settles O55: both commands' results are the multiple that the table gives. -/
theorem generatorTableGivesTheGroupMultiple : Obligations.GeneratorTableGivesTheGroupMultiple := by
  unfold Obligations.GeneratorTableGivesTheGroupMultiple
  intro p _ s d k a hready hmod hG htv G hGen htable
  have ⟨_, _, ⟨_, _, hA⟩, _⟩ := hready
  have hp : p < 2 ^ 256 := hmod ▸ s.ptMod_lt a
  rw [exec_smul_of_ready hready, exec_smulg_of_ready hready hG htv]
  obtain ⟨r, hr, hv, htag, hholds⟩ := finish_writeAff_holdsPoint (s := s) (d := d) (tag := (s.readPt a).tag) hp
    (smulgResult_represents (o := s.scalarValues k a) hmod (hmod ▸ hA) (BitVec.isLt _) htable)
  exact ⟨r, hr, hv, htag, hholds, finish_writeAff_holdsPoint hp (smulResult_represents (o := s.scalarValues k a) hmod
    (hmod ▸ hA) (BitVec.isLt _) (represents_affVal hGen) fun _ => ⟨htv, htable⟩)⟩

end Sys2Proof.Machine
end

section
/-! SUPPORT. The proofs of the statements about NOP, CTXLD, PDEC and PENC: bytes in big-endian order as a number, the number
behind a place of the wire buffer, and the bytes that PENC writes as the coordinates they make again
(spec/44_context_io.md R250 to R253). -/

namespace Sys2Proof.Machine

/-! ### Bytes in big-endian order (R252, R253) -/

/-- The number whose big-endian bytes are the first `n` of a sequence. -/
def bigEndian (bytes : Nat → Byte) : Nat → Nat
  | 0 => 0
  | n + 1 => 256 * bigEndian bytes n + (bytes n).toNat

theorem bigEndian_congr {f g : Nat → Byte} {n : Nat} (h : ∀ j < n, f j = g j) : bigEndian f n = bigEndian g n := by
  induction n with
  | zero => rfl
  | succ n ih => rw [bigEndian, bigEndian, ih fun j hj => h j (by omega), h n (by omega)]

/-- Weighting each byte by its place gives the number, in units of the place after the last byte. -/
theorem sum_weighted_bytes (bytes : Nat → Byte) {n last : Nat} (h : n ≤ last + 1) :
    ((List.range n).map fun j => (bytes j).toNat * 2 ^ (8 * (last - j))).sum
      = bigEndian bytes n * 2 ^ (8 * (last + 1 - n)) := by
  induction n with
  | zero => simp [bigEndian]
  | succ n ih =>
    have hplace : 2 ^ (8 * (last + 1 - n)) = 256 * 2 ^ (8 * (last - n)) := by
      rw [show 8 * (last + 1 - n) = 8 * (last - n) + 8 by omega, pow_add, mul_comm]; rfl
    rw [List.range_succ, List.map_append, List.sum_append, ih (by omega), hplace, bigEndian, Nat.add_sub_add_right,
      List.map_singleton, List.sum_singleton]
    ring

theorem toNat_coordByte (v : Value) (j : Nat) : (coordByte v j).toNat = v.toNat / 256 ^ (31 - j) % 256 := by
  rw [coordByte, BitVec.extractLsb'_toNat, Nat.shiftRight_eq_div_pow, pow_mul]; rfl

/-- The first `n` bytes of a coordinate are its value without the places below them. -/
theorem bigEndian_coordByte (v : Value) {n : Nat} (h : n ≤ 32) :
    bigEndian (coordByte v) n = v.toNat / 256 ^ (32 - n) := by
  induction n with
  | zero => exact (Nat.div_eq_of_lt v.isLt).symm
  | succ n ih =>
    rw [bigEndian, ih (by omega), toNat_coordByte, show 32 - n = 31 - n + 1 by omega, pow_succ, ← Nat.div_div_eq_div_mul,
      Nat.div_add_mod, show 31 - n = 32 - (n + 1) by omega]

/-! ### The wire buffer as numbers (R35, R252) -/

theorem State.wireByte_of_lt (s : State) {n : Nat} (h : n < 65) : s.wireByte n = s.wire.get ⟨n, h⟩ := dif_pos h

/-- The statement's number of wire bytes is that of the bytes themselves. -/
theorem State.wireNumber_eq_bigEndian (s : State) {start : Nat} (h : start + 32 ≤ 65) :
    s.wireNumber start = bigEndian (fun j => s.wireByte (start + j)) 32 := by
  have hfold : ∀ n ≤ 32, ((s.wire.toList.drop start).take n).foldl (fun acc b => 256 * acc + b.toNat) 0
      = bigEndian (fun j => s.wireByte (start + j)) n := by
    intro n hn
    induction n with
    | zero => rfl
    | succ n ih =>
      have hlt : n < (s.wire.toList.drop start).length := by simp; omega
      rw [List.take_succ_eq_append_getElem hlt, List.foldl_append, ih (by omega), bigEndian,
        s.wireByte_of_lt (by omega), List.getElem_drop, Vector.getElem_toList]
      rfl
  exact hfold 32 le_rfl

/-- PDEC's sum of weighted bytes is the statement's number. -/
theorem State.wireValue_eq_wireNumber (s : State) {start : Nat} (h : start + 32 ≤ 65) :
    s.wireValue start = s.wireNumber start := by
  rw [s.wireNumber_eq_bigEndian h]
  exact (sum_weighted_bytes (fun j => s.wireByte (start + j)) (last := 31) le_rfl).trans (mul_one _)

/-! ### The bytes PENC writes (R253) -/

section WireOf

variable (x y : Value)

theorem wireOf_tag : (wireOf x y).get 0 = 0x04 := get_fileOf ..

theorem wireOf_x {j : Fin 65} {n : Nat} (hj : j.val = 1 + n) (hn : n < 32) : (wireOf x y).get j = coordByte x n := by
  rw [wireOf, get_fileOf, if_neg (by omega), if_pos (by omega), hj, Nat.add_sub_cancel_left]

theorem wireOf_y {j : Fin 65} {n : Nat} (hj : j.val = 33 + n) : (wireOf x y).get j = coordByte y n := by
  rw [wireOf, get_fileOf, if_neg (by omega), if_neg (by omega), hj, Nat.add_sub_cancel_left]

variable {x y} {s : State}

/-- The X that PENC wrote is the number behind the tag. -/
theorem State.wireNumber_x (h : s.wire = wireOf x y) : s.wireNumber 1 = x.toNat := by
  rw [s.wireNumber_eq_bigEndian (by omega), bigEndian_congr (g := coordByte x), bigEndian_coordByte x le_rfl]
  · exact Nat.div_one _
  · intro j hj
    rw [s.wireByte_of_lt (by omega), h, wireOf_x x y rfl hj]

/-- The Y that PENC wrote is the number behind X. -/
theorem State.wireNumber_y (h : s.wire = wireOf x y) : s.wireNumber 33 = y.toNat := by
  rw [s.wireNumber_eq_bigEndian (by omega), bigEndian_congr (g := coordByte y), bigEndian_coordByte y le_rfl]
  · exact Nat.div_one _
  · intro j hj
    rw [s.wireByte_of_lt (by omega), h, wireOf_y x y rfl]

end WireOf

/-! ### The commands (R250 to R253) -/

/-- Settles O56: NOP has no check and no destination. -/
theorem nopOnlyCompletes : Obligations.NopOnlyCompletes := by
  unfold Obligations.NopOnlyCompletes
  exact fun s => finish_ok s s

/-- Settles O57: the one check is that of the domain id, and the context is the ROM's entry. -/
theorem ctxldLoadsSecp256k1 : Obligations.CtxldLoadsSecp256k1 := by
  unfold Obligations.CtxldLoadsSecp256k1
  intro s c dom
  exact finish_ensure_outcome fun _ => finish_pure_outcome rfl

/-- Settles O58: the two coordinate checks of one code are one check, and each number is the sum of its weighted bytes. -/
theorem pdecDecodesTheWireBuffer : Obligations.PdecDecodesTheWireBuffer := by
  unfold Obligations.PdecDecodesTheWireBuffer
  intro s d c
  change execPdec d c s = _
  simp only [execPdec, State.checkCtx, finish_ensure_bind, finish_checkVal_bind, usable_iff, State.outcome,
    s.wireValue_eq_wireNumber (start := 1) (by omega), s.wireValue_eq_wireNumber (start := 33) (by omega),
    Bool.and_eq_true, beq_iff_eq, decide_eq_true_eq, ite_and]
  rfl

/-- PENC is the outcome of its checks with the encoded point in the wire buffer (R253). -/
theorem exec_penc_eq_outcome (s : State) (a : PReg) :
    exec (.penc a) s
      = s.outcome (s.pointChecks a [(decide ((s.readPt a).rep = .affine), 6), (!(s.readPt a).inf, 11)])
          { s with wire := wireOf (s.readPt a).x (s.readPt a).y } :=
  finish_checkPoint_outcome fun _ _ => finish_ensure_outcome fun _ => finish_ensure_outcome fun _ =>
    finish_checkPt_outcome fun _ => finish_pure_outcome rfl

/-- Settles O59: the bytes are those of `wireOf`. -/
theorem pencEncodesIntoTheWireBuffer : Obligations.PencEncodesIntoTheWireBuffer := by
  unfold Obligations.PencEncodesIntoTheWireBuffer
  intro s a
  refine ⟨_, exec_penc_eq_outcome s a, wireOf_tag _ _, fun j => ⟨?_, ?_⟩⟩
  · rw [wireOf_x _ _ (Nat.mod_eq_of_lt (by omega)) j.isLt, toNat_coordByte]
  · rw [wireOf_y _ _ (Nat.mod_eq_of_lt (by omega)), toNat_coordByte]

/-- PENC of a finite affine point it accepts completes (R253). -/
theorem exec_penc_of_ready {s : State} {a : PReg} (h : s.pointReady a) (hrep : (s.readPt a).rep = .affine)
    (hinf : (s.readPt a).inf = false) :
    exec (.penc a) s = .next (State.succeeded { s with wire := wireOf (s.readPt a).x (s.readPt a).y }) := by
  obtain ⟨hv, hctx, hc⟩ := h
  rw [exec_penc_eq_outcome, outcome_of_all (by simp [State.pointChecks, hv, hctx, hrep, hinf, hc])]

/-- PDEC of the bytes PENC writes completes with the coordinates they were written for (R252, R253). -/
theorem exec_pdec_of_wireOf {s : State} {d : PReg} {c : CReg} {x y : Value} (hctx : s.ctxReady c)
    (hwire : s.wire = wireOf x y) (hx : x.toNat < s.modulus c) (hy : y.toNat < s.modulus c) :
    exec (.pdec d c) s = .next (s.withAffine d x.toNat y.toNat c).succeeded := by
  have htag : s.wire.get 0 = 0x04 := hwire ▸ wireOf_tag x y
  refine (pdecDecodesTheWireBuffer s d c).trans ?_
  rw [s.wireNumber_x hwire, s.wireNumber_y hwire]
  exact outcome_of_all (by simpa [hctx, htag] using ⟨hx, hy⟩)

theorem State.readPt_withAffine (s : State) (d : PReg) (x y : Value) (tag : CReg) :
    (s.withAffine d x.toNat y.toNat tag).readPt d
      = { x := x, y := y, z := 0, tag := tag, rep := .affine, inf := false, v := true } := by
  refine (s.readPt_writePt d _).trans ?_
  rw [BitVec.ofNat_toNat, BitVec.ofNat_toNat, BitVec.setWidth_eq, BitVec.setWidth_eq]

/-- Settles O60: PENC writes the bytes of the point's coordinates, and PDEC makes the coordinates of them again. -/
theorem wireRoundTripKeepsThePoint : Obligations.WireRoundTripKeepsThePoint := by
  unfold Obligations.WireRoundTripKeepsThePoint
  intro s a d hv hctx hrep hinf hc
  obtain ⟨hx, hy⟩ := hc.affine (by simp [hinf])
  refine ⟨_, _, exec_penc_of_ready ⟨hv, hctx, hc⟩ hrep hinf, rfl, exec_pdec_of_wireOf hctx rfl hx hy, rfl, ?_⟩
  rw [← completeOk_eq_succeeded, State.readPt_completeOk, State.readPt_withAffine]
  exact ⟨rfl, rfl, rfl, rfl, rfl⟩

end Sys2Proof.Machine
end

section
/-! SUPPORT. The proofs of the statements about the machine's steps: what any completion leaves, what any host write can
do, and from the cases of a step that CODE is assigned, that regular runs never stop, and how IRQ ends
(spec/60_exceptions.md R280, R281, R294, R304 to R307; spec/70_reset_and_hazards.md R340). -/

namespace Sys2Proof.Machine

/-! ### What every completion leaves (R280 to R285) -/

theorem State.codeLegal.of_code_eq {s t : State} (h : s.codeLegal) (e : t.code = s.code) : t.codeLegal := by
  unfold State.codeLegal at h ⊢
  rwa [e]

theorem State.codeLegal_of_code_zero {s : State} (h : s.code = 0) : s.codeLegal := by
  unfold State.codeLegal
  rw [h]
  decide

/-- `t` is done, with an assigned code, and with the host's enable and pending inputs as in `s`. -/
structure State.CompletesTo (s t : State) : Prop where
  inputs : t.inputs = s.inputs
  ie : t.ie = s.ie
  done : t.done = true
  codeLegal : t.codeLegal

theorem Writes.completesTo {i : Instr} {s u : State} (h : Writes i s u) : s.CompletesTo u.completeOk := by
  obtain ⟨-, -, hie, -, -, -, -, -, -, -, -, hinputs, -, -⟩ := h.frame
  exact ⟨hinputs, hie, rfl, State.codeLegal_of_code_zero rfl⟩

theorem State.completesTo_completeErr (s : State) {e : Err} (h : e ≠ .negativeScalarUnsupported) :
    s.CompletesTo (s.completeErr e) :=
  ⟨rfl, rfl, rfl, e.code_le, Err.code_ne_nine h⟩

theorem exec_completesTo (i : Instr) (s : State) : ∃ t, exec i s = .next t ∧ s.CompletesTo t := by
  rcases exec_cases i s with ⟨u, hu, hw⟩ | ⟨e, he, hne⟩
  · exact ⟨_, hu, hw.completesTo⟩
  · exact ⟨_, he, s.completesTo_completeErr hne⟩

theorem completeInFlight_completesTo (s : State) : ∃ t, completeInFlight s = .next t ∧ s.CompletesTo t := by
  rcases completeInFlight_cases s with ⟨i, u, -, hu, hw⟩ | ⟨e, he, hne⟩
  · exact ⟨_, hu, hw.completesTo⟩
  · exact ⟨_, he, s.completesTo_completeErr hne⟩

theorem completesTo_of_exec {i : Instr} {s t : State} (h : exec i s = .next t) : s.CompletesTo t := by
  obtain ⟨t', ht', hc⟩ := exec_completesTo i s
  exact Host.Outcome.next.inj (ht'.symm.trans h) ▸ hc

theorem completesTo_of_completeInFlight {s t : State} (h : completeInFlight s = .next t) : s.CompletesTo t := by
  obtain ⟨t', ht', hc⟩ := completeInFlight_completesTo s
  exact Host.Outcome.next.inj (ht'.symm.trans h) ▸ hc

/-! ### What a host write can do (R37 to R39, R77 to R80, R321) -/

/-- Everything a host write of one word can do: write data (nothing, where the place is read-only), be dropped with OVF,
act on CTRL or STATUS, or have a command accepted. -/
theorem State.writeLoc_cases (s : State) (loc : Loc) (w : Word) :
    s.writeLoc loc w = s.writeData loc w ∨ s.writeLoc loc w = { s with ovf := true }
      ∨ (loc = .ctrl ∧ w.getLsbD 1 = true ∧ s.writeLoc loc w = s.softReset)
      ∨ (loc = .ctrl ∧ ∃ tv, s.writeLoc loc w = { s with ie := w.getLsbD 0, tvalid := tv })
      ∨ (loc = .status ∧ s.writeLoc loc w = s.writeStatus w)
      ∨ (loc = .cmd ∧ s.busy = false ∧ s.writeLoc loc w = s.accept w) := by
  by_cases hd : loc.isData = true
  · rw [State.writeLoc_of_isData s w hd]
    split
    · exact .inr (.inl rfl)
    · exact .inl rfl
  cases loc
  case id | errcmd | reserved => exact .inl rfl
  case status => exact .inr (.inr (.inr (.inr (.inl ⟨rfl, rfl⟩))))
  case ctrl =>
    cases hsrst : w.getLsbD 1 with
    | true => exact .inr (.inr (.inl ⟨rfl, rfl, s.writeCtrl_of_srst hsrst⟩))
    | false => exact .inr (.inr (.inr (.inl ⟨rfl, _, s.writeCtrl_of_not_srst hsrst⟩)))
  case cmd =>
    by_cases hbusy : s.busy = true
    · exact .inr (.inl (s.writeCmd_busy w hbusy))
    · have hidle : s.busy = false := eq_false_of_ne_true hbusy
      exact .inr (.inr (.inr (.inr (.inr ⟨rfl, hidle, s.writeCmd_idle w hidle⟩))))
  all_goals exact absurd rfl hd

/-- A data write touches neither CODE nor what IRQ is made of (R79). -/
theorem State.code_ie_done_writeData (s : State) (loc : Loc) (w : Word) :
    (s.writeData loc w).code = s.code ∧ (s.writeData loc w).ie = s.ie ∧ (s.writeData loc w).done = s.done := by
  obtain ⟨hie, -, -, hdone, -, -, -, hcode, -⟩ := s.writeData_frame loc w
  exact ⟨hcode, hie, hdone⟩

/-! ### CODE (R281, R294) -/

/-- A host write keeps CODE, or clears it by a reset. -/
theorem State.codeLegal.writeLoc {s : State} (h : s.codeLegal) (loc : Loc) (w : Word) :
    (s.writeLoc loc w).codeLegal := by
  rcases s.writeLoc_cases loc w with e | e | ⟨-, -, e⟩ | ⟨-, _, e⟩ | ⟨-, e⟩ | ⟨-, -, e⟩ <;> rw [e]
  · exact h.of_code_eq (s.code_ie_done_writeData loc w).1
  · exact h.of_code_eq rfl
  · exact State.codeLegal_of_code_zero rfl
  · exact h.of_code_eq rfl
  · exact h.of_code_eq rfl
  · exact h.of_code_eq rfl

/-- Settles O24, by the cases of a step: a completion writes an assigned code, a reset clears CODE, and every other step
keeps it. -/
theorem completionCodeIsAlwaysAssigned : Obligations.CompletionCodeIsAlwaysAssigned := by
  unfold Obligations.CompletionCodeIsAlwaysAssigned
  intro s t h hstep
  rcases step_cases hstep with ⟨-, _, hc⟩ | ⟨_, _, _, _, -, rfl⟩ | ⟨off, w, rest, -, -, rfl⟩ | ⟨_, -, rfl⟩
    | ⟨-, _, _, rfl⟩
  · exact (completesTo_of_completeInFlight hc).codeLegal
  · exact h.of_code_eq rfl
  · exact State.codeLegal.writeLoc (s := { s with inputs := rest }) (h.of_code_eq rfl) (locate off) w
  · exact State.codeLegal_of_code_zero rfl
  · exact h.of_code_eq rfl

/-! ### Regular runs (R304) -/

theorem State.inputs_writeLoc (s : State) (loc : Loc) (w : Word) : (s.writeLoc loc w).inputs = s.inputs := by
  rcases s.writeLoc_cases loc w with e | e | ⟨-, -, e⟩ | ⟨-, _, e⟩ | ⟨-, e⟩ | ⟨-, -, e⟩ <;> rw [e]
  · exact s.inputs_writeData loc w
  all_goals rfl

/-- A step whose next input is regular answers a next state, and takes that input or leaves it pending. -/
theorem step_of_regular {s : State} {i : Input} {rest : List Input} (hin : s.inputs = i :: rest)
    (hi : i.regular = true) : ∃ t, step s = .next t ∧ (t.inputs = s.inputs ∨ t.inputs = rest) := by
  cases i with
  | read off =>
    obtain ⟨_, _, hread⟩ := readsChangeNothing s off rest (beq_iff_eq.1 hi)
    rw [← hin] at hread
    exact ⟨_, hread, .inr rfl⟩
  | write off w =>
    have hwrite := step_write s w rest (beq_iff_eq.1 hi)
    rw [← hin] at hwrite
    exact ⟨_, hwrite, .inr (State.inputs_writeLoc _ _ w)⟩
  | irregular off bytes => exact absurd hi Bool.false_ne_true
  | wait =>
    by_cases hbusy : s.busy = true
    · obtain ⟨t, ht, hc⟩ := completeInFlight_completesTo s
      exact ⟨t, (step_of_nil_or_wait hbusy (.inr hin)).trans ht, .inl hc.inputs⟩
    · exact ⟨{ s with inputs := rest, rdata := s.statusWord }, by simp [step, nextStep, hin, hbusy], .inr rfl⟩
  | complete =>
    by_cases hbusy : s.busy = true
    · obtain ⟨t, ht, hc⟩ := completeInFlight_completesTo { s with inputs := rest }
      exact ⟨t, (step_complete hbusy hin).trans ht, .inr hc.inputs⟩
    · exact ⟨{ s with inputs := rest }, by simp [step, nextStep, hin, hbusy], .inr rfl⟩
  | hardReset => exact ⟨({ s with inputs := rest } : State).hardReset, by simp only [step, nextStep, hin], .inr rfl⟩

theorem step_of_no_input {s : State} (hin : s.inputs = []) : ∃ t, step s = .next t ∧ t.inputs = s.inputs := by
  by_cases hbusy : s.busy = true
  · obtain ⟨t, ht, hc⟩ := completeInFlight_completesTo s
    exact ⟨t, (step_of_nil_or_wait (rest := []) hbusy (.inl hin)).trans ht, hc.inputs⟩
  · exact ⟨s, by simp [step, nextStep, hin, hbusy], rfl⟩

theorem State.safe_of_subset {s t : State} (h : s.safe) (hsub : t.inputs ⊆ s.inputs) : t.safe :=
  fun i hi => h i (hsub hi)

/-- Settles O20: a step answers a next state whose pending inputs were pending before. -/
theorem regularRunsNeverStop : Obligations.RegularRunsNeverStop := by
  unfold Obligations.RegularRunsNeverStop
  intro s hsafe
  cases hin : s.inputs with
  | nil =>
    obtain ⟨t, ht, hinputs⟩ := step_of_no_input hin
    exact ⟨t, ht, State.safe_of_subset hsafe (hinputs ▸ List.Subset.refl _)⟩
  | cons i rest =>
    obtain ⟨t, ht, hinputs⟩ := step_of_regular hin (hsafe i (hin ▸ List.mem_cons_self))
    refine ⟨t, ht, State.safe_of_subset hsafe ?_⟩
    rcases hinputs with hall | hrest
    · exact hall ▸ List.Subset.refl _
    · rw [hrest, hin]; exact List.subset_cons_self i rest

/-! ### IRQ (R44, R305, R306) -/

theorem State.irq_iff (s : State) : s.irq = true ↔ s.ie = true ∧ s.done = true := Bool.and_eq_true_iff

/-- The host's writes that end an asserted IRQ: clearing DONE, a command accepted, clearing IE, and a reset. -/
theorem State.irq_writeLoc {s : State} (h : s.irq = true) (loc : Loc) (w : Word) :
    (s.writeLoc loc w).irq = true
      ∨ (loc = .status ∧ w.getLsbD 1 = true)
      ∨ (loc = .cmd ∧ s.busy = false)
      ∨ (loc = .ctrl ∧ (w.getLsbD 0 = false ∨ w.getLsbD 1 = true)) := by
  have ⟨hie, hdone⟩ := s.irq_iff.1 h
  rcases s.writeLoc_cases loc w with e | e | ⟨hloc, hsrst, -⟩ | ⟨hloc, _, e⟩ | ⟨hloc, e⟩ | ⟨hloc, hidle, -⟩
  · obtain ⟨-, hie', hdone'⟩ := s.code_ie_done_writeData loc w
    exact .inl (e ▸ (State.irq_iff _).2 ⟨hie'.trans hie, hdone'.trans hdone⟩)
  · exact .inl (e ▸ h)
  · exact .inr (.inr (.inr ⟨hloc, .inr hsrst⟩))
  · cases hbit : w.getLsbD 0 with
    | true => exact .inl (e ▸ (State.irq_iff _).2 ⟨hbit, hdone⟩)
    | false => exact .inr (.inr (.inr ⟨hloc, .inl rfl⟩))
  · cases hbit : w.getLsbD 1 with
    | true => exact .inr (.inl ⟨hloc, rfl⟩)
    | false => exact .inl (e ▸ (State.irq_iff _).2 ⟨hie, by rw [State.writeStatus, hdone, hbit]; rfl⟩)
  · exact .inr (.inr (.inl ⟨hloc, hidle⟩))

/-- Settles O21: a completion sets DONE and keeps IE, and of the steps only a reset and the host's writes named in
`irq_writeLoc` take either away. -/
theorem interruptIsALevelUntilCleared : Obligations.InterruptIsALevelUntilCleared := by
  unfold Obligations.InterruptIsALevelUntilCleared
  refine ⟨fun _ => rfl, fun i s t h => ?_, fun s t h hstep => ?_⟩
  · have hc := completesTo_of_exec h
    rw [State.irq, hc.ie, hc.done, Bool.and_true]
  rcases step_cases hstep with ⟨-, _, hc⟩ | ⟨_, _, _, _, -, rfl⟩ | ⟨off, w, rest, hin, h4, rfl⟩ | ⟨rest, hin, -⟩
    | ⟨-, _, _, rfl⟩
  · have hc := completesTo_of_completeInFlight hc
    exact .inl ((State.irq_iff _).2 ⟨hc.ie.trans (s.irq_iff.1 h).1, hc.done⟩)
  · exact .inl h
  · have hoff {o : Offset} {loc : Loc} (ho : o.toNat % 4 = 0) (hloc : locate o = loc) (hr : loc ≠ .reserved)
        (he : locate off = loc) : off = o := locate_injective ho h4 (hloc ▸ hr) (he.trans hloc.symm)
    rcases State.irq_writeLoc (s := { s with inputs := rest }) h (locate off) w with ht | ⟨hloc, hbit⟩ | ⟨hloc, hidle⟩
      | ⟨hloc, hbits⟩
    · exact .inl ht
    · obtain rfl := hoff (by decide) locate_status (by simp) hloc
      exact .inr (.inl ⟨w, rest, hin, hbit⟩)
    · obtain rfl := hoff (by decide) locate_cmd (by simp) hloc
      exact .inr (.inr (.inl ⟨w, rest, hin, hidle⟩))
    · obtain rfl := hoff (by decide) locate_ctrl (by simp) hloc
      exact .inr (.inr (.inr (.inl ⟨w, rest, hin, hbits⟩)))
  · exact .inr (.inr (.inr (.inr ⟨rest, hin⟩)))
  · exact .inl h

/-! ### The command in flight (R280, R307, R340) -/

theorem completeInFlight_of_decode {s : State} {i : Instr} (h : decode s.cmd = .ok i) :
    completeInFlight s = exec i s := by
  simp only [completeInFlight, h]

/-- Settles O5: the sequencer's turn is the completion of the decoded word. -/
theorem stepRunsTheCommandInFlight : Obligations.StepRunsTheCommandInFlight := by
  unfold Obligations.StepRunsTheCommandInFlight
  intro s i hbusy hdecode
  refine ⟨?_, fun rest hin => (step_complete hbusy hin).trans (completeInFlight_of_decode hdecode)⟩
  rintro (hin | ⟨rest, hin⟩)
  · exact (step_of_nil_or_wait (rest := []) hbusy (.inl hin)).trans (completeInFlight_of_decode hdecode)
  · exact (step_of_nil_or_wait hbusy (.inr hin)).trans (completeInFlight_of_decode hdecode)

end Sys2Proof.Machine
end

section
/-! SUPPORT. The proofs of the statements about every command: it completes with an error alone or with CODE 0, it
changes its destination alone, it succeeds on operands that its rule accepts, and without the table the generator's
multiplication does not (spec/60_exceptions.md R280 to R285, R298, R302). -/

namespace Sys2Proof.Machine

/-! ### Completion with an error alone, or with CODE 0 (R283, R285) -/

/-- Settles O27, by the two cases of a command. -/
theorem commandsCompleteWithoutPartialState : Obligations.CommandsCompleteWithoutPartialState := by
  unfold Obligations.CommandsCompleteWithoutPartialState
  intro i s
  rcases exec_cases i s with ⟨u, hu, hw⟩ | ⟨e, he, -⟩
  · obtain ⟨-, -, -, -, -, -, herr, -, -, -, herrcmd, -⟩ := hw.frame
    exact ⟨_, hu, rfl, rfl, .inr ⟨rfl, herr, herrcmd⟩⟩
  · exact ⟨_, he, rfl, rfl, .inl ⟨e.code_ne_zero, rfl⟩⟩

/-! ### The frame of a command (R42, R284) -/

/-- PEQ alone writes EQ (R42). -/
theorem Writes.eq_of_ne_peq {i : Instr} {s u : State} (h : Writes i s u) (hi : ∀ a b, i ≠ .peq a b) : u.eq = s.eq := by
  cases i
  case peq a b => exact absurd rfl (hi a b)
  case nop | ctxld => obtain rfl := h; rfl
  all_goals obtain ⟨_, rfl⟩ := h; rfl

/-- Success is read in STATUS alone (R285). -/
theorem State.readLoc_completeOk (s : State) {loc : Loc} (h : loc ≠ .status) :
    s.completeOk.readLoc loc = s.readLoc loc := by
  cases loc
  case status => exact absurd rfl h
  all_goals rfl

/-- An error is read in STATUS and ERRCMD alone (R283). -/
theorem State.readLoc_completeErr (s : State) (e : Err) {loc : Loc} (h : loc ≠ .status) (h' : loc ≠ .errcmd) :
    (s.completeErr e).readLoc loc = s.readLoc loc := by
  cases loc
  case status => exact absurd rfl h
  case errcmd => exact absurd rfl h'
  all_goals rfl

/-- A write of `F[d]` is read in its block alone (R73). -/
theorem State.readLoc_writeF (s : State) (d : FReg) (r : FieldReg) {loc : Loc}
    (h : ¬ inRange loc.offset (0x400 + 0x40 * d.val) 0x40) : (s.writeF d r).readLoc loc = s.readLoc loc := by
  cases loc
  case fVal i _ | fMeta i =>
    have hne : d ≠ i := by rintro rfl; simp only [Loc.offset] at h; omega
    simp only [State.readLoc, s.readF_writeF_ne d i r hne]
  all_goals rfl

/-- A write of `PT[d]` is read in its block alone (R73). -/
theorem State.readLoc_writePt (s : State) (d : PReg) (r : PointReg) {loc : Loc}
    (h : ¬ inRange loc.offset (0x800 + 0x80 * d.val) 0x80) : (s.writePt d r).readLoc loc = s.readLoc loc := by
  cases loc
  case ptVal i co j =>
    have hne : d ≠ i := by
      rintro rfl
      have := co.index_lt
      simp only [Loc.offset] at h; omega
    simp only [State.readLoc, s.readPt_writePt_ne d i r hne]
  case ptMeta i =>
    have hne : d ≠ i := by rintro rfl; simp only [Loc.offset] at h; omega
    simp only [State.readLoc, s.readPt_writePt_ne d i r hne]
  all_goals rfl

/-- A write of `CTX[c]` is read in its block alone (R73). -/
theorem State.readLoc_writeCtx (s : State) (c : CReg) (r : Context) {loc : Loc}
    (h : ¬ inRange loc.offset (0x100 + 0x100 * c.val) 0x100) : (s.writeCtx c r).readLoc loc = s.readLoc loc := by
  cases loc
  case ctxVal i fld j =>
    have hne : c ≠ i := by
      rintro rfl
      have := fld.index_lt
      simp only [Loc.offset] at h; omega
    simp only [State.readLoc, s.readCtx_writeCtx_ne c i r hne]
  case ctxMeta i =>
    have hne : c ≠ i := by rintro rfl; simp only [Loc.offset] at h; omega
    simp only [State.readLoc, s.readCtx_writeCtx_ne c i r hne]
  all_goals rfl

/-- The wire buffer is read in the WIRE words alone (R73). -/
theorem State.readLoc_withWire (s : State) (bytes : Vector Byte 65) {loc : Loc} (h : ¬ wireOffset loc.offset) :
    ({ s with wire := bytes } : State).readLoc loc = s.readLoc loc := by
  cases loc
  case wire m => simp only [Loc.offset] at h; omega
  all_goals rfl

/-- EQ is read in STATUS alone (R38). -/
theorem State.readLoc_withEq (s : State) (b : Bool) {loc : Loc} (h : loc ≠ .status) :
    ({ s with eq := b } : State).readLoc loc = s.readLoc loc := by
  cases loc
  case status => exact absurd rfl h
  all_goals rfl

/-- A command's writes are read in its destination alone (R284). -/
theorem Writes.readLoc {i : Instr} {s u : State} (hw : Writes i s u) {loc : Loc} (hstatus : loc ≠ .status)
    (h : ¬ inRange loc.offset (destination i).1 (destination i).2) : u.readLoc loc = s.readLoc loc := by
  cases i
  case nop => obtain rfl := hw; rfl
  case fadd | fsub | fmul | fneg | finv | fdiv | fpow | fred =>
    obtain ⟨r, rfl⟩ := hw
    exact s.readLoc_writeF _ r h
  case pinf | pmake | pneg | padd | pdbl | ptoj | ptoa | smul | smulg | pdec =>
    obtain ⟨r, rfl⟩ := hw
    exact s.readLoc_writePt _ r h
  case peq => obtain ⟨b, rfl⟩ := hw; exact s.readLoc_withEq b hstatus
  case ctxld c dom => obtain rfl := hw; exact s.readLoc_writeCtx c _ h
  case penc => obtain ⟨bytes, rfl⟩ := hw; exact s.readLoc_withWire bytes h

/-- What a completed command changes of the words of the window: STATUS, ERRCMD and the destination (R283 to R285). -/
theorem readLoc_of_exec {i : Instr} {s t : State} (ht : exec i s = .next t) {loc : Loc} (hstatus : loc ≠ .status)
    (herrcmd : loc ≠ .errcmd) (h : ¬ inRange loc.offset (destination i).1 (destination i).2) :
    t.readLoc loc = s.readLoc loc := by
  rcases exec_cases i s with ⟨u, hu, hw⟩ | ⟨e, he, -⟩
  · obtain rfl := Host.Outcome.next.inj (hu.symm.trans ht)
    rw [u.readLoc_completeOk hstatus, hw.readLoc hstatus h]
  · obtain rfl := Host.Outcome.next.inj (he.symm.trans ht)
    exact s.readLoc_completeErr e hstatus herrcmd

/-- The destination is whole words. -/
theorem destination_mod_four (i : Instr) : (destination i).1 % 4 = 0 ∧ (destination i).2 % 4 = 0 := by
  cases i <;> simp [destination, Nat.add_mod, Nat.mul_mod]

/-- A range of whole words holds a byte iff it holds the word around it (R85). -/
theorem inRange_word_iff {o base len : Nat} (hbase : base % 4 = 0) (hlen : len % 4 = 0) :
    inRange (o / 4 * 4) base len ↔ inRange o base len := by
  unfold inRange
  omega

/-- Every byte outside STATUS, ERRCMD and the destination is a byte of a word outside them (R85). -/
theorem byteAt_of_exec {i : Instr} {s t : State} (ht : exec i s = .next t) {off : Offset}
    (hstatus : ¬ inRange off.toNat 0x008 4) (herrcmd : ¬ inRange off.toNat 0x010 4)
    (hdest : ¬ inRange off.toNat (destination i).1 (destination i).2) : t.byteAt off = s.byteAt off := by
  have hword : (BitVec.ofNat 15 (off.toNat / 4 * 4)).toNat = off.toNat / 4 * 4 := by
    have := off.isLt
    rw [BitVec.toNat_ofNat]; omega
  suffices hread : ∀ loc, locate (BitVec.ofNat 15 (off.toNat / 4 * 4)) = loc → t.readLoc loc = s.readLoc loc by
    rw [State.byteAt, State.byteAt, hread _ rfl]
  intro loc hloc
  by_cases hres : loc = .reserved
  · rw [hres]; rfl
  have hoff : loc.offset = off.toNat / 4 * 4 := by
    rw [← hword, ← hloc]
    exact offset_locate (by omega) (hloc ▸ hres)
  obtain ⟨hbase, hlen⟩ := destination_mod_four i
  refine readLoc_of_exec ht ?_ ?_ ?_
  · rintro rfl; exact hstatus ((inRange_word_iff rfl rfl).1 (hoff ▸ by decide))
  · rintro rfl; exact herrcmd ((inRange_word_iff rfl rfl).1 (hoff ▸ by decide))
  · rw [hoff, inRange_word_iff hbase hlen]; exact hdest

/-- Settles O29, by the two cases of a command, and word by word for the bytes of the window. -/
theorem commandsChangeOnlyTheirDestination : Obligations.CommandsChangeOnlyTheirDestination := by
  unfold Obligations.CommandsChangeOnlyTheirDestination
  intro i s t ht
  have hbytes (off : Offset) := byteAt_of_exec ht (off := off)
  rcases exec_cases i s with ⟨u, hu, hw⟩ | ⟨e, he, -⟩
  · obtain rfl := Host.Outcome.next.inj (hu.symm.trans ht)
    obtain ⟨hk, htable, hie, htv, -, -, -, hovf, -, hcmd, -, hinputs, hrdata, hdraws⟩ := hw.frame
    exact ⟨hk, htable, hie, htv, hovf, hcmd, hinputs, hrdata, hdraws, hw.eq_of_ne_peq, hbytes⟩
  · obtain rfl := Host.Outcome.next.inj (he.symm.trans ht)
    exact ⟨rfl, rfl, rfl, rfl, rfl, rfl, rfl, rfl, rfl, fun _ => rfl, hbytes⟩

/-! ### Without the table (R298) -/

/-- The fast path of SMUL while TVALID is 0 (R226, R298). -/
theorem smulResult_of_isG_of_not_tvalid {s : State} {o : ScalarOperands} (h0 : o.k ≠ 0) (h2 : o.k ≠ 2)
    (hG : s.isG o.P o.c = true) (htv : s.tvalid = false) : s.smulResult o = .error .tableUnavailable := by
  have hP : o.P ≠ .inf := fun h => by simp [State.isG, h] at hG
  rw [State.smulResult, if_neg h0, if_neg hP, if_neg h2, if_pos hG, htv]; rfl

/-- Settles O51: SMUL is on its fast path, which checks TVALID first, and SMULG checks it before its scalar. -/
theorem tableUnavailableStopsTheFastPath : Obligations.TableUnavailableStopsTheFastPath := by
  unfold Obligations.TableUnavailableStopsTheFastPath
  intro s d k a hready hG htv
  refine ⟨fun h0 h2 => ?_, ?_⟩
  · have hres : s.smulResult (s.scalarValues k a) = .error .tableUnavailable :=
      smulResult_of_isG_of_not_tvalid (fun h => h0 (BitVec.eq_of_toNat_eq h)) (fun h => h2 (BitVec.eq_of_toNat_eq h))
        (by rw [isG_scalarValues]; exact decide_eq_true hG) htv
    rw [exec_smul_of_ready hready, hres]; rfl
  · obtain ⟨-, hchecks, -⟩ := smulgChecksItsPoint s d k a
    rw [hchecks ⟨(s.tvalid, 13), by simp, htv⟩, outcome_append, if_pos (scalarChecks_hold hready), State.outcome,
      if_pos (decide_eq_true hG), State.outcome, htv]
    rfl

/-! ### Success on accepted operands (R285, R302) -/

/-- The command completes with CODE 0. -/
def Succeeds (i : Instr) (s : State) : Prop := ∃ t, exec i s = .next t ∧ t.code = 0

/-- A command whose checks all hold succeeds. -/
theorem Succeeds.of_outcome {i : Instr} {s t : State} {l : List (Bool × BitVec 5)} (h : exec i s = s.outcome l t)
    (hl : ∀ c ∈ l, c.1 = true) : Succeeds i s := ⟨t.succeeded, h.trans (outcome_of_all hl), rfl⟩

/-- A last check that holds keeps a list of checks that hold. -/
theorem checks_hold_append {l : List (Bool × BitVec 5)} {p : Prop} [Decidable p] {code : BitVec 5}
    (hl : ∀ c ∈ l, c.1 = true) (hp : p) : ∀ c ∈ l ++ [(decide p, code)], c.1 = true :=
  List.forall_mem_append.2 ⟨hl, by simpa using hp⟩

section Checks

variable {s : State}

theorem fieldChecks_hold {a : FReg} (h : s.fieldReady a) : ∀ c ∈ s.fieldChecks a, c.1 = true := by
  obtain ⟨hv, hctx, hlt⟩ := h
  simp [State.fieldChecks, hv, hctx, hlt]

theorem fieldPairChecks_hold {a b : FReg} (ha : s.fieldReady a) (hb : s.fieldReady b) (hmod : s.fMod b = s.fMod a) :
    ∀ c ∈ s.fieldPairChecks a b, c.1 = true := by
  obtain ⟨hva, hca, hlta⟩ := ha
  obtain ⟨hvb, hcb, hltb⟩ := hb
  rw [hmod] at hltb
  simpa [State.fieldPairChecks, hva, hvb, hlta, hltb] using ⟨⟨hca, hcb⟩, hmod⟩

theorem pointChecks_hold {a : PReg} {repChecks : List (Bool × BitVec 5)} (h : s.pointReady a)
    (hrep : ∀ c ∈ repChecks, c.1 = true) : ∀ c ∈ s.pointChecks a repChecks, c.1 = true := by
  obtain ⟨hv, hctx, hc⟩ := h
  refine List.forall_mem_append.2 ⟨List.forall_mem_append.2 ⟨?_, hrep⟩, ?_⟩
  · simp [hv, hctx]
  · simp [hc]

theorem pointPairChecks_hold {a b : PReg} (h : s.pointsReady a b) : ∀ c ∈ s.pointPairChecks a b, c.1 = true := by
  obtain ⟨⟨hva, hctxa, hca⟩, ⟨hvb, hctxb, hcb⟩, hcurve, hrep⟩ := h
  simp [State.pointPairChecks, hva, hctxa, hca, hvb, hctxb, hcb, hcurve, hrep]

end Checks

section Commands

variable {s : State}

/-- PADD succeeds on the points it can add (R175 to R177, R195). -/
theorem succeeds_padd {a b : PReg} (d : PReg) (hrom : s.domainsHoldRom) (h : s.pointsReady a b) (hadd : s.addable a b) :
    Succeeds (.padd d a b) s := by
  have hchecks := pointPairChecks_hold h
  unfold State.addable at hadd
  cases hrep : (s.readPt a).rep with
  | affine =>
    have hexec := paddAddsAffinePoints s d a b hrom hrep
    simp only [hrep] at hadd
    dsimp only at hexec
    split_ifs at hexec with hinf hr hq heq hopp
    · exact .of_outcome hexec hchecks
    · exact .of_outcome hexec hchecks
    · exact .of_outcome hexec hchecks
    · obtain ⟨hx, hy⟩ := heq
      have h2y : 2 * (s.readPt a).y.toNat % s.ptMod a ≠ 0 := by simpa [hr, hq, hx, hy] using hadd
      exact .of_outcome hexec (checks_hold_append hchecks h2y)
    · exact .of_outcome hexec hchecks
    · have hx : (s.readPt a).x ≠ (s.readPt b).x := by
        intro hx
        have hy : (s.readPt a).y ≠ (s.readPt b).y := fun hy => heq ⟨hx, hy⟩
        exact hopp ⟨hx, by simpa [hr, hq, hx, hy] using hadd⟩
      exact .of_outcome hexec (checks_hold_append hchecks hx)
  | jacobian =>
    simp only [hrep] at hadd
    obtain ⟨hz1, hz2, he⟩ := hadd
    exact .of_outcome (paddMixedAddsJacobianPoints s d a b hrom hrep)
      (List.forall_mem_append.2 ⟨hchecks, checks_hold_append (l := [_]) (by simpa using ⟨hz1, hz2⟩) he⟩)

/-- PDBL succeeds on the points it can double (R178, R179, R196). -/
theorem succeeds_pdbl {a : PReg} (d : PReg) (h : s.pointReady a) (hdbl : s.doublable a) : Succeeds (.pdbl d a) s := by
  have hchecks := pointChecks_hold (repChecks := []) h (by simp)
  have hexec := pdblDoublesPoints s d a
  unfold State.doublable at hdbl
  cases hrep : (s.readPt a).rep with
  | affine =>
    simp only [hrep] at hexec hdbl
    split at hexec
    · exact .of_outcome hexec hchecks
    · next hinf =>
      exact .of_outcome hexec (checks_hold_append hchecks (hdbl.resolve_left hinf))
  | jacobian =>
    simp only [hrep] at hexec hdbl
    exact .of_outcome hexec (checks_hold_append hchecks hdbl)

/-- SMUL succeeds on the scalars that use neither path's loop (R226). -/
theorem succeeds_smul {k : KReg} {a : PReg} (d : PReg) (h : s.scalarReady k a)
    (hk : (s.readK k).val = 0 ∨ (s.readK k).val = 2 ∨ (s.readPt a).inf = true
      ∨ ((s.readK k).val = 1 ∧ ¬ s.holdsGenerator a)) : Succeeds (.smul d k a) s := by
  have hchecks := scalarChecks_hold h
  obtain ⟨hinfinity, htwo, hone⟩ := smulSmallScalars s d k a
  by_cases hinf : (s.readPt a).inf = true
  · exact .of_outcome (hinfinity (.inr hinf)) hchecks
  have hfin : (s.readPt a).inf = false := eq_false_of_ne_true hinf
  rcases hk with h0 | h2 | h | ⟨h1, hG⟩
  · exact .of_outcome (hinfinity (.inl h0)) hchecks
  · exact .of_outcome (htwo h2 hfin) hchecks
  · exact absurd h hinf
  · exact .of_outcome (hone h1 hfin hG) hchecks

end Commands

/-- Every command succeeds on the operands its rule accepts: the checks of its statement hold there. -/
theorem succeeds_of_accepts {i : Instr} {s : State} (hrom : s.domainsHoldRom) (h : s.accepts i) : Succeeds i s := by
  cases i with
  | nop => exact ⟨_, nopOnlyCompletes s, rfl⟩
  | fadd d a b =>
    obtain ⟨ha, hb, hmod⟩ := h
    obtain ⟨hadd, -, -⟩ := faddFsubFmulComputeModuloP s d a b
    exact .of_outcome hadd (fieldPairChecks_hold ha hb hmod)
  | fsub d a b =>
    obtain ⟨ha, hb, hmod⟩ := h
    obtain ⟨-, hsub, -⟩ := faddFsubFmulComputeModuloP s d a b
    exact .of_outcome hsub (fieldPairChecks_hold ha hb hmod)
  | fmul d a b =>
    obtain ⟨ha, hb, hmod⟩ := h
    obtain ⟨-, -, hmul⟩ := faddFsubFmulComputeModuloP s d a b
    exact .of_outcome hmul (fieldPairChecks_hold ha hb hmod)
  | fneg d a => exact .of_outcome (fnegNegatesModuloP s d a) (fieldChecks_hold h)
  | finv d a =>
    obtain ⟨ha, h0⟩ := h
    obtain ⟨hinv, -⟩ := finvInvertsModuloP s d a
    exact .of_outcome hinv (checks_hold_append (fieldChecks_hold ha) h0)
  | fdiv d a b =>
    obtain ⟨ha, hb, hmod, h0⟩ := h
    exact .of_outcome (fdivDividesModuloP s d a b) (checks_hold_append (fieldPairChecks_hold ha hb hmod) h0)
  | fpow d a imm =>
    obtain ⟨ha, himm⟩ := h
    exact .of_outcome (fpowRaisesToTheImmediate s d a imm)
      (List.forall_mem_cons.2 ⟨decide_eq_true himm, fieldChecks_hold ha⟩)
  | fred d hi lo c =>
    obtain ⟨hhi, hlo, hctx⟩ := h
    exact .of_outcome (fredReducesDoubleWidth s d hi lo c) (by simp [hhi, hlo, hctx])
  | pinf d c => exact .of_outcome (pinfLoadsInfinity s d c) (by simpa [State.accepts] using h)
  | pmake d x y c =>
    obtain ⟨⟨hvx, hcx, hx⟩, ⟨hvy, hcy, hy⟩, hctx, hmx, hmy⟩ := h
    rw [hmx] at hx
    rw [hmy] at hy
    exact .of_outcome (pmakeBuildsAnAffinePoint s d x y c)
      (by simpa [hvx, hvy, hx, hy] using ⟨⟨⟨hcx, hcy⟩, hctx⟩, hmx, hmy⟩)
  | pneg d a =>
    obtain ⟨ha, hrep⟩ := h
    exact .of_outcome (pnegNegatesAffinePoints s d a) (pointChecks_hold ha (by simpa using hrep))
  | peq a b => exact .of_outcome (peqComparesRawValues s a b) (pointPairChecks_hold h)
  | padd d a b =>
    obtain ⟨hready, hadd⟩ := h
    exact succeeds_padd d hrom hready hadd
  | pdbl d a =>
    obtain ⟨hready, hdbl⟩ := h
    exact succeeds_pdbl d hready hdbl
  | ptoj d a =>
    obtain ⟨ha, hrep⟩ := h
    exact .of_outcome (ptojConvertsToJacobian s d a) (pointChecks_hold ha (by simpa using hrep))
  | ptoa d a =>
    obtain ⟨ha, hrep, hz⟩ := h
    have hz' : ((s.readPt a).x = 1 ∧ (s.readPt a).y = 1 ∧ (s.readPt a).z = 0) ∨ (s.readPt a).z ≠ 0 := by tauto
    exact .of_outcome (ptoaConvertsToAffine s d a)
      (checks_hold_append (pointChecks_hold ha (by simpa using hrep)) hz')
  | smul d k a =>
    obtain ⟨hready, hk⟩ := h
    exact succeeds_smul d hready hk
  | smulg d k a =>
    obtain ⟨hready, hG, htv, h0⟩ := h
    obtain ⟨hzero, -, -⟩ := smulgChecksItsPoint s d k a
    exact .of_outcome (hzero h0) (List.forall_mem_append.2 ⟨scalarChecks_hold hready, by simp [hG, htv]⟩)
  | ctxld c dom => exact .of_outcome (ctxldLoadsSecp256k1 s c dom) (by simpa [State.accepts] using h)
  | pdec d c =>
    obtain ⟨hctx, htag, hx, hy⟩ := h
    exact .of_outcome (pdecDecodesTheWireBuffer s d c) (by simpa [htag, hx, hy] using hctx)
  | penc a =>
    obtain ⟨ha, hrep, hinf⟩ := h
    exact .of_outcome (exec_penc_eq_outcome s a) (pointChecks_hold ha (by simp [hrep, hinf]))

/-- Settles O28: a command that completes with CODE 0 leaves ERR and ERRCMD as they were. -/
theorem commandsSucceedOnAcceptedOperands : Obligations.CommandsSucceedOnAcceptedOperands := by
  unfold Obligations.CommandsSucceedOnAcceptedOperands
  intro i s hrom h
  obtain ⟨t, ht, h0⟩ := succeeds_of_accepts hrom h
  obtain ⟨t', ht', hbusy, hdone, hcode⟩ := commandsCompleteWithoutPartialState i s
  obtain rfl := Host.Outcome.next.inj (ht.symm.trans ht')
  rcases hcode with ⟨hne, -⟩ | ⟨-, herr, herrcmd⟩
  · exact absurd h0 hne
  · exact ⟨t, ht, h0, hbusy, hdone, herr, herrcmd⟩

end Sys2Proof.Machine
end

section
/-! SUPPORT. The proofs of the statements about the resets, from one lemma that says what each of the three reset states
has clear, and of the invariant that BUSY and DONE exclude each other, from the cases of a step
(spec/10_state.md R38, R39, R45; spec/70_reset_and_hazards.md R320, R321, R338). -/

namespace Sys2Proof.Machine

/-! ### What a reset clears (R45, R320, R321) -/

/-- Every bit that R45 gives a reset value has it: the valid bits and domain ids, CTRL, STATUS, ERRCMD and CMD. -/
structure State.Cleared (s : State) : Prop where
  fieldRegs : ∀ i, (s.readF i).v = false
  pointRegs : ∀ i, (s.readPt i).v = false
  scalarRegs : ∀ i, (s.readK i).v = false
  contexts : ∀ c, (s.readCtx c).valid = false ∧ (s.readCtx c).dom = 0
  ctrl : s.ie = false ∧ s.tvalid = false
  status : s.busy = false ∧ s.done = false ∧ s.err = false ∧ s.eq = false ∧ s.ovf = false ∧ s.code = 0
  words : s.errcmd = 0 ∧ s.cmd = 0

theorem State.cleared_softReset (s : State) : s.softReset.Cleared where
  fieldRegs i := by rw [State.readF, State.softReset, State.clearControl, State.drawRegisters, get_fileOf]
  pointRegs i := by rw [State.readPt, State.softReset, State.clearControl, State.drawRegisters, get_fileOf]
  scalarRegs i := by rw [State.readK, State.softReset, State.clearControl, State.drawRegisters, get_fileOf]
  contexts c := ⟨by rw [State.readCtx, State.softReset, State.clearControl, State.drawRegisters, get_fileOf],
    s.dom_softReset c⟩
  ctrl := ⟨rfl, rfl⟩
  status := ⟨rfl, rfl, rfl, rfl, rfl, rfl⟩
  words := ⟨rfl, rfl⟩

/-- TABLE has no reset value: what it holds is no part of `Cleared` (R45). -/
theorem State.Cleared.withTable {s : State} (h : s.Cleared) (table : Vector TableEntry 256) :
    ({ s with table := table } : State).Cleared :=
  ⟨h.fieldRegs, h.pointRegs, h.scalarRegs, h.contexts, h.ctrl, h.status, h.words⟩

theorem State.cleared_hardReset (s : State) : s.hardReset.Cleared := s.cleared_softReset.withTable _

theorem State.cleared_reset : State.reset.Cleared where
  fieldRegs := by decide
  pointRegs := by decide
  scalarRegs := by decide
  contexts := by decide
  ctrl := ⟨rfl, rfl⟩
  status := ⟨rfl, rfl, rfl, rfl, rfl, rfl⟩
  words := ⟨rfl, rfl⟩

/-- IRQ is low after a reset, since CTRL.IE is (R44). -/
theorem State.Cleared.irq {s : State} (h : s.Cleared) : s.irq = false := by
  obtain ⟨hie, -⟩ := h.ctrl
  rw [State.irq, hie, Bool.false_and]

theorem step_write_srst (s : State) {w : Word} (rest : List Input) (h : w.getLsbD 1 = true) :
    step { s with inputs := .write 0x004 w :: rest } = .next ({ s with inputs := rest } : State).softReset := by
  rw [step_write s w rest (by decide), locate_ctrl, State.writeLoc, State.writeCtrl_of_srst _ h]

/-- Settles O11: the write is the soft reset, which clears the block and writes neither TABLE nor the inputs. -/
theorem softResetClearsAllButTheTable : Obligations.SoftResetClearsAllButTheTable := by
  unfold Obligations.SoftResetClearsAllButTheTable
  intro s w rest hsrst
  obtain ⟨hf, hpt, hk, hctx, ⟨hie, htv⟩, ⟨hbusy, hdone, herr, heq, hovf, hcode⟩, herrcmd, hcmd⟩ :=
    ({ s with inputs := rest } : State).cleared_softReset
  exact ⟨_, step_write_srst s rest hsrst, hf, hpt, hk, hctx, hie, htv, hbusy, hdone, herr, heq, hovf, hcode, herrcmd,
    hcmd, rfl, rfl⟩

/-- Settles O12: the state after the reset input and the state the model starts in are both cleared. -/
theorem hardResetClearsAllControl : Obligations.HardResetClearsAllControl := by
  unfold Obligations.HardResetClearsAllControl
  intro s rest
  refine ⟨({ s with inputs := rest } : State).hardReset, rfl, rfl, fun u hu => ?_⟩
  have hclear : u.Cleared := by
    rcases hu with rfl | rfl
    · exact State.cleared_hardReset _
    · exact State.cleared_reset
  have hirq := hclear.irq
  obtain ⟨hf, hpt, hk, hctx, ⟨hie, htv⟩, ⟨hbusy, hdone, herr, heq, hovf, hcode⟩, herrcmd, hcmd⟩ := hclear
  exact ⟨hf, hpt, hk, hctx, hie, htv, hbusy, hdone, herr, heq, hovf, hcode, herrcmd, hcmd, hirq⟩

/-! ### BUSY and DONE (R38, R39, R338) -/

theorem State.busyNotDone_of_idle {s : State} (h : s.busy = false) : s.busyNotDone :=
  fun hbusy => absurd hbusy (ne_true_of_eq_false h)

theorem State.busyNotDone_of_not_done {s : State} (h : s.done = false) : s.busyNotDone := fun _ => h

theorem State.busyNotDone.writeData {s : State} (h : s.busyNotDone) (loc : Loc) (w : Word) :
    (s.writeData loc w).busyNotDone := by
  obtain ⟨-, -, hbusy, hdone, -⟩ := s.writeData_frame loc w
  exact fun hb => hdone.trans (h (hbusy.symm.trans hb))

/-- A write of STATUS keeps BUSY and sets no bit (R38). -/
theorem State.busyNotDone.writeStatus {s : State} (h : s.busyNotDone) (w : Word) : (s.writeStatus w).busyNotDone :=
  fun hbusy => by rw [State.writeStatus, h hbusy, Bool.false_and]

/-- The host's one write that sets BUSY, an accepted command word, clears DONE in the same access (R39). -/
theorem State.busyNotDone.writeLoc {s : State} (h : s.busyNotDone) (loc : Loc) (w : Word) :
    (s.writeLoc loc w).busyNotDone := by
  rcases s.writeLoc_cases loc w with e | e | ⟨-, -, e⟩ | ⟨-, _, e⟩ | ⟨-, e⟩ | ⟨-, -, e⟩ <;> rw [e]
  · exact h.writeData loc w
  · exact h
  · exact State.busyNotDone_of_idle rfl
  · exact h
  · exact h.writeStatus w
  · exact State.busyNotDone_of_not_done rfl

/-- Settles O25, by the cases of a step: a completion and a reset leave the block idle, and a host write keeps the
invariant. -/
theorem busyAndDoneExcludeEachOther : Obligations.BusyAndDoneExcludeEachOther := by
  unfold Obligations.BusyAndDoneExcludeEachOther
  intro s t h hstep
  rcases step_cases hstep with ⟨-, _, hc⟩ | ⟨_, _, _, _, -, rfl⟩ | ⟨off, w, rest, -, -, rfl⟩ | ⟨_, -, rfl⟩
    | ⟨hidle, _, _, rfl⟩
  · exact State.busyNotDone_of_idle (busy_of_completeInFlight hc)
  · exact h
  · exact State.busyNotDone.writeLoc (s := { s with inputs := rest }) h (locate off) w
  · exact State.busyNotDone_of_idle rfl
  · exact State.busyNotDone_of_idle hidle

end Sys2Proof.Machine
end
